-- ==== Sys2Proof/Word.lean ====
section
/-! DEFINITION. The machine's bit-vector types. R50: an address names one byte of 8 bits; R20: every register is 32 bits. -/

namespace Sys2Proof

/-- One byte of memory (R50). -/
abbrev Byte := BitVec 8

/-- A 32-bit register or address (R20, R50). Arithmetic on it is modulo `2^32` (R9, R55). -/
abbrev Word := BitVec 32

end Sys2Proof
end

