-- ==== Sys2Proof/Config.lean ====
section
/-! DEFINITION. What is fixed for the machine, and the values the model names where the spec gives none. -/

namespace Sys2Proof

/-- What a byte of memory that nothing has written reads as. DESIGN CHOICE, unsafe: `MemContents0` is a parameter
of the spec (R33, U15) and the model names 0 for it (log 3). -/
def Config.unlistedByte : Byte := 0

/-- The value of `R0`–`R13` right after reset. DESIGN CHOICE, unsafe: R33 leaves them unspecified (log 1). -/
def Config.resetRegister : Word := 0

/-- The value of each flag of `P` right after reset. DESIGN CHOICE, unsafe: R33 leaves them unspecified (log 2). -/
def Config.resetFlag : Bool := false

/-- The number of byte addresses of the one address space (R50). -/
def Config.addressSpace : Nat := 2 ^ 32

/-- The length in bytes of the longest instruction (R91: mode 8 with `S = 00`). -/
def Config.longestInstruction : Nat := 10

end Sys2Proof
end

