-- ==== Sys2Proof/Syntax.lean ====
section
/-! DEFINITION. The instruction set as syntax: one constructor of `Instr` for each of the 51 instructions of R100. The rows
of `opcode_table.json` that share a mnemonic are the values of that constructor's operand form (R98; log 11). -/

namespace Sys2Proof

/-- Operand size, the `S` field (R82): 32 bits (no suffix), 16 (`.W`), 8 (`.B`). -/
inductive Size where
  | long
  | word
  | byte
  deriving DecidableEq, Repr

/-- Operand size in bytes, the `nb` of R9. -/
@[reducible] def Size.bytes : Size → Nat
  | .long => 4
  | .word => 2
  | .byte => 1

/-- Operand size in bits, the `n` of R9. -/
@[reducible] def Size.bits : Size → Nat
  | .long => 32
  | .word => 16
  | .byte => 8

/-- The sixteen registers (R20, R21); `sp` is number 14 and `pc` number 15. -/
inductive Reg where
  | r0 | r1 | r2 | r3 | r4 | r5 | r6 | r7 | r8 | r9 | r10 | r11 | r12 | r13
  | sp
  | pc
  deriving DecidableEq, Repr

/-- What happens to the pointer register of a memory operand (R84): nothing, `[..]+` (R134) or `[..]-` (R133). -/
inductive Modifier where
  | plain
  | postInc
  | preDec
  deriving DecidableEq, Repr

/-- The operand forms of a two-operand data instruction: destination first (R83, R90, R98). -/
inductive TwoOp where
  /-- mode 1, `Rx, const` -/
  | regConst (rx : Reg) (c : Word)
  /-- mode 4, `Rx, Ry` -/
  | regReg (rx ry : Reg)
  /-- mode 6, `Rx, [Address]` -/
  | regAbs (rx : Reg) (addr : Word)
  /-- mode 7, `[Address], Rx` -/
  | absReg (addr : Word) (rx : Reg)
  /-- mode 8, `[Address], const` -/
  | absConst (addr : Word) (c : Word)
  /-- mode 10, `Rx, [Ry]` -/
  | regInd (rx ry : Reg) (m : Modifier)
  /-- mode 11, `[Rx], Ry` -/
  | indReg (rx ry : Reg) (m : Modifier)
  /-- mode 12, `[Rx], const` -/
  | indConst (rx : Reg) (m : Modifier) (c : Word)
  /-- mode 14, `Rx, [Ry + const]` -/
  | regIdx (rx ry : Reg) (m : Modifier) (disp : Word)
  /-- mode 15, `[Rx + const], Ry` -/
  | idxReg (rx ry : Reg) (m : Modifier) (disp : Word)
  deriving DecidableEq, Repr

/-- The operand forms of a one-operand data instruction (R83, R90, R98). -/
inductive OneOp where
  /-- mode 3, `Rx` -/
  | reg (rx : Reg)
  /-- mode 5, `[Address]` -/
  | abs (addr : Word)
  /-- mode 9, `[Rx]` -/
  | ind (rx : Reg) (m : Modifier)
  /-- mode 13, `[Rx + const]` -/
  | idx (rx : Reg) (m : Modifier) (disp : Word)
  deriving DecidableEq, Repr

/-- The operand forms of PUSH (R260): those of a one-operand instruction, and a constant. -/
inductive PushOp where
  /-- mode 2, `const` -/
  | const (c : Word)
  /-- modes 3, 5, 9, 13 -/
  | operand (o : OneOp)
  deriving DecidableEq, Repr

/-- The instructions, in the order of their codes (R100). A constant, offset or call number of `n` bits stands in the
low `n` bits of a word; that the rest is zero is checked by `Instr.wf`. -/
inductive Instr where
  | mov (sz : Size) (o : TwoOp)
  | clr (sz : Size) (o : OneOp)
  | add (sz : Size) (o : TwoOp)
  | sub (sz : Size) (o : TwoOp)
  | adc (sz : Size) (o : TwoOp)
  | sbc (sz : Size) (o : TwoOp)
  | inc (sz : Size) (o : OneOp)
  | dec (sz : Size) (o : OneOp)
  | mul (sz : Size) (o : TwoOp)
  | div (sz : Size) (o : TwoOp)
  | and (sz : Size) (o : TwoOp)
  | or (sz : Size) (o : TwoOp)
  | xor (sz : Size) (o : TwoOp)
  | shl (sz : Size) (o : TwoOp)
  | shr (sz : Size) (o : TwoOp)
  | rol (sz : Size) (o : TwoOp)
  | ror (sz : Size) (o : TwoOp)
  | cmp (sz : Size) (o : TwoOp)
  | sec
  | clc
  | sei
  | cli
  | push (sz : Size) (o : PushOp)
  | pop (sz : Size) (o : OneOp)
  | pusha
  | popa
  | jmp (addr : Word)
  | jsr (addr : Word)
  | rts
  | rti
  | brk
  | nop
  | bra (sz : Size) (offset : Word)
  | beq (sz : Size) (offset : Word)
  | bne (sz : Size) (offset : Word)
  | bcc (sz : Size) (offset : Word)
  | bcs (sz : Size) (offset : Word)
  | bpl (sz : Size) (offset : Word)
  | bmi (sz : Size) (offset : Word)
  | bvc (sz : Size) (offset : Word)
  | bvs (sz : Size) (offset : Word)
  | blt (sz : Size) (offset : Word)
  | bgt (sz : Size) (offset : Word)
  | ble (sz : Size) (offset : Word)
  | bge (sz : Size) (offset : Word)
  | sev
  | clv
  | slp
  | sxb (rx : Reg)
  | sxw (rx : Reg)
  | sys (sz : Size) (number : Word)
  deriving DecidableEq, Repr

end Sys2Proof
end

