-- ==== Sys2Proof/WellFormed.lean ====
section
/-! DEFINITION. Which instruction terms have an encoding: every field of `n` bits holds an `n`-bit value (R88, R92, R94, R96). -/

namespace Sys2Proof

/-- The value `c` fits in a field of the operand size: `nb` bytes (R88). -/
def fitsSize (sz : Size) (c : Word) : Bool := decide (c.toNat < 2 ^ sz.bits)

/-- The constant of a two-operand form, where it has one, fits (R92). -/
def TwoOp.wf (sz : Size) : TwoOp → Bool
  | .regConst _ c => fitsSize sz c
  | .absConst _ c => fitsSize sz c
  | .indConst _ _ c => fitsSize sz c
  | .regReg _ _ => true
  | .regAbs _ _ => true
  | .absReg _ _ => true
  | .regInd _ _ _ => true
  | .indReg _ _ _ => true
  | .regIdx _ _ _ _ => true
  | .idxReg _ _ _ _ => true

/-- The constant of PUSH, where it has one, fits (R92). -/
def PushOp.wf (sz : Size) : PushOp → Bool
  | .const c => fitsSize sz c
  | .operand _ => true

/-- The instruction term stands for an instruction of the machine. -/
def Instr.wf : Instr → Bool
  | .mov sz o => o.wf sz
  | .add sz o => o.wf sz
  | .sub sz o => o.wf sz
  | .adc sz o => o.wf sz
  | .sbc sz o => o.wf sz
  | .mul sz o => o.wf sz
  | .div sz o => o.wf sz
  | .and sz o => o.wf sz
  | .or sz o => o.wf sz
  | .xor sz o => o.wf sz
  | .shl sz o => o.wf sz
  | .shr sz o => o.wf sz
  | .rol sz o => o.wf sz
  | .ror sz o => o.wf sz
  | .cmp sz o => o.wf sz
  | .push sz o => o.wf sz
  | .clr _ _ => true
  | .inc _ _ => true
  | .dec _ _ => true
  | .pop _ _ => true
  | .sec => true
  | .clc => true
  | .sei => true
  | .cli => true
  | .pusha => true
  | .popa => true
  | .jmp _ => true
  | .jsr _ => true
  | .rts => true
  | .rti => true
  | .brk => true
  | .nop => true
  | .bra sz d => fitsSize sz d
  | .beq sz d => fitsSize sz d
  | .bne sz d => fitsSize sz d
  | .bcc sz d => fitsSize sz d
  | .bcs sz d => fitsSize sz d
  | .bpl sz d => fitsSize sz d
  | .bmi sz d => fitsSize sz d
  | .bvc sz d => fitsSize sz d
  | .bvs sz d => fitsSize sz d
  | .blt sz d => fitsSize sz d
  | .bgt sz d => fitsSize sz d
  | .ble sz d => fitsSize sz d
  | .bge sz d => fitsSize sz d
  | .sev => true
  | .clv => true
  | .slp => true
  | .sxb _ => true
  | .sxw _ => true
  | .sys sz k => fitsSize sz k

end Sys2Proof
end

