-- ==== Sys2Proof/Decode.lean ====
section
/-! DEFINITION. The decoder of R110, total on any bytes, and after it the encoder, both from the tables of `30_encoding.md`. -/

namespace Sys2Proof

/-! ### Names of the field values -/

/-- The register with a 4-bit number (R21). -/
def Reg.ofNibble (k : BitVec 4) : Reg :=
  match k.toNat with
  | 0 => .r0
  | 1 => .r1
  | 2 => .r2
  | 3 => .r3
  | 4 => .r4
  | 5 => .r5
  | 6 => .r6
  | 7 => .r7
  | 8 => .r8
  | 9 => .r9
  | 10 => .r10
  | 11 => .r11
  | 12 => .r12
  | 13 => .r13
  | 14 => .sp
  | _ => .pc

/-- The 4-bit number of a register (R21). -/
def Reg.nibble : Reg → BitVec 4
  | .r0 => 0
  | .r1 => 1
  | .r2 => 2
  | .r3 => 3
  | .r4 => 4
  | .r5 => 5
  | .r6 => 6
  | .r7 => 7
  | .r8 => 8
  | .r9 => 9
  | .r10 => 10
  | .r11 => 11
  | .r12 => 12
  | .r13 => 13
  | .sp => 14
  | .pc => 15

/-- The operand size of an `S` field; `11` is reserved (R82). -/
def Size.ofField (s : BitVec 2) : Option Size :=
  match s.toNat with
  | 0 => some .long
  | 1 => some .word
  | 2 => some .byte
  | _ => none

/-- The `S` field of an operand size (R82). -/
def Size.field : Size → BitVec 2
  | .long => 0
  | .word => 1
  | .byte => 2

/-- The modifier of a one-register configuration with a pointer (R84, R97). -/
def Modifier.ofConfig1 : Nat → Option Modifier
  | 1 => some .plain
  | 3 => some .postInc
  | 5 => some .preDec
  | _ => none

/-- The modifier of a two-register configuration with a pointer (R84, R97). -/
def Modifier.ofConfig2 : Nat → Option Modifier
  | 2 => some .plain
  | 4 => some .postInc
  | 6 => some .preDec
  | _ => none

/-- The `R` field of one register with this modifier (R84). -/
def Modifier.config1 : Modifier → BitVec 3
  | .plain => 1
  | .postInc => 3
  | .preDec => 5

/-- The `R` field of two registers with this modifier (R84). -/
def Modifier.config2 : Modifier → BitVec 3
  | .plain => 2
  | .postInc => 4
  | .preDec => 6

/-! ### Reading operand bytes -/

/-- What reading a part of an instruction gives: the part and the bytes after it, a one-register selector with a
non-zero high nibble (R86), a word whose combination of fields is not admitted (R112), or too few bytes. -/
inductive Parsed (α : Type) where
  | ok (a : α) (rest : List Byte)
  | badWord
  | badSelector
  | short
  deriving DecidableEq, Repr

/-- Read one part, then the next. -/
def Parsed.andThen {α β : Type} (p : Parsed α) (f : α → List Byte → Parsed β) : Parsed β :=
  match p with
  | .ok a rest => f a rest
  | .badWord => .badWord
  | .badSelector => .badSelector
  | .short => .short

/-- The value of bytes in memory order, the first the least significant (R52, `BYTE_ORDER`). -/
def leValue : List Byte → Nat
  | [] => 0
  | b :: bs => b.toNat + 256 * leValue bs

/-- A field of `k` bytes, little-endian (R88). -/
def takeField (k : Nat) (bs : List Byte) : Parsed Word :=
  if bs.length < k then .short else .ok (BitVec.ofNat 32 (leValue (bs.take k))) (bs.drop k)

/-- The selector byte of a one-register configuration (R85, R86). -/
def takeReg : List Byte → Parsed Reg
  | [] => .short
  | b :: bs =>
    if b.extractLsb' 4 4 = 0#4 then .ok (Reg.ofNibble (b.extractLsb' 0 4)) bs else .badSelector

/-- The selector byte of a two-register configuration: the high and the low nibble (R87). -/
def takeRegs : List Byte → Parsed (Reg × Reg)
  | [] => .short
  | b :: bs => .ok (Reg.ofNibble (b.extractLsb' 4 4), Reg.ofNibble (b.extractLsb' 0 4)) bs

/-- The form is admitted with the modifier `m` only where the configuration gives one (R97). -/
def withModifier {α : Type} (m : Option Modifier) (f : Modifier → Parsed α) : Parsed α :=
  match m with
  | some m => f m
  | none => .badWord

/-- The operands of a two-operand data instruction: modes 1, 4, 6, 7, 8, 10, 11, 12, 14, 15 with the configurations of
R97, laid out as in R90. In the two-register modes the pointer is in the low nibble (R87). -/
def takeTwoOp (sz : Size) (mode config : Nat) (bs : List Byte) : Parsed TwoOp :=
  match mode, config with
  | 1, 1 => (takeReg bs).andThen fun rx bs => (takeField sz.bytes bs).andThen fun c bs => .ok (.regConst rx c) bs
  | 4, 2 => (takeRegs bs).andThen fun p bs => .ok (.regReg p.1 p.2) bs
  | 6, 1 => (takeReg bs).andThen fun rx bs => (takeField 4 bs).andThen fun a bs => .ok (.regAbs rx a) bs
  | 7, 1 => (takeReg bs).andThen fun rx bs => (takeField 4 bs).andThen fun a bs => .ok (.absReg a rx) bs
  | 8, 0 => (takeField 4 bs).andThen fun a bs => (takeField sz.bytes bs).andThen fun c bs => .ok (.absConst a c) bs
  | 10, r => withModifier (Modifier.ofConfig2 r) fun m => (takeRegs bs).andThen fun p bs => .ok (.regInd p.1 p.2 m) bs
  | 11, r => withModifier (Modifier.ofConfig2 r) fun m => (takeRegs bs).andThen fun p bs => .ok (.indReg p.2 p.1 m) bs
  | 12, r => withModifier (Modifier.ofConfig1 r) fun m =>
      (takeReg bs).andThen fun rx bs => (takeField sz.bytes bs).andThen fun c bs => .ok (.indConst rx m c) bs
  | 14, r => withModifier (Modifier.ofConfig2 r) fun m =>
      (takeRegs bs).andThen fun p bs => (takeField 4 bs).andThen fun d bs => .ok (.regIdx p.1 p.2 m d) bs
  | 15, r => withModifier (Modifier.ofConfig2 r) fun m =>
      (takeRegs bs).andThen fun p bs => (takeField 4 bs).andThen fun d bs => .ok (.idxReg p.2 p.1 m d) bs
  | _, _ => .badWord

/-- The operand of a one-operand data instruction: modes 3, 5, 9, 13 (R90, R97, R98). -/
def takeOneOp (mode config : Nat) (bs : List Byte) : Parsed OneOp :=
  match mode, config with
  | 3, 1 => (takeReg bs).andThen fun rx bs => .ok (.reg rx) bs
  | 5, 0 => (takeField 4 bs).andThen fun a bs => .ok (.abs a) bs
  | 9, r => withModifier (Modifier.ofConfig1 r) fun m => (takeReg bs).andThen fun rx bs => .ok (.ind rx m) bs
  | 13, r => withModifier (Modifier.ofConfig1 r) fun m =>
      (takeReg bs).andThen fun rx bs => (takeField 4 bs).andThen fun d bs => .ok (.idx rx m d) bs
  | _, _ => .badWord

/-- The operand of PUSH: mode 2, or as a one-operand instruction (R98, R260). -/
def takePushOp (sz : Size) (mode config : Nat) (bs : List Byte) : Parsed PushOp :=
  match mode, config with
  | 2, 0 => (takeField sz.bytes bs).andThen fun c bs => .ok (.const c) bs
  | mode, config => (takeOneOp mode config bs).andThen fun o bs => .ok (.operand o) bs

/-! ### Instruction codes -/

/-- The classes of R98, each with what it needs to make the instruction. -/
inductive OpClass where
  | two (make : Size → TwoOp → Instr)
  | one (make : Size → OneOp → Instr)
  | push
  | extend (make : Reg → Instr)
  | implied (i : Instr)
  | branch (make : Size → Word → Instr)
  | jump (make : Word → Instr)
  | sysCall

/-- The instruction code table (R100); `$33`–`$3F` are not assigned. -/
def opClass : Nat → Option OpClass
  | 0x00 => some (.two .mov)
  | 0x01 => some (.one .clr)
  | 0x02 => some (.two .add)
  | 0x03 => some (.two .sub)
  | 0x04 => some (.two .adc)
  | 0x05 => some (.two .sbc)
  | 0x06 => some (.one .inc)
  | 0x07 => some (.one .dec)
  | 0x08 => some (.two .mul)
  | 0x09 => some (.two .div)
  | 0x0A => some (.two .and)
  | 0x0B => some (.two .or)
  | 0x0C => some (.two .xor)
  | 0x0D => some (.two .shl)
  | 0x0E => some (.two .shr)
  | 0x0F => some (.two .rol)
  | 0x10 => some (.two .ror)
  | 0x11 => some (.two .cmp)
  | 0x12 => some (.implied .sec)
  | 0x13 => some (.implied .clc)
  | 0x14 => some (.implied .sei)
  | 0x15 => some (.implied .cli)
  | 0x16 => some .push
  | 0x17 => some (.one .pop)
  | 0x18 => some (.implied .pusha)
  | 0x19 => some (.implied .popa)
  | 0x1A => some (.jump .jmp)
  | 0x1B => some (.jump .jsr)
  | 0x1C => some (.implied .rts)
  | 0x1D => some (.implied .rti)
  | 0x1E => some (.implied .brk)
  | 0x1F => some (.implied .nop)
  | 0x20 => some (.branch .bra)
  | 0x21 => some (.branch .beq)
  | 0x22 => some (.branch .bne)
  | 0x23 => some (.branch .bcc)
  | 0x24 => some (.branch .bcs)
  | 0x25 => some (.branch .bpl)
  | 0x26 => some (.branch .bmi)
  | 0x27 => some (.branch .bvc)
  | 0x28 => some (.branch .bvs)
  | 0x29 => some (.branch .blt)
  | 0x2A => some (.branch .bgt)
  | 0x2B => some (.branch .ble)
  | 0x2C => some (.branch .bge)
  | 0x2D => some (.implied .sev)
  | 0x2E => some (.implied .clv)
  | 0x2F => some (.implied .slp)
  | 0x30 => some (.extend .sxb)
  | 0x31 => some (.extend .sxw)
  | 0x32 => some .sysCall
  | _ => none

/-! ### The decoder -/

/-- The fields of an instruction word (R80). -/
structure Head where
  code : BitVec 6
  size : BitVec 2
  mode : BitVec 5
  config : BitVec 3
  deriving DecidableEq, Repr

/-- The fields of the word whose low byte is `lo` and whose high byte is `hi` (R80, R81). -/
def Head.ofBytes (lo hi : Byte) : Head :=
  { code := lo.extractLsb' 0 6, size := lo.extractLsb' 6 2, mode := hi.extractLsb' 0 5, config := hi.extractLsb' 5 3 }

/-- The two bytes of the word in memory order: `SSIIIIII`, then `RRRAAAAA` (R80, R81). -/
def Head.bytes (h : Head) : List Byte := [h.size ++ h.code, h.config ++ h.mode]

/-- The word uses a reserved or unassigned field value (R111). -/
def Head.illegal (h : Head) : Bool :=
  decide (0x32 < h.code.toNat) || decide (h.size.toNat = 3) || decide (18 < h.mode.toNat) || decide (h.config.toNat = 7)

/-- The instruction of class `cl` with this size, mode and configuration, read from the bytes after the word, where R97, R98
and R99 admit the combination. -/
def OpClass.take (sz : Size) (mode config : Nat) (bs : List Byte) : OpClass → Parsed Instr
  | .two make => (takeTwoOp sz mode config bs).andThen fun o bs => .ok (make sz o) bs
  | .one make => (takeOneOp mode config bs).andThen fun o bs => .ok (make sz o) bs
  | .push => (takePushOp sz mode config bs).andThen fun o bs => .ok (.push sz o) bs
  | .extend make =>
      if sz = .long ∧ mode = 3 ∧ config = 1 then (takeReg bs).andThen fun rx bs => .ok (make rx) bs else .badWord
  | .implied i => if sz = .long ∧ mode = 0 ∧ config = 0 then .ok i bs else .badWord
  | .branch make =>
      if mode = 16 ∧ config = 0 then (takeField sz.bytes bs).andThen fun d bs => .ok (make sz d) bs else .badWord
  | .jump make =>
      if sz = .long ∧ mode = 17 ∧ config = 0 then (takeField 4 bs).andThen fun a bs => .ok (make a) bs else .badWord
  | .sysCall =>
      if mode = 18 ∧ config = 0 then (takeField sz.bytes bs).andThen fun k bs => .ok (.sys sz k) bs else .badWord

/-- What decoding gives (R110): an instruction, the exception IllegalInstruction (R111), a word or a selector with no
meaning (R112, R86), or bytes that end before the instruction does. -/
inductive Decoded where
  | instr (i : Instr)
  | illegal
  | unspecifiedWord
  | unspecifiedSelector
  | short
  deriving DecidableEq, Repr

/-- What reading the bytes of an instruction means for its decoding. -/
def Parsed.toDecoded : Parsed Instr → Decoded
  | .ok i _ => .instr i
  | .badWord => .unspecifiedWord
  | .badSelector => .unspecifiedSelector
  | .short => .short

/-- Decode the bytes that stand after an instruction word with fields `h` (R110). -/
def Head.decode (h : Head) (bs : List Byte) : Decoded :=
  if h.illegal then .illegal
  else
    match opClass h.code.toNat, Size.ofField h.size with
    | some cl, some sz => (cl.take sz h.mode.toNat h.config.toNat bs).toDecoded
    | _, _ => .illegal

/-- Decode the instruction that the bytes start with, in the order of R110: the word alone first, then the selector, then
the fields; bytes past its end are not looked at. -/
def decode : List Byte → Decoded
  | lo :: hi :: bs => (Head.ofBytes lo hi).decode bs
  | _ => .short

/-! ### Length and encoding -/

/-- The length in bytes of an instruction, from its word alone (R91). -/
def Head.length (h : Head) (sz : Size) : Nat :=
  2 + (if h.config = 0 then 0 else 1)
    + (if h.mode.toNat ∈ [5, 6, 7, 8, 13, 14, 15, 17] then 4 else 0)
    + (if h.mode.toNat ∈ [1, 2, 8, 12, 16, 18] then sz.bytes else 0)

/-- The addressing mode code of a two-operand form (R83). -/
def TwoOp.mode : TwoOp → BitVec 5
  | .regConst _ _ => 1
  | .regReg _ _ => 4
  | .regAbs _ _ => 6
  | .absReg _ _ => 7
  | .absConst _ _ => 8
  | .regInd _ _ _ => 10
  | .indReg _ _ _ => 11
  | .indConst _ _ _ => 12
  | .regIdx _ _ _ _ => 14
  | .idxReg _ _ _ _ => 15

/-- The register configuration of a two-operand form (R84, R97). -/
def TwoOp.config : TwoOp → BitVec 3
  | .regConst _ _ => 1
  | .regReg _ _ => 2
  | .regAbs _ _ => 1
  | .absReg _ _ => 1
  | .absConst _ _ => 0
  | .regInd _ _ m => m.config2
  | .indReg _ _ m => m.config2
  | .indConst _ m _ => m.config1
  | .regIdx _ _ m _ => m.config2
  | .idxReg _ _ m _ => m.config2

/-- The addressing mode code of a one-operand form (R83). -/
def OneOp.mode : OneOp → BitVec 5
  | .reg _ => 3
  | .abs _ => 5
  | .ind _ _ => 9
  | .idx _ _ _ => 13

/-- The register configuration of a one-operand form (R84, R97). -/
def OneOp.config : OneOp → BitVec 3
  | .reg _ => 1
  | .abs _ => 0
  | .ind _ m => m.config1
  | .idx _ m _ => m.config1

/-- The addressing mode code of a PUSH form (R83). -/
def PushOp.mode : PushOp → BitVec 5
  | .const _ => 2
  | .operand o => o.mode

/-- The register configuration of a PUSH form (R84, R97). -/
def PushOp.config : PushOp → BitVec 3
  | .const _ => 0
  | .operand o => o.config

/-- A field of `k` bytes in memory order (R88, `BYTE_ORDER`). -/
def fieldBytes : Nat → Word → List Byte
  | 0, _ => []
  | k + 1, v => v.setWidth 8 :: fieldBytes k (v >>> 8)

/-- The selector of one register (R86). -/
def selector (rx : Reg) : Byte := 0#4 ++ rx.nibble

/-- The selector of two registers (R87). -/
def selectors (hi lo : Reg) : Byte := hi.nibble ++ lo.nibble

/-- The bytes after the word of a two-operand form, laid out as in R90. -/
def TwoOp.bytes (sz : Size) : TwoOp → List Byte
  | .regConst rx c => selector rx :: fieldBytes sz.bytes c
  | .regReg rx ry => [selectors rx ry]
  | .regAbs rx a => selector rx :: fieldBytes 4 a
  | .absReg a rx => selector rx :: fieldBytes 4 a
  | .absConst a c => fieldBytes 4 a ++ fieldBytes sz.bytes c
  | .regInd rx ry _ => [selectors rx ry]
  | .indReg rx ry _ => [selectors ry rx]
  | .indConst rx _ c => selector rx :: fieldBytes sz.bytes c
  | .regIdx rx ry _ d => selectors rx ry :: fieldBytes 4 d
  | .idxReg rx ry _ d => selectors ry rx :: fieldBytes 4 d

/-- The bytes after the word of a one-operand form, laid out as in R90. -/
def OneOp.bytes : OneOp → List Byte
  | .reg rx => [selector rx]
  | .abs a => fieldBytes 4 a
  | .ind rx _ => [selector rx]
  | .idx rx _ d => selector rx :: fieldBytes 4 d

/-- The bytes after the word of a PUSH form, laid out as in R90. -/
def PushOp.bytes (sz : Size) : PushOp → List Byte
  | .const c => fieldBytes sz.bytes c
  | .operand o => o.bytes

/-- The instruction code (R100). -/
def Instr.code : Instr → BitVec 6
  | .mov _ _ => 0x00
  | .clr _ _ => 0x01
  | .add _ _ => 0x02
  | .sub _ _ => 0x03
  | .adc _ _ => 0x04
  | .sbc _ _ => 0x05
  | .inc _ _ => 0x06
  | .dec _ _ => 0x07
  | .mul _ _ => 0x08
  | .div _ _ => 0x09
  | .and _ _ => 0x0A
  | .or _ _ => 0x0B
  | .xor _ _ => 0x0C
  | .shl _ _ => 0x0D
  | .shr _ _ => 0x0E
  | .rol _ _ => 0x0F
  | .ror _ _ => 0x10
  | .cmp _ _ => 0x11
  | .sec => 0x12
  | .clc => 0x13
  | .sei => 0x14
  | .cli => 0x15
  | .push _ _ => 0x16
  | .pop _ _ => 0x17
  | .pusha => 0x18
  | .popa => 0x19
  | .jmp _ => 0x1A
  | .jsr _ => 0x1B
  | .rts => 0x1C
  | .rti => 0x1D
  | .brk => 0x1E
  | .nop => 0x1F
  | .bra _ _ => 0x20
  | .beq _ _ => 0x21
  | .bne _ _ => 0x22
  | .bcc _ _ => 0x23
  | .bcs _ _ => 0x24
  | .bpl _ _ => 0x25
  | .bmi _ _ => 0x26
  | .bvc _ _ => 0x27
  | .bvs _ _ => 0x28
  | .blt _ _ => 0x29
  | .bgt _ _ => 0x2A
  | .ble _ _ => 0x2B
  | .bge _ _ => 0x2C
  | .sev => 0x2D
  | .clv => 0x2E
  | .slp => 0x2F
  | .sxb _ => 0x30
  | .sxw _ => 0x31
  | .sys _ _ => 0x32

/-- What an instruction carries besides its code: the operand size, the mode, the configuration and the bytes after the
word. -/
structure Shape where
  size : Size
  mode : BitVec 5
  config : BitVec 3
  bytes : List Byte
  deriving DecidableEq, Repr

/-- The shape of a two-operand form. -/
def TwoOp.shape (sz : Size) (o : TwoOp) : Shape := ⟨sz, o.mode, o.config, o.bytes sz⟩

/-- The shape of a one-operand form. -/
def OneOp.shape (sz : Size) (o : OneOp) : Shape := ⟨sz, o.mode, o.config, o.bytes⟩

/-- The shape of a PUSH form. -/
def PushOp.shape (sz : Size) (o : PushOp) : Shape := ⟨sz, o.mode, o.config, o.bytes sz⟩

/-- Mode 0 with `S = 00` (R98, R99). -/
def Shape.implied : Shape := ⟨.long, 0, 0, []⟩

/-- Mode 16 (R98). -/
def Shape.branch (sz : Size) (offset : Word) : Shape := ⟨sz, 16, 0, fieldBytes sz.bytes offset⟩

/-- Mode 17 with `S = 00` (R98, R99). -/
def Shape.jump (addr : Word) : Shape := ⟨.long, 17, 0, fieldBytes 4 addr⟩

/-- Mode 3 with `S = 00`, the form of SXB and SXW (R98, R99). -/
def Shape.extend (rx : Reg) : Shape := ⟨.long, 3, 1, [selector rx]⟩

/-- The shape of an instruction (R90, R98). -/
def Instr.shape : Instr → Shape
  | .mov sz o => o.shape sz
  | .clr sz o => o.shape sz
  | .add sz o => o.shape sz
  | .sub sz o => o.shape sz
  | .adc sz o => o.shape sz
  | .sbc sz o => o.shape sz
  | .inc sz o => o.shape sz
  | .dec sz o => o.shape sz
  | .mul sz o => o.shape sz
  | .div sz o => o.shape sz
  | .and sz o => o.shape sz
  | .or sz o => o.shape sz
  | .xor sz o => o.shape sz
  | .shl sz o => o.shape sz
  | .shr sz o => o.shape sz
  | .rol sz o => o.shape sz
  | .ror sz o => o.shape sz
  | .cmp sz o => o.shape sz
  | .sec => .implied
  | .clc => .implied
  | .sei => .implied
  | .cli => .implied
  | .push sz o => o.shape sz
  | .pop sz o => o.shape sz
  | .pusha => .implied
  | .popa => .implied
  | .jmp a => .jump a
  | .jsr a => .jump a
  | .rts => .implied
  | .rti => .implied
  | .brk => .implied
  | .nop => .implied
  | .bra sz d => .branch sz d
  | .beq sz d => .branch sz d
  | .bne sz d => .branch sz d
  | .bcc sz d => .branch sz d
  | .bcs sz d => .branch sz d
  | .bpl sz d => .branch sz d
  | .bmi sz d => .branch sz d
  | .bvc sz d => .branch sz d
  | .bvs sz d => .branch sz d
  | .blt sz d => .branch sz d
  | .bgt sz d => .branch sz d
  | .ble sz d => .branch sz d
  | .bge sz d => .branch sz d
  | .sev => .implied
  | .clv => .implied
  | .slp => .implied
  | .sxb rx => .extend rx
  | .sxw rx => .extend rx
  | .sys sz k => ⟨sz, 18, 0, fieldBytes sz.bytes k⟩

/-- The fields of the instruction's word (R80). -/
def Instr.head (i : Instr) : Head :=
  { code := i.code, size := i.shape.size.field, mode := i.shape.mode, config := i.shape.config }

/-- The length `L` of an instruction in bytes (R91). -/
def Instr.length (i : Instr) : Nat := i.head.length i.shape.size

/-- The bytes of a well-formed instruction in memory order: word, selector, fields (R89, R90). -/
def encode (i : Instr) : List Byte := i.head.bytes ++ i.shape.bytes

/-! ### The host's view of one table row -/

/-- The bytes in memory order of an instruction whose first `nbits` bits are those of `w` (bit 0 the least significant bit
of the first byte) and whose further bits are 0, up to the longest instruction. -/
def tableBytes (nbits w : Nat) : List Byte :=
  (List.range Config.longestInstruction).map fun k => BitVec.ofNat 8 ((w % 2 ^ nbits) >>> (8 * k))

/-- The instruction the decoder reads from an instruction whose bits are `w`. -/
def decodeTableWord (nbits w : Nat) : Option Instr :=
  match decode (tableBytes nbits w) with
  | .instr i => some i
  | .illegal => none
  | .unspecifiedWord => none
  | .unspecifiedSelector => none
  | .short => none

end Sys2Proof
end

