-- ==== Sys2Proof/Machine/Memory.lean ====
section
/-! DEFINITION. Memory as a list of cells in one canonical form, and the little-endian accesses of R52. -/

namespace Sys2Proof.Machine

/-- The bytes of the address space (R50) that differ from `Config.unlistedByte`, as (address, byte) pairs. -/
abbrev Memory := List Host.Cell

/-- The canonical form: addresses below `2^32` and strictly rising, and no entry that an unlisted address would read the
same as. -/
def Memory.wf (m : Memory) : Bool :=
  decide (m.Pairwise fun c d => c.1 < d.1)
    && m.all fun c => decide (c.1 < Config.addressSpace) && decide (c.2 ≠ Config.unlistedByte)

/-- The byte at address `a`: the latest write to it, or what an unlisted byte reads as (R65). -/
def Memory.read (m : Memory) (a : Nat) : Byte :=
  match m with
  | [] => Config.unlistedByte
  | (k, b) :: rest => if k = a then b else Memory.read rest a

/-- Put an entry before the first entry with a higher address. -/
def Memory.insertCell (m : Memory) (a : Nat) (b : Byte) : Memory :=
  match m with
  | [] => [(a, b)]
  | (k, c) :: rest => if a < k then (a, b) :: (k, c) :: rest else (k, c) :: Memory.insertCell rest a b

/-- Write one byte, keeping the canonical form. -/
def Memory.write (m : Memory) (a : Nat) (b : Byte) : Memory :=
  let others := m.filter fun c => decide (c.1 ≠ a)
  if b = Config.unlistedByte then others else Memory.insertCell others a b

/-- The value of the `k` bytes at `a`, the lowest address the least significant byte (R52), addresses wrapping (R55). -/
def Memory.readLE (m : Memory) (a : Word) (k : Nat) : Nat :=
  match k with
  | 0 => 0
  | k + 1 => (Memory.read m a.toNat).toNat + 256 * Memory.readLE m (a + 1) k

/-- Store the low `k` bytes of `v` at `a`, the lowest address the least significant byte (R52), addresses wrapping (R55). -/
def Memory.writeLE (m : Memory) (a : Word) (k : Nat) (v : Nat) : Memory :=
  match k with
  | 0 => m
  | k + 1 => Memory.writeLE (Memory.write m a.toNat (BitVec.ofNat 8 v)) (a + 1) k (v / 256)

/-- Write bytes in order, those whose address `ok` accepts. -/
def Memory.writeWhere (ok : Word → Bool) (m : Memory) : List (Word × Byte) → Memory
  | [] => m
  | (a, b) :: rest => Memory.writeWhere ok (if ok a then Memory.write m a.toNat b else m) rest

end Sys2Proof.Machine
end

