-- ==== Sys2Proof/Machine/State.lean ====
section
/-! DEFINITION. The state of the machine as plain data, why a step can stop, and the state after reset. -/

namespace Sys2Proof.Machine

/-- The sixteen 32-bit registers (R20–R24). -/
structure Regs where
  r0 : Word
  r1 : Word
  r2 : Word
  r3 : Word
  r4 : Word
  r5 : Word
  r6 : Word
  r7 : Word
  r8 : Word
  r9 : Word
  r10 : Word
  r11 : Word
  r12 : Word
  r13 : Word
  sp : Word
  pc : Word
  deriving DecidableEq, Repr

/-- The five flags of the status register `P` (R25, R26). Its bits 7:5 have no function, so `P` is five booleans (R27). -/
structure Status where
  /-- interrupt disable -/
  i : Bool
  /-- overflow -/
  v : Bool
  /-- carry -/
  c : Bool
  /-- negative -/
  n : Bool
  /-- zero -/
  z : Bool
  deriving DecidableEq, Repr

/-- The causes of a trap (R300). -/
inductive Cause where
  | illegalInstruction
  | illegalAddress
  | divisionByZero
  | irq
  | softwareIrq
  | nmi
  deriving DecidableEq, Repr

/-- A range of byte addresses that exist, `base`, …, `base + size - 1`, backed by memory or by a device (R58, R63). -/
structure Region where
  base : Nat
  size : Nat
  /-- The bytes belong to a device. -/
  device : Bool
  deriving DecidableEq, Repr

/-- What the environment supplies at one recognition point: the two request inputs, and the draws of the device reads of the step
that starts there (R63; log 7). A step reads no byte twice under one of the three lists, so every read of a device's byte is a draw of
its own. -/
structure Request where
  /-- `NmiRequest` (R311, R314) -/
  nmi : Bool
  /-- `IrqRequest` (R310, R314) -/
  irq : Bool
  /-- What devices answer to the instruction fetch. -/
  fetchDraws : List (Word × Byte)
  /-- What devices answer to the reads of the instruction's own accesses, and show from then on. -/
  dataDraws : List (Word × Byte)
  /-- What devices answer to the vector read of a trap entry. -/
  vectorDraws : List (Word × Byte)
  deriving DecidableEq, Repr

/-- No request, and no new draw. -/
def Request.none : Request := { nmi := false, irq := false, fetchDraws := [], dataDraws := [], vectorDraws := [] }

/-- What the platform's `SysCall` does with one call (R284; log 6): the bytes it reads, the bytes it stores, and the registers, flags
and `sleeping` the machine goes on with. The one exception it can raise is IllegalAddress, by reading or storing a byte that does not exist
(R56, R57, R302): the decoder, DIV and BRK alone raise the others (R301, R304, R306). -/
structure SysAnswer where
  reads : List Word
  stores : List (Word × Byte)
  regs : Regs
  p : Status
  sleeping : Bool
  deriving DecidableEq, Repr

/-- Everything the spec gives the machine (`10_state.md` section 1), and five lists that hold the platform's parameters as
plain data (log 4, log 5, log 6, log 7). -/
structure State where
  /-- `R0`–`R13`, `SP`, `PC` (R20). -/
  regs : Regs
  /-- The status register `P` (R25). -/
  p : Status
  /-- Set by SLP; while it holds, no instruction is fetched (R30, R335). -/
  sleeping : Bool
  /-- Set when a trap entry or a reset meets a byte that does not exist (R30, R324). -/
  halted : Bool
  /-- The one address space (R50). -/
  mem : Memory
  /-- The parameter `Exists` (R58): an address exists when some range holds it; and which addresses are a device's (R63). No
  step changes it (log 4, log 7). -/
  present : List Region
  /-- The inputs `IrqRequest` and `NmiRequest` at the coming recognition points, the next one first, and what devices answer in
  the step that starts there; past the end of the list there is no request and no new draw (R314, R63; log 5, log 7). -/
  requests : List Request
  /-- What devices answer to the instruction fetch of the current step (`DeviceRead`, R63; log 7). -/
  fetchDraws : List (Word × Byte)
  /-- What devices answer to the vector read of a trap entry in the current step (`DeviceRead`, R63; log 7). -/
  vectorDraws : List (Word × Byte)
  /-- The parameter `SysCall` (R284): what the platform does with the coming calls, the next one first; past the end of the list
  it answers no call, the default (log 6). -/
  calls : List SysAnswer
  deriving DecidableEq, Repr

/-- Why the machine stops with a fault. -/
inductive Fault where
  /-- Raised by `step` when `halted` is set: the core makes no further step (R324, U6). Safe: the spec calls it a fault of
  the run. -/
  | halted
  deriving DecidableEq, Repr

/-- Why a step has no meaning in the model. -/
inductive Refusal where
  /-- Raised by `exec` alone, for an instruction without a meaning; none is left. Safe: the model stops. -/
  | notModelled (mnemonic : String)
  /-- Raised by `step` on an instruction word whose fields are all assigned and whose combination is not admitted (R112,
  U2: "refuse"). Safe: the model stops where the spec gives no meaning. -/
  | unspecifiedWord
  /-- Raised by `step` on a one-register selector with a non-zero high nibble (R86, R112). Safe: the model stops where the
  spec gives no meaning. -/
  | unspecifiedSelector
  /-- Raised by SYS with call number `number` where the platform supplies no answer (`calls` has run out): the default of the
  open parameter `SysCall` is to refuse (R284, U4). Safe: the model stops where the spec gives no meaning. -/
  | sysCall (number : Word)
  deriving DecidableEq, Repr

/-- Every register at the value the model names for reset; `SP` and `PC` are then loaded from the vectors (R33). -/
def Regs.reset : Regs :=
  { r0 := Config.resetRegister, r1 := Config.resetRegister, r2 := Config.resetRegister, r3 := Config.resetRegister,
    r4 := Config.resetRegister, r5 := Config.resetRegister, r6 := Config.resetRegister, r7 := Config.resetRegister,
    r8 := Config.resetRegister, r9 := Config.resetRegister, r10 := Config.resetRegister, r11 := Config.resetRegister,
    r12 := Config.resetRegister, r13 := Config.resetRegister,
    sp := BitVec.ofNat 32 (Memory.readLE [] 4 4), pc := BitVec.ofNat 32 (Memory.readLE [] 0 4) }

/-- Every flag at the value the model names for reset (R33; log 2). -/
def Status.reset : Status :=
  { i := Config.resetFlag, v := Config.resetFlag, c := Config.resetFlag, n := Config.resetFlag, z := Config.resetFlag }

/-- The machine right after reset (R33, R350): `PC` and `SP` from the vectors at `$0000` and `$0004`, awake, running. With
nothing listed in memory both vectors read as 0 (log 3); the whole address space exists (log 4), no byte of it a device's (log 7);
no request comes (log 5) and no system call is answered (log 6). -/
def State.reset : State :=
  { regs := Regs.reset
    p := Status.reset
    sleeping := false
    halted := false
    mem := []
    present := [{ base := 0, size := Config.addressSpace, device := false }]
    requests := []
    fetchDraws := []
    vectorDraws := []
    calls := [] }

end Sys2Proof.Machine
end

