-- ==== Sys2Proof/Machine/Ops.lean ====
section
/-! DEFINITION. The named operations over registers, memory and the stack; taking an exception and returning from one. -/

namespace Sys2Proof.Machine

/-! ### Registers -/

/-- `x[i]` (R21). -/
def Regs.get (x : Regs) : Reg → Word
  | .r0 => x.r0
  | .r1 => x.r1
  | .r2 => x.r2
  | .r3 => x.r3
  | .r4 => x.r4
  | .r5 => x.r5
  | .r6 => x.r6
  | .r7 => x.r7
  | .r8 => x.r8
  | .r9 => x.r9
  | .r10 => x.r10
  | .r11 => x.r11
  | .r12 => x.r12
  | .r13 => x.r13
  | .sp => x.sp
  | .pc => x.pc

/-- `x[i] <- v` (R21). -/
def Regs.set (x : Regs) (i : Reg) (v : Word) : Regs :=
  match i with
  | .r0 => { x with r0 := v }
  | .r1 => { x with r1 := v }
  | .r2 => { x with r2 := v }
  | .r3 => { x with r3 := v }
  | .r4 => { x with r4 := v }
  | .r5 => { x with r5 := v }
  | .r6 => { x with r6 := v }
  | .r7 => { x with r7 := v }
  | .r8 => { x with r8 := v }
  | .r9 => { x with r9 := v }
  | .r10 => { x with r10 := v }
  | .r11 => { x with r11 := v }
  | .r12 => { x with r12 := v }
  | .r13 => { x with r13 := v }
  | .sp => { x with sp := v }
  | .pc => { x with pc := v }

/-- `x[i]` of the state (R10). -/
def State.reg (s : State) (i : Reg) : Word := s.regs.get i

/-- `x[i] <- v` on the state (R10). None of the sixteen is hardwired (R22–R24). -/
def State.setReg (s : State) (i : Reg) (v : Word) : State := { s with regs := s.regs.set i v }

/-- The program counter, register number 15 (R23). -/
def State.pc (s : State) : Word := s.reg .pc

/-- The stack pointer, register number 14 (R24). -/
def State.sp (s : State) : Word := s.reg .sp

/-- `pc <- v` (R10). -/
def State.setPc (s : State) (v : Word) : State := s.setReg .pc v

/-- `SP <- v` (R10). -/
def State.setSp (s : State) (v : Word) : State := s.setReg .sp v

/-- Replace the whole status register. -/
def State.setStatus (s : State) (p : Status) : State := { s with p := p }

/-- Replace the memory. -/
def State.setMem (s : State) (m : Memory) : State := { s with mem := m }

/-- `sleeping <- b` (R30). -/
def State.setSleeping (s : State) (b : Bool) : State := { s with sleeping := b }

/-- Replace the list of coming answers to SYS. -/
def State.setCalls (s : State) (calls : List SysAnswer) : State := { s with calls := calls }

/-- `halted <- 1` (R324). -/
def State.halt (s : State) : State := { s with halted := true }

/-! ### The status register as a byte -/

/-- The byte `000IVCNZ` that is stored for `P` (R25, R27). -/
def Status.toByte (p : Status) : Byte :=
  0#3 ++ BitVec.ofBool p.i ++ BitVec.ofBool p.v ++ BitVec.ofBool p.c ++ BitVec.ofBool p.n ++ BitVec.ofBool p.z

/-- The flags a loaded byte gives; its bits 7:5 are discarded (R27, R282). -/
def Status.ofByte (b : Byte) : Status :=
  { i := b.getLsbD 4, v := b.getLsbD 3, c := b.getLsbD 2, n := b.getLsbD 1, z := b.getLsbD 0 }

/-! ### Memory -/

/-- The address of the vector of a cause (R59, R300); the base is fixed at 0. -/
def Cause.vector : Cause → Word
  | .illegalInstruction => 0x08
  | .illegalAddress => 0x0C
  | .divisionByZero => 0x10
  | .irq => 0x14
  | .softwareIrq => 0x18
  | .nmi => 0x1C

/-- The range holds the address. -/
def Region.holds (r : Region) (a : Nat) : Bool := decide (r.base ≤ a) && decide (a < r.base + r.size)

/-- `Exists(a)` (R58). -/
def State.exists? (s : State) (a : Word) : Bool := s.present.any fun r => r.holds a.toNat

/-- The byte at this address belongs to a device (R63). -/
def State.isDevice (s : State) (a : Word) : Bool := s.present.any fun r => r.device && r.holds a.toNat

/-- Every byte of an access of `k` bytes at `a` exists (R56, R57), addresses wrapping (R55). -/
def State.allExist (s : State) (a : Word) (k : Nat) : Bool :=
  match k with
  | 0 => true
  | k + 1 => s.exists? a && State.allExist s (a + 1) k

/-- The state as seen by a read that devices answer with these bytes (`DeviceRead`, R63; log 7). A byte that is no device's, or that
the list does not give, is as it was. -/
def State.withDraws (s : State) (draws : List (Word × Byte)) : State := s.setMem (Memory.writeWhere s.isDevice s.mem draws)

/-- The state as the instruction fetch sees it. -/
def State.fetchView (s : State) : State := s.withDraws s.fetchDraws

/-- The state as the vector read of a trap entry sees it. -/
def State.vectorView (s : State) : State := s.withDraws s.vectorDraws

/-- `MemRead(a, nb)` (R56): every byte exists and is read, or nothing is read and IllegalAddress is raised. -/
def memRead (s : State) (a : Word) (sz : Size) : Except Cause (BitVec sz.bits) :=
  if s.allExist a sz.bytes then .ok (BitVec.ofNat sz.bits (s.mem.readLE a sz.bytes)) else .error .illegalAddress

/-- `MemWrite(a, nb, v)` (R57): every byte exists and is written, or nothing is written and IllegalAddress is raised. -/
def memWrite (s : State) (a : Word) (sz : Size) (v : BitVec sz.bits) : Except Cause State :=
  if s.allExist a sz.bytes then .ok (s.setMem (s.mem.writeLE a sz.bytes v.toNat)) else .error .illegalAddress

/-! ### The stack: full descending (R24, `STACK`) -/

/-- The number of bytes of an operand as a register increment (R135). -/
def sizeStep (sz : Size) : Word := BitVec.ofNat 32 sz.bytes

/-- `Push(nb, v)` (R24): the stack pointer moves down, then the value is stored there. -/
def push (s : State) (sz : Size) (v : BitVec sz.bits) : Except Cause State :=
  memWrite (s.setSp (s.sp - sizeStep sz)) (s.sp - sizeStep sz) sz v

/-- `Pop(nb)` (R24): the value at the stack pointer is read, then the stack pointer moves up. -/
def pop (s : State) (sz : Size) : Except Cause (BitVec sz.bits × State) := do
  let v ← memRead s s.sp sz
  .ok (v, s.setSp (s.sp + sizeStep sz))

/-- `Push(1, P)`: the meaning of PUSHS (R264) and a step of trap entry (R320). -/
def pushStatus (s : State) : Except Cause State := push s .byte s.p.toByte

/-- `Pop(1)` into the flags: the meaning of POPS (R265) and a step of RTI (R282). -/
def popStatus (s : State) : Except Cause State := do
  let r ← pop s .byte
  .ok (r.2.setStatus (Status.ofByte r.1))

/-! ### Taking an exception and returning from one -/

/-- The steps of trap entry, each of which can meet a byte that does not exist (R320): push the return PC, push `P`, load
`pc` from the vector, wake. Nothing else changes (R322). Where the vector is a device's, its read is a draw of its own (R63). -/
def enterTrap (cause : Cause) (retpc : Word) (s : State) : Except Cause State := do
  let s1 ← push s .long retpc
  let s2 ← pushStatus s1
  let target ← memRead s2.vectorView cause.vector .long
  .ok ((s2.setPc target).setSleeping false)

/-- `TrapEntry(cause, retpc)` (R320). A fault inside it halts the core in the state before the failed entry (R324). -/
def trapEntry (cause : Cause) (retpc : Word) (s : State) : State :=
  match enterTrap cause retpc s with
  | .ok t => t
  | .error _ => s.halt

/-- Return from a trap (R282, R325): pop the status byte into `P`, then the return PC into `pc`. -/
def returnFromTrap (s : State) : Except Cause State := do
  let s1 ← popStatus s
  let r ← pop s1 .long
  .ok (r.2.setPc r.1)

/-! ### One instruction as a whole -/

/-- `pc <- pc0 + L`: what the instruction sees while it executes (R23, R130). -/
def advance (len : Nat) (s : State) : State := s.setPc (s.pc + BitVec.ofNat 32 len)

/-- Execute an instruction of `len` bytes that starts at `pc` (R130): its body runs with `pc` past the instruction; if the body
raises, no change of it is kept and the trap is entered from the starting state with `retpc = pc0 + L` (R144, R303, R321). -/
def execute (len : Nat) (body : State → Except Cause State) (s : State) : Host.Outcome State Fault Refusal :=
  match body (advance len s) with
  | .ok t => .next t
  | .error cause => .next (trapEntry cause (s.pc + BitVec.ofNat 32 len) s)

/-! ### Reset -/

/-- The reset sequence (R350) run on a platform's memory and existence map: `pc` from `$0000`, then `SP` from `$0004`, awake,
running; a vector that does not exist halts the core. `R0`–`R13` and `P` are unspecified: they are whatever `s` holds. -/
def resetSequence (s : State) : State :=
  let s0 : State := { s with sleeping := false, halted := false }
  match (do
    let pc ← memRead s0 0 .long
    let sp ← memRead s0 4 .long
    .ok ((s0.setPc pc).setSp sp) : Except Cause State) with
  | .ok t => t
  | .error _ => s0.halt

end Sys2Proof.Machine
end

