-- ==== Sys2Proof/Machine/Operands.lean ====
section
/-! DEFINITION. How an operand of each addressing mode is read and written, and the order of events inside a data
instruction (`40_operands.md`). -/

namespace Sys2Proof.Machine

/-! ### Register operands -/

/-- `RegRead_n(i)`: the low `n` bits of the register (R137). -/
def regRead (s : State) (sz : Size) (i : Reg) : BitVec sz.bits := (s.reg i).setWidth sz.bits

/-- The word `old[31:n] ++ v` (R138). -/
def mergeLow {n : Nat} (old : Word) (v : BitVec n) : Word := ((old >>> n) <<< n) ||| v.setWidth 32

/-- `RegWrite_n(i, v)`: the low `n` bits of the register are replaced, the rest is kept (R138). -/
def regWrite (s : State) (sz : Size) (i : Reg) (v : BitVec sz.bits) : State := s.setReg i (mergeLow (s.reg i) v)

/-! ### Operands -/

/-- What one operand names (R83). -/
inductive Operand where
  /-- `const` -/
  | const (c : Word)
  /-- `Rx` -/
  | reg (rx : Reg)
  /-- `[Address]` -/
  | abs (addr : Word)
  /-- `[Rx]` -/
  | ind (ptr : Reg)
  /-- `[Rx + const]` -/
  | idx (ptr : Reg) (disp : Word)
  deriving DecidableEq, Repr

/-- An operand once its effective address is formed. -/
inductive Place where
  | const (c : Word)
  | reg (rx : Reg)
  | mem (ea : Word)
  deriving DecidableEq, Repr

/-- Form the effective address from the registers as they are (R136). -/
def Operand.place (s : State) : Operand → Place
  | .const c => .const c
  | .reg rx => .reg rx
  | .abs addr => .mem addr
  | .ind ptr => .mem (s.reg ptr)
  | .idx ptr disp => .mem (s.reg ptr + disp)

/-- Read a place at the operand size (R131, R136, R137). -/
def readPlace (s : State) (sz : Size) : Place → Except Cause (BitVec sz.bits)
  | .const c => .ok (c.setWidth sz.bits)
  | .reg rx => .ok (regRead s sz rx)
  | .mem ea => memRead s ea sz

/-- Write a place at the operand size (R136, R138). A constant is never a destination (R90). -/
def writePlace (s : State) (sz : Size) (v : BitVec sz.bits) : Place → Except Cause State
  | .const _ => .ok s
  | .reg rx => .ok (regWrite s sz rx v)
  | .mem ea => memWrite s ea sz v

end Sys2Proof.Machine

namespace Sys2Proof

/-- The destination of a two-operand form (R90). -/
def TwoOp.dst : TwoOp → Machine.Operand
  | .regConst rx _ => .reg rx
  | .regReg rx _ => .reg rx
  | .regAbs rx _ => .reg rx
  | .absReg a _ => .abs a
  | .absConst a _ => .abs a
  | .regInd rx _ _ => .reg rx
  | .indReg rx _ _ => .ind rx
  | .indConst rx _ _ => .ind rx
  | .regIdx rx _ _ _ => .reg rx
  | .idxReg rx _ _ d => .idx rx d

/-- The source of a two-operand form (R90). -/
def TwoOp.src : TwoOp → Machine.Operand
  | .regConst _ c => .const c
  | .regReg _ ry => .reg ry
  | .regAbs _ a => .abs a
  | .absReg _ rx => .reg rx
  | .absConst _ c => .const c
  | .regInd _ ry _ => .ind ry
  | .indReg _ ry _ => .reg ry
  | .indConst _ _ c => .const c
  | .regIdx _ ry _ d => .idx ry d
  | .idxReg _ ry _ _ => .reg ry

/-- The pointer register of a two-operand form and its modifier (R90). -/
def TwoOp.pointer : TwoOp → Option (Reg × Modifier)
  | .regConst _ _ => none
  | .regReg _ _ => none
  | .regAbs _ _ => none
  | .absReg _ _ => none
  | .absConst _ _ => none
  | .regInd _ ry m => some (ry, m)
  | .indReg rx _ m => some (rx, m)
  | .indConst rx m _ => some (rx, m)
  | .regIdx _ ry m _ => some (ry, m)
  | .idxReg rx _ m _ => some (rx, m)

/-- The sole operand of a one-operand form (R90). -/
def OneOp.operand : OneOp → Machine.Operand
  | .reg rx => .reg rx
  | .abs a => .abs a
  | .ind rx _ => .ind rx
  | .idx rx _ d => .idx rx d

/-- The pointer register of a one-operand form and its modifier (R90). -/
def OneOp.pointer : OneOp → Option (Reg × Modifier)
  | .reg _ => none
  | .abs _ => none
  | .ind rx m => some (rx, m)
  | .idx rx m _ => some (rx, m)

/-- The operand PUSH reads (R260). -/
def PushOp.source : PushOp → Machine.Operand
  | .const c => .const c
  | .operand o => o.operand

/-- The pointer register of a PUSH form and its modifier (R260). -/
def PushOp.pointer : PushOp → Option (Reg × Modifier)
  | .const _ => none
  | .operand o => o.pointer

end Sys2Proof

namespace Sys2Proof.Machine

/-! ### Post-increment and pre-decrement -/

/-- Step 1 of R140: `[..]-` moves the pointer down by `nb` before anything else (R133, R135). -/
def preDecrement (sz : Size) (ptr : Option (Reg × Modifier)) (s : State) : State :=
  match ptr with
  | some (i, .preDec) => s.setReg i (s.reg i - sizeStep sz)
  | some (_, .plain) => s
  | some (_, .postInc) => s
  | none => s

/-- Step 8 of R140: `[..]+` moves the pointer up by `nb` after everything else (R134, R135). -/
def postIncrement (sz : Size) (ptr : Option (Reg × Modifier)) (s : State) : State :=
  match ptr with
  | some (i, .postInc) => s.setReg i (s.reg i + sizeStep sz)
  | some (_, .plain) => s
  | some (_, .preDec) => s
  | none => s

/-! ### The order of events in a data instruction -/

/-- Step 5 of R140: the result and the new flags from the destination's value, the source's value and the flags. -/
abbrev Alu := (n : Nat) → BitVec n → BitVec n → Status → Except Cause (BitVec n × Status)

/-- What an instruction does with its destination (R148). -/
inductive DstUse where
  /-- MOV, CLR: written, not read -/
  | write
  /-- read, then written -/
  | modify
  /-- CMP: read, not written -/
  | examine
  deriving DecidableEq, Repr

/-- Step 4 of R140: the destination's value, where the instruction reads it (R148). -/
def readDst (s : State) (sz : Size) (use : DstUse) (dst : Place) : Except Cause (BitVec sz.bits) :=
  match use with
  | .write => .ok 0
  | .modify => readPlace s sz dst
  | .examine => readPlace s sz dst

/-- Step 6 of R140: the destination's write, where the instruction writes it (R148). -/
def writeDst (s : State) (sz : Size) (use : DstUse) (v : BitVec sz.bits) (dst : Place) : Except Cause State :=
  match use with
  | .write => writePlace s sz v dst
  | .modify => writePlace s sz v dst
  | .examine => .ok s

/-- Steps 3 to 8 of R140, after the pre-decrement and with the operands' places known. -/
def runPlaces (sz : Size) (ptr : Option (Reg × Modifier)) (src dst : Place) (use : DstUse) (alu : Alu) (s : State) :
    Except Cause State := do
  let b ← readPlace s sz src
  let a ← readDst s sz use dst
  let r ← alu sz.bits a b s.p
  let t ← writeDst s sz use r.1 dst
  .ok (postIncrement sz ptr (t.setStatus r.2))

/-- The two-operand template (R140, R142). -/
def runTwo (sz : Size) (o : TwoOp) (use : DstUse) (alu : Alu) (s : State) : Except Cause State :=
  let s1 := preDecrement sz o.pointer s
  runPlaces sz o.pointer (o.src.place s1) (o.dst.place s1) use alu s1

/-- The one-operand template (R140, R143): no source, so the source's value is a constant nothing looks at. -/
def runOne (sz : Size) (o : OneOp) (use : DstUse) (alu : Alu) (s : State) : Except Cause State :=
  let s1 := preDecrement sz o.pointer s
  runPlaces sz o.pointer (.const 0) (o.operand.place s1) use alu s1

end Sys2Proof.Machine
end

