-- ==== Sys2Proof/Machine/Flags.lean ====
section
/-! DEFINITION. The flag helpers of R145–R147, the flag policy of R150 (`FlagPolicy`), and the branch conditions. -/

namespace Sys2Proof.Machine

/-- `SetNZ_n(r)` (R145). -/
def setNZ {n : Nat} (p : Status) (r : BitVec n) : Status := { p with n := r.msb, z := decide (r = 0) }

/-- What an addition or subtraction gives (R146, R147). -/
structure Sum (n : Nat) where
  result : BitVec n
  carry : Bool
  overflow : Bool
  deriving DecidableEq, Repr

/-- `AddC_n(a, b, cin)` (R146). -/
def addC {n : Nat} (a b : BitVec n) (cin : Bool) : Sum n :=
  let s := a.toNat + b.toNat + cin.toNat
  let r := BitVec.ofNat n s
  { result := r, carry := decide (2 ^ n ≤ s), overflow := decide (a.msb = b.msb) && decide (r.msb ≠ a.msb) }

/-- `SubB_n(a, b, bin)` (R147); the carry means "no borrow" (`CARRY_SUB`). -/
def subB {n : Nat} (a b : BitVec n) (bin : Bool) : Sum n :=
  let d : Int := (a.toNat : Int) - (b.toNat : Int) - (bin.toNat : Int)
  let r := BitVec.ofInt n d
  { result := r, carry := decide (0 ≤ d), overflow := decide (a.msb ≠ b.msb) && decide (r.msb ≠ a.msb) }

/-- The flag row "ADD, ADC" and "SUB, SBC, CMP" of R150: `Z`, `N` from the result, `C` and `V` from the sum. -/
def sumFlags {n : Nat} (p : Status) (x : Sum n) : Status := { setNZ p x.result with c := x.carry, v := x.overflow }

/-- An instruction that cannot raise at step 5 and sets only `N` and `Z` from its result (R150). -/
def nzResult {n : Nat} (p : Status) (r : BitVec n) : Except Cause (BitVec n × Status) := .ok (r, setNZ p r)

/-- An addition or subtraction as step 5 of R140. -/
def sumResult {n : Nat} (p : Status) (x : Sum n) : Except Cause (BitVec n × Status) := .ok (x.result, sumFlags p x)

/-- What a shift or rotate gives: the result, and the last bit moved out where the count is not 0 (R193–R196). -/
structure Shifted (n : Nat) where
  result : BitVec n
  carry : Option Bool
  deriving DecidableEq, Repr

/-- The flag row "SHL, SHR, ROL, ROR" of R150: `C` is the last bit moved out, unchanged when the count is 0. -/
def shiftFlags {n : Nat} (p : Status) (x : Shifted n) : Status := { setNZ p x.result with c := x.carry.getD p.c }

/-- A shift or rotate as step 5 of R140. -/
def shiftResult {n : Nat} (p : Status) (x : Shifted n) : Except Cause (BitVec n × Status) := .ok (x.result, shiftFlags p x)

/-- `sext_32(v)` of the low `n` bits of a word (R9). -/
def sextLow (n : Nat) (w : Word) : Word := (w.setWidth n).signExtend 32

/-! ### The conditions of the branches (R234–R246) -/

/-- BRA: always (R234). -/
def condAlways (_ : Status) : Bool := true

/-- BEQ: `Z = 1` (R235). -/
def condEq (p : Status) : Bool := p.z

/-- BNE: `Z = 0` (R236). -/
def condNe (p : Status) : Bool := !p.z

/-- BCC: `C = 0` (R237). -/
def condCc (p : Status) : Bool := !p.c

/-- BCS: `C = 1` (R238). -/
def condCs (p : Status) : Bool := p.c

/-- BPL: `N = 0` (R239). -/
def condPl (p : Status) : Bool := !p.n

/-- BMI: `N = 1` (R240). -/
def condMi (p : Status) : Bool := p.n

/-- BVC: `V = 0` (R241). -/
def condVc (p : Status) : Bool := !p.v

/-- BVS: `V = 1` (R242). -/
def condVs (p : Status) : Bool := p.v

/-- BLT: `N ≠ V` (R243). -/
def condLt (p : Status) : Bool := p.n != p.v

/-- BGT: `Z = 0` and `N = V` (R244). -/
def condGt (p : Status) : Bool := !p.z && p.n == p.v

/-- BLE: `Z = 1` or `N ≠ V` (R245). -/
def condLe (p : Status) : Bool := p.z || p.n != p.v

/-- BGE: `N = V` (R246). -/
def condGe (p : Status) : Bool := p.n == p.v

end Sys2Proof.Machine
end

