-- ==== Sys2Proof/Machine/Arithmetic.lean ====
section
/-! DEFINITION. ADD, SUB, ADC, SBC, INC, DEC, MUL, DIV (`42_arithmetic.md`). -/

namespace Sys2Proof.Machine

/-- ADD: `dst + src` (R170). -/
def aluAdd : Alu := fun _ a b p => sumResult p (addC a b false)

/-- ADD (R170). -/
def execAdd (sz : Size) (o : TwoOp) (s : State) : Host.Outcome State Fault Refusal :=
  execute (Instr.add sz o).length (runTwo sz o .modify aluAdd) s

/-- SUB: `dst - src` (R171). -/
def aluSub : Alu := fun _ a b p => sumResult p (subB a b false)

/-- SUB (R171). -/
def execSub (sz : Size) (o : TwoOp) (s : State) : Host.Outcome State Fault Refusal :=
  execute (Instr.sub sz o).length (runTwo sz o .modify aluSub) s

/-- ADC: `dst + src + C` (R172). -/
def aluAdc : Alu := fun _ a b p => sumResult p (addC a b p.c)

/-- ADC (R172). -/
def execAdc (sz : Size) (o : TwoOp) (s : State) : Host.Outcome State Fault Refusal :=
  execute (Instr.adc sz o).length (runTwo sz o .modify aluAdc) s

/-- SBC: `dst - src - (1 - C)` (R173). -/
def aluSbc : Alu := fun _ a b p => sumResult p (subB a b (!p.c))

/-- SBC (R173). -/
def execSbc (sz : Size) (o : TwoOp) (s : State) : Host.Outcome State Fault Refusal :=
  execute (Instr.sbc sz o).length (runTwo sz o .modify aluSbc) s

/-- INC: `a + 1`, whatever the size (R174). -/
def aluInc : Alu := fun _ a _ p => nzResult p (a + 1)

/-- INC (R174). -/
def execInc (sz : Size) (o : OneOp) (s : State) : Host.Outcome State Fault Refusal :=
  execute (Instr.inc sz o).length (runOne sz o .modify aluInc) s

/-- DEC: `a - 1`, whatever the size (R175). -/
def aluDec : Alu := fun _ a _ p => nzResult p (a - 1)

/-- DEC (R175). -/
def execDec (sz : Size) (o : OneOp) (s : State) : Host.Outcome State Fault Refusal :=
  execute (Instr.dec sz o).length (runOne sz o .modify aluDec) s

/-- MUL: the low `n` bits of the product (R176). -/
def aluMul : Alu := fun _ a b p => nzResult p (a * b)

/-- MUL (R176). -/
def execMul (sz : Size) (o : TwoOp) (s : State) : Host.Outcome State Fault Refusal :=
  execute (Instr.mul sz o).length (runTwo sz o .modify aluMul) s

/-- The quotient of DIV: unsigned, rounded towards zero (R177, `Div_n`). -/
def divQuotient {n : Nat} (a b : BitVec n) : BitVec n := BitVec.ofNat n (a.toNat / b.toNat)

/-- DIV: the quotient; a zero divisor raises DivisionByZero (R177). -/
def aluDiv : Alu := fun _ a b p => if b = 0 then .error .divisionByZero else nzResult p (divQuotient a b)

/-- DIV (R177). -/
def execDiv (sz : Size) (o : TwoOp) (s : State) : Host.Outcome State Fault Refusal :=
  execute (Instr.div sz o).length (runTwo sz o .modify aluDiv) s

end Sys2Proof.Machine
end

