-- ==== Sys2Proof/Machine/Compare.lean ====
section
/-! DEFINITION. CMP and the flag instructions SEC, CLC, SEV, CLV, SEI, CLI (`44_compare_flags.md`). -/

namespace Sys2Proof.Machine

/-- CMP: the flags of `dst - src`; the difference is discarded (R210). -/
def aluCmp : Alu := fun _ a b p => sumResult p (subB a b false)

/-- CMP (R210). -/
def execCmp (sz : Size) (o : TwoOp) (s : State) : Host.Outcome State Fault Refusal :=
  execute (Instr.cmp sz o).length (runTwo sz o .examine aluCmp) s

/-- SEC: `P.C <- 1` (R211). -/
def execSec (s : State) : Host.Outcome State Fault Refusal :=
  execute Instr.sec.length (fun s => .ok (s.setStatus { s.p with c := true })) s

/-- CLC: `P.C <- 0` (R212). -/
def execClc (s : State) : Host.Outcome State Fault Refusal :=
  execute Instr.clc.length (fun s => .ok (s.setStatus { s.p with c := false })) s

/-- SEV: `P.V <- 1` (R213). -/
def execSev (s : State) : Host.Outcome State Fault Refusal :=
  execute Instr.sev.length (fun s => .ok (s.setStatus { s.p with v := true })) s

/-- CLV: `P.V <- 0` (R214). -/
def execClv (s : State) : Host.Outcome State Fault Refusal :=
  execute Instr.clv.length (fun s => .ok (s.setStatus { s.p with v := false })) s

/-- SEI: `P.I <- 1` (R215). -/
def execSei (s : State) : Host.Outcome State Fault Refusal :=
  execute Instr.sei.length (fun s => .ok (s.setStatus { s.p with i := true })) s

/-- CLI: `P.I <- 0` (R216). -/
def execCli (s : State) : Host.Outcome State Fault Refusal :=
  execute Instr.cli.length (fun s => .ok (s.setStatus { s.p with i := false })) s

end Sys2Proof.Machine
end

