-- ==== Sys2Proof/Machine/Control.lean ====
section
/-! DEFINITION. JMP, JSR, RTS and the thirteen branches (`45_control.md`). -/

namespace Sys2Proof.Machine

/-- JMP: `pc <- addr` (R230). -/
def execJmp (addr : Word) (s : State) : Host.Outcome State Fault Refusal :=
  execute (Instr.jmp addr).length (fun s => .ok (s.setPc addr)) s

/-- JSR: push the address of the next instruction, then `pc <- addr` (R231). -/
def callTo (addr : Word) (s : State) : Except Cause State := do
  let t ← push s .long s.pc
  .ok (t.setPc addr)

/-- JSR (R231). -/
def execJsr (addr : Word) (s : State) : Host.Outcome State Fault Refusal :=
  execute (Instr.jsr addr).length (callTo addr) s

/-- RTS: `pc <- Pop(4)` (R232). -/
def returnFromCall (s : State) : Except Cause State := do
  let r ← pop s .long
  .ok (r.2.setPc r.1)

/-- RTS (R232). -/
def execRts (s : State) : Host.Outcome State Fault Refusal := execute Instr.rts.length returnFromCall s

/-- The common rule of the branches: if the condition holds, `pc` moves by the sign-extended offset from the address of the
next instruction (R233, R94). -/
def branchIf (cond : Status → Bool) (sz : Size) (offset : Word) (s : State) : State :=
  if cond s.p then s.setPc (s.pc + sextLow sz.bits offset) else s

/-- BRA (R234). -/
def execBra (sz : Size) (offset : Word) (s : State) : Host.Outcome State Fault Refusal :=
  execute (Instr.bra sz offset).length (fun s => .ok (branchIf condAlways sz offset s)) s

/-- BEQ (R235). -/
def execBeq (sz : Size) (offset : Word) (s : State) : Host.Outcome State Fault Refusal :=
  execute (Instr.beq sz offset).length (fun s => .ok (branchIf condEq sz offset s)) s

/-- BNE (R236). -/
def execBne (sz : Size) (offset : Word) (s : State) : Host.Outcome State Fault Refusal :=
  execute (Instr.bne sz offset).length (fun s => .ok (branchIf condNe sz offset s)) s

/-- BCC (R237). -/
def execBcc (sz : Size) (offset : Word) (s : State) : Host.Outcome State Fault Refusal :=
  execute (Instr.bcc sz offset).length (fun s => .ok (branchIf condCc sz offset s)) s

/-- BCS (R238). -/
def execBcs (sz : Size) (offset : Word) (s : State) : Host.Outcome State Fault Refusal :=
  execute (Instr.bcs sz offset).length (fun s => .ok (branchIf condCs sz offset s)) s

/-- BPL (R239). -/
def execBpl (sz : Size) (offset : Word) (s : State) : Host.Outcome State Fault Refusal :=
  execute (Instr.bpl sz offset).length (fun s => .ok (branchIf condPl sz offset s)) s

/-- BMI (R240). -/
def execBmi (sz : Size) (offset : Word) (s : State) : Host.Outcome State Fault Refusal :=
  execute (Instr.bmi sz offset).length (fun s => .ok (branchIf condMi sz offset s)) s

/-- BVC (R241). -/
def execBvc (sz : Size) (offset : Word) (s : State) : Host.Outcome State Fault Refusal :=
  execute (Instr.bvc sz offset).length (fun s => .ok (branchIf condVc sz offset s)) s

/-- BVS (R242). -/
def execBvs (sz : Size) (offset : Word) (s : State) : Host.Outcome State Fault Refusal :=
  execute (Instr.bvs sz offset).length (fun s => .ok (branchIf condVs sz offset s)) s

/-- BLT (R243). -/
def execBlt (sz : Size) (offset : Word) (s : State) : Host.Outcome State Fault Refusal :=
  execute (Instr.blt sz offset).length (fun s => .ok (branchIf condLt sz offset s)) s

/-- BGT (R244). -/
def execBgt (sz : Size) (offset : Word) (s : State) : Host.Outcome State Fault Refusal :=
  execute (Instr.bgt sz offset).length (fun s => .ok (branchIf condGt sz offset s)) s

/-- BLE (R245). -/
def execBle (sz : Size) (offset : Word) (s : State) : Host.Outcome State Fault Refusal :=
  execute (Instr.ble sz offset).length (fun s => .ok (branchIf condLe sz offset s)) s

/-- BGE (R246). -/
def execBge (sz : Size) (offset : Word) (s : State) : Host.Outcome State Fault Refusal :=
  execute (Instr.bge sz offset).length (fun s => .ok (branchIf condGe sz offset s)) s

end Sys2Proof.Machine
end

