-- ==== Sys2Proof/Machine/Logic.lean ====
section
/-! DEFINITION. AND, OR, XOR, SHL, SHR, ROL, ROR (`43_logic_shift.md`). -/

namespace Sys2Proof.Machine

/-- AND: bit by bit (R190). -/
def aluAnd : Alu := fun _ a b p => nzResult p (a &&& b)

/-- AND (R190). -/
def execAnd (sz : Size) (o : TwoOp) (s : State) : Host.Outcome State Fault Refusal :=
  execute (Instr.and sz o).length (runTwo sz o .modify aluAnd) s

/-- OR: bit by bit (R191). -/
def aluOr : Alu := fun _ a b p => nzResult p (a ||| b)

/-- OR (R191). -/
def execOr (sz : Size) (o : TwoOp) (s : State) : Host.Outcome State Fault Refusal :=
  execute (Instr.or sz o).length (runTwo sz o .modify aluOr) s

/-- XOR: bit by bit (R192). -/
def aluXor : Alu := fun _ a b p => nzResult p (a ^^^ b)

/-- XOR (R192). -/
def execXor (sz : Size) (o : TwoOp) (s : State) : Host.Outcome State Fault Refusal :=
  execute (Instr.xor sz o).length (runTwo sz o .modify aluXor) s

/-- Logical shift left by the unsigned count `b`, which is not masked (R193). -/
def shiftLeft {n : Nat} (a b : BitVec n) : Shifted n :=
  let c := b.toNat
  if c = 0 then { result := a, carry := none }
  else if c ≤ n then { result := a <<< c, carry := some (a.getLsbD (n - c)) }
  else { result := 0, carry := some false }

/-- Logical shift right by the unsigned count `b`, which is not masked (R194). -/
def shiftRight {n : Nat} (a b : BitVec n) : Shifted n :=
  let c := b.toNat
  if c = 0 then { result := a, carry := none }
  else if c ≤ n then { result := a >>> c, carry := some (a.getLsbD (c - 1)) }
  else { result := 0, carry := some false }

/-- Rotation left of `n` bits by the unsigned count `b`; the carry is a copy of the bit that went round last (R195). -/
def rotateLeft {n : Nat} (a b : BitVec n) : Shifted n :=
  let c := b.toNat
  let k := c % n
  let r := (a <<< k) ||| (a >>> (n - k))
  if c = 0 then { result := a, carry := none } else { result := r, carry := some (r.getLsbD 0) }

/-- Rotation right of `n` bits by the unsigned count `b`; the carry is a copy of the bit that went round last (R196). -/
def rotateRight {n : Nat} (a b : BitVec n) : Shifted n :=
  let c := b.toNat
  let k := c % n
  let r := (a >>> k) ||| (a <<< (n - k))
  if c = 0 then { result := a, carry := none } else { result := r, carry := some (r.getLsbD (n - 1)) }

/-- SHL: `dst` holds the value, `src` the count (R193). -/
def aluShl : Alu := fun _ a b p => shiftResult p (shiftLeft a b)

/-- SHL (R193). -/
def execShl (sz : Size) (o : TwoOp) (s : State) : Host.Outcome State Fault Refusal :=
  execute (Instr.shl sz o).length (runTwo sz o .modify aluShl) s

/-- SHR: `dst` holds the value, `src` the count (R194). -/
def aluShr : Alu := fun _ a b p => shiftResult p (shiftRight a b)

/-- SHR (R194). -/
def execShr (sz : Size) (o : TwoOp) (s : State) : Host.Outcome State Fault Refusal :=
  execute (Instr.shr sz o).length (runTwo sz o .modify aluShr) s

/-- ROL: `dst` holds the value, `src` the count (R195). -/
def aluRol : Alu := fun _ a b p => shiftResult p (rotateLeft a b)

/-- ROL (R195). -/
def execRol (sz : Size) (o : TwoOp) (s : State) : Host.Outcome State Fault Refusal :=
  execute (Instr.rol sz o).length (runTwo sz o .modify aluRol) s

/-- ROR: `dst` holds the value, `src` the count (R196). -/
def aluRor : Alu := fun _ a b p => shiftResult p (rotateRight a b)

/-- ROR (R196). -/
def execRor (sz : Size) (o : TwoOp) (s : State) : Host.Outcome State Fault Refusal :=
  execute (Instr.ror sz o).length (runTwo sz o .modify aluRor) s

end Sys2Proof.Machine
end

