-- ==== Sys2Proof/Machine/Move.lean ====
section
/-! DEFINITION. MOV, CLR, SXB, SXW (`41_move.md`). -/

namespace Sys2Proof.Machine

/-- MOV: the result is the source (R160). -/
def aluMov : Alu := fun _ _ b p => nzResult p b

/-- MOV (R160). -/
def execMov (sz : Size) (o : TwoOp) (s : State) : Host.Outcome State Fault Refusal :=
  execute (Instr.mov sz o).length (runTwo sz o .write aluMov) s

/-- CLR: the result is 0 (R161). -/
def aluClr : Alu := fun _ _ _ p => nzResult p 0

/-- CLR (R161). -/
def execClr (sz : Size) (o : OneOp) (s : State) : Host.Outcome State Fault Refusal :=
  execute (Instr.clr sz o).length (runOne sz o .write aluClr) s

/-- Sign-extend the low `n` bits of a register to 32 and set `N`, `Z` from the 32-bit result (R162, R163). -/
def extendReg (n : Nat) (rx : Reg) (s : State) : State :=
  let r := sextLow n (s.reg rx)
  (s.setReg rx r).setStatus (setNZ s.p r)

/-- SXB (R162). -/
def execSxb (rx : Reg) (s : State) : Host.Outcome State Fault Refusal :=
  execute (Instr.sxb rx).length (fun s => .ok (extendReg 8 rx s)) s

/-- SXW (R163). -/
def execSxw (rx : Reg) (s : State) : Host.Outcome State Fault Refusal :=
  execute (Instr.sxw rx).length (fun s => .ok (extendReg 16 rx s)) s

end Sys2Proof.Machine
end

