-- ==== Sys2Proof/Machine/Stack.lean ====
section
/-! DEFINITION. PUSH, POP, PUSHA, POPA (`46_stack.md`). PUSHS and POPS have no code; their meanings are `pushStatus` and `popStatus`. -/

namespace Sys2Proof.Machine

/-- PUSH: the operand is read, then `nb` bytes are pushed (R260). -/
def pushOperand (sz : Size) (o : PushOp) (s : State) : Except Cause State := do
  let s1 := preDecrement sz o.pointer s
  let v ← readPlace s1 sz (o.source.place s1)
  let t ← push s1 sz v
  .ok (postIncrement sz o.pointer t)

/-- PUSH (R260). -/
def execPush (sz : Size) (o : PushOp) (s : State) : Host.Outcome State Fault Refusal :=
  execute (Instr.push sz o).length (pushOperand sz o) s

/-- POP: the effective address is formed, then `nb` bytes are popped, then they are written to the operand (R261). -/
def popOperand (sz : Size) (o : OneOp) (s : State) : Except Cause State := do
  let s1 := preDecrement sz o.pointer s
  let dst := o.operand.place s1
  let r ← pop s1 sz
  let t ← writePlace r.2 sz r.1 dst
  .ok (postIncrement sz o.pointer (t.setStatus (setNZ t.p r.1)))

/-- POP (R261). -/
def execPop (sz : Size) (o : OneOp) (s : State) : Host.Outcome State Fault Refusal :=
  execute (Instr.pop sz o).length (popOperand sz o) s

/-- `R0`, …, `R13` in ascending order (R262). -/
def generalRegs : List Reg := [.r0, .r1, .r2, .r3, .r4, .r5, .r6, .r7, .r8, .r9, .r10, .r11, .r12, .r13]

/-- Push each register of the list, the first one first (R262). -/
def pushRegs : List Reg → State → Except Cause State
  | [], s => .ok s
  | i :: is, s => do
    let t ← push s .long (s.reg i)
    pushRegs is t

/-- Pop each register of the list, the first one first (R263). -/
def popRegs : List Reg → State → Except Cause State
  | [], s => .ok s
  | i :: is, s => do
    let r ← pop s .long
    popRegs is (r.2.setReg i r.1)

/-- PUSHA: `R0` first, `R13` last (R262). -/
def execPusha (s : State) : Host.Outcome State Fault Refusal := execute Instr.pusha.length (pushRegs generalRegs) s

/-- POPA: `R13` first, `R0` last (R263). -/
def execPopa (s : State) : Host.Outcome State Fault Refusal := execute Instr.popa.length (popRegs generalRegs.reverse) s

end Sys2Proof.Machine
end

