-- ==== Sys2Proof/Machine/System.lean ====
section
/-! DEFINITION. NOP, BRK, RTI, SLP, SYS (`47_system.md`). -/

namespace Sys2Proof.Machine

/-- NOP: nothing but the program counter changes (R280). -/
def execNop (s : State) : Host.Outcome State Fault Refusal := execute Instr.nop.length (fun s => .ok s) s

/-- BRK: the trap SoftwareIRQ is taken with `retpc = pc0 + 2`, whatever `I` is (R281, R306). -/
def execBrk (s : State) : Host.Outcome State Fault Refusal :=
  let s1 := advance Instr.brk.length s
  .next (trapEntry .softwareIrq s1.pc s1)

/-- RTI: the status byte, then the return PC, are popped (R282). -/
def execRti (s : State) : Host.Outcome State Fault Refusal := execute Instr.rti.length returnFromTrap s

/-- SLP: `sleeping <- 1`, with `pc` after the instruction (R283). -/
def execSlp (s : State) : Host.Outcome State Fault Refusal :=
  execute Instr.slp.length (fun s => .ok (s.setSleeping true)) s

/-- The addresses a call reads or stores to. -/
def SysAnswer.touched (answer : SysAnswer) : List Word := answer.reads ++ answer.stores.map Prod.fst

/-- What an answer of `SysCall` does, from the state with `pc` past the instruction (R284): its effect, or IllegalAddress where a byte it
reads or stores does not exist (R56, R57). -/
def answerCall (answer : SysAnswer) (s : State) : Except Cause State :=
  if answer.touched.all s.exists? then
    .ok { s with regs := answer.regs, p := answer.p, sleeping := answer.sleeping,
                 mem := Memory.writeWhere (fun _ => true) s.mem answer.stores }
  else .error .illegalAddress

/-- SYS: the effect is the open parameter `SysCall`, the next of `calls`; where the platform answers no call, the default is to
refuse (R284, U4; log 6). -/
def execSys (sz : Size) (number : Word) (s : State) : Host.Outcome State Fault Refusal :=
  match s.calls with
  | [] => .refused (.sysCall number)
  | answer :: rest => execute (Instr.sys sz number).length (answerCall answer) (s.setCalls rest)

end Sys2Proof.Machine
end

