-- ==== Sys2Proof/Machine/Dispatch.lean ====
section
/-! DEFINITION. The meaning of each instruction, one arm per constructor, in the order of the code table (R100). -/

namespace Sys2Proof.Machine

def exec (i : Instr) (s : State) : Host.Outcome State Fault Refusal :=
  match i with
  | .mov sz o => Sys2Proof.Machine.execMov sz o s
  | .clr sz o => Sys2Proof.Machine.execClr sz o s
  | .add sz o => Sys2Proof.Machine.execAdd sz o s
  | .sub sz o => Sys2Proof.Machine.execSub sz o s
  | .adc sz o => Sys2Proof.Machine.execAdc sz o s
  | .sbc sz o => Sys2Proof.Machine.execSbc sz o s
  | .inc sz o => Sys2Proof.Machine.execInc sz o s
  | .dec sz o => Sys2Proof.Machine.execDec sz o s
  | .mul sz o => Sys2Proof.Machine.execMul sz o s
  | .div sz o => Sys2Proof.Machine.execDiv sz o s
  | .and sz o => Sys2Proof.Machine.execAnd sz o s
  | .or sz o => Sys2Proof.Machine.execOr sz o s
  | .xor sz o => Sys2Proof.Machine.execXor sz o s
  | .shl sz o => Sys2Proof.Machine.execShl sz o s
  | .shr sz o => Sys2Proof.Machine.execShr sz o s
  | .rol sz o => Sys2Proof.Machine.execRol sz o s
  | .ror sz o => Sys2Proof.Machine.execRor sz o s
  | .cmp sz o => Sys2Proof.Machine.execCmp sz o s
  | .sec => Sys2Proof.Machine.execSec s
  | .clc => Sys2Proof.Machine.execClc s
  | .sei => Sys2Proof.Machine.execSei s
  | .cli => Sys2Proof.Machine.execCli s
  | .push sz o => Sys2Proof.Machine.execPush sz o s
  | .pop sz o => Sys2Proof.Machine.execPop sz o s
  | .pusha => Sys2Proof.Machine.execPusha s
  | .popa => Sys2Proof.Machine.execPopa s
  | .jmp addr => Sys2Proof.Machine.execJmp addr s
  | .jsr addr => Sys2Proof.Machine.execJsr addr s
  | .rts => Sys2Proof.Machine.execRts s
  | .rti => Sys2Proof.Machine.execRti s
  | .brk => Sys2Proof.Machine.execBrk s
  | .nop => Sys2Proof.Machine.execNop s
  | .bra sz d => Sys2Proof.Machine.execBra sz d s
  | .beq sz d => Sys2Proof.Machine.execBeq sz d s
  | .bne sz d => Sys2Proof.Machine.execBne sz d s
  | .bcc sz d => Sys2Proof.Machine.execBcc sz d s
  | .bcs sz d => Sys2Proof.Machine.execBcs sz d s
  | .bpl sz d => Sys2Proof.Machine.execBpl sz d s
  | .bmi sz d => Sys2Proof.Machine.execBmi sz d s
  | .bvc sz d => Sys2Proof.Machine.execBvc sz d s
  | .bvs sz d => Sys2Proof.Machine.execBvs sz d s
  | .blt sz d => Sys2Proof.Machine.execBlt sz d s
  | .bgt sz d => Sys2Proof.Machine.execBgt sz d s
  | .ble sz d => Sys2Proof.Machine.execBle sz d s
  | .bge sz d => Sys2Proof.Machine.execBge sz d s
  | .sev => Sys2Proof.Machine.execSev s
  | .clv => Sys2Proof.Machine.execClv s
  | .slp => Sys2Proof.Machine.execSlp s
  | .sxb rx => Sys2Proof.Machine.execSxb rx s
  | .sxw rx => Sys2Proof.Machine.execSxw rx s
  | .sys sz k => Sys2Proof.Machine.execSys sz k s

end Sys2Proof.Machine
end

