-- ==== Sys2Proof/Machine/Fetch.lean ====
section
/-! DEFINITION. Fetching an instruction's bytes (R61, R110), and placing one where the next fetch finds it. -/

namespace Sys2Proof.Machine

/-- The bytes from address `a` up to the first that does not exist, at most `k` (R61: fetch may go byte by byte). -/
def fetchBytes (s : State) (a : Word) (k : Nat) : List Byte :=
  match k with
  | 0 => []
  | k + 1 => if s.exists? a then s.mem.read a.toNat :: fetchBytes s (a + 1) k else []

/-- Decode the instruction at `pc` (R110), where a device's bytes are draws of the fetch's own (R63). `short` means a byte that the
instruction needs does not exist. -/
def fetchDecode (s : State) : Decoded := decode (fetchBytes s.fetchView s.pc Config.longestInstruction)

/-- Store bytes at consecutive addresses, wrapping (R55). -/
def Memory.writeBytes (m : Memory) (a : Word) : List Byte → Memory
  | [] => m
  | b :: bs => Memory.writeBytes (Memory.write m a.toNat b) (a + 1) bs

/-- One-byte ranges for those of the `k` addresses from `a` that do not exist yet. -/
def missingRegions (s : State) (a : Word) (k : Nat) : List Region :=
  match k with
  | 0 => []
  | k + 1 => if s.exists? a then missingRegions s (a + 1) k else { base := a.toNat, size := 1, device := false } :: missingRegions s (a + 1) k

/-- The input list whose next entry asks for nothing and draws no byte that a fetch could see: the list itself where that already
holds. -/
def quietNext : List Request → List Request
  | [] => []
  | r :: rs => if r.nmi || r.irq || !r.fetchDraws.isEmpty || !r.dataDraws.isEmpty then Request.none :: r :: rs else r :: rs

/-- The state with the bytes placed at `pc`, existing, and with nothing in the way of fetching them next: awake, running, no
request at the coming recognition point (log 12). -/
def placeNext (s : State) (bs : List Byte) : State :=
  { s with
    mem := Memory.writeBytes s.mem s.pc bs
    present := missingRegions s s.pc bs.length ++ s.present
    sleeping := false
    halted := false
    requests := quietNext s.requests }

end Sys2Proof.Machine
end

