-- ==== Sys2Proof/Machine/Interrupts.lean ====
section
/-! DEFINITION. What the core does at a recognition point, between instructions (R130, R313, R315, R335). -/

namespace Sys2Proof.Machine

/-- The inputs at this recognition point; past the end of the list there is no request (R314). -/
def State.request (s : State) : Request := s.requests.headD Request.none

/-- The state once this recognition point's inputs have been looked at: the core keeps no pending bit (R30, R314), and the step
that starts has its draws for the device bytes its fetch, its instruction and its trap entry read (R63, R65; log 7). -/
def State.sampled (s : State) : State :=
  { s.withDraws s.request.dataDraws with
    requests := s.requests.tail
    fetchDraws := s.request.fetchDraws
    vectorDraws := s.request.vectorDraws }

/-- What comes of a recognition point. -/
inductive Recognition where
  /-- an interrupt was entered, or the core woke or slept on: the step is over -/
  | over (t : State)
  /-- no interrupt is taken and the core is awake: one instruction runs -/
  | run (s : State)
  deriving DecidableEq, Repr

/-- Look at NMI before IRQ (R315); `I` masks the IRQ alone (R312). Asleep, only the wake-up of R335 is possible: a masked
IRQ request wakes the core without being taken. -/
def recognise (s : State) : Recognition :=
  let r := s.request
  let s1 := s.sampled
  if r.nmi then .over (trapEntry .nmi s1.pc s1)
  else if r.irq && !s1.p.i then .over (trapEntry .irq s1.pc s1)
  else if s1.sleeping then .over (s1.setSleeping (!r.irq))
  else .run s1

end Sys2Proof.Machine
end

