-- ==== Sys2Proof/Machine/Run.lean ====
section
/-! DEFINITION. One instruction from fetch to outcome (R130). -/

namespace Sys2Proof.Machine

/-- What the outcome of decoding at `pc` does (R130): an instruction executes; an illegal word traps with `retpc = pc0 + 2`
(R301); a fetch that meets a missing byte traps with `retpc = pc0` (R321); an encoding without a meaning is refused (R112). -/
def runDecoded (s : State) : Decoded → Host.Outcome State Fault Refusal
  | .instr i => exec i s
  | .illegal => .next (trapEntry .illegalInstruction (s.pc + 2) s)
  | .short => .next (trapEntry .illegalAddress s.pc s)
  | .unspecifiedWord => .refused .unspecifiedWord
  | .unspecifiedSelector => .refused .unspecifiedSelector

/-- What a recognition point's result does: the step is over, or one instruction runs (R130). -/
def afterRecognition : Recognition → Host.Outcome State Fault Refusal
  | .over t => .next t
  | .run s => runDecoded s (fetchDecode s)

end Sys2Proof.Machine
end

