-- ==== Sys2Proof/Machine/Step.lean ====
section
/-! DEFINITION. One step of the core (R130), and the host's way to place an instruction. -/

namespace Sys2Proof.Machine

/-- One step (R130): a halted core makes none (R324); else the recognition point, then at most one instruction. -/
def step (s : State) : Host.Outcome State Fault Refusal :=
  if s.halted then .fault .halted else afterRecognition (recognise s)

/-- `s` with the instruction whose bits are `w` stored at `pc`, so that the next step fetches and runs it (log 12). -/
def State.withFetchWord (s : State) (nbits w : Nat) : State := placeNext s (tableBytes nbits w)

end Sys2Proof.Machine
end

