-- ==== Sys2Proof/Safety.lean ====
section
/-! DEFINITION. The terms the claims use: which bytes exist, what a byte of memory reads as, what one state keeps of another,
what a data instruction leaves behind, and the invariant of the machine. -/

namespace Sys2Proof.Claims

open Sys2Proof.Machine

/-! ### Bytes -/

/-- The `k` bytes at `a`, addresses wrapping (R55), all exist (R58). -/
abbrev BytesExist (s : State) (a : Word) (k : Nat) : Prop := ∀ j, j < k → s.exists? (a + BitVec.ofNat 32 j) = true

/-- The byte at address `x`. -/
def byteAt (s : State) (x : Word) : Byte := s.mem.read x.toNat

/-- The `n`-bit little-endian value of the `n / 8` bytes at `a` (R52). -/
def valueAt (s : State) (n : Nat) (a : Word) : BitVec n := BitVec.ofNat n (s.mem.readLE a (n / 8))

/-- `x` is one of the `k` bytes at `a`, addresses wrapping (R55). -/
abbrev Within (a : Word) (k : Nat) (x : Word) : Prop := (x - a).toNat < k

/-- Every byte of memory reads as before. -/
def SameBytes (s t : State) : Prop := ∀ x, byteAt t x = byteAt s x

/-- The last byte that the list gives for address `x`; `old` where it gives none. -/
def lastByte (l : List (Word × Byte)) (x : Word) (old : Byte) : Byte := l.foldl (fun b c => if c.1 = x then c.2 else b) old

/-- The `k` bytes at `a` hold `v`, the lowest address its least significant byte (R52), and every other byte reads as
before. -/
def Stored {n : Nat} (s t : State) (a : Word) (k : Nat) (v : BitVec n) : Prop :=
  ∀ x, byteAt t x = if Within a k x then v.extractLsb' (8 * (x - a).toNat) 8 else byteAt s x

/-! ### What is kept -/

/-- The state beside registers, flags and memory is the same. -/
def SameRest (s t : State) : Prop :=
  t.sleeping = s.sleeping ∧ t.halted = s.halted ∧ t.present = s.present ∧ t.requests = s.requests ∧ t.calls = s.calls
    ∧ t.fetchDraws = s.fetchDraws ∧ t.vectorDraws = s.vectorDraws

/-- Every register but those named holds what it held. -/
def KeepsRegsBut (is : List Reg) (s t : State) : Prop := ∀ i, i ∉ is → t.reg i = s.reg i

/-! ### Operands -/

/-- The operand's bytes exist, where it is in memory. -/
def placeReady (s : State) (sz : Size) : Place → Bool
  | .const _ => true
  | .reg _ => true
  | .mem ea => decide (BytesExist s ea sz.bytes)

/-- The value an operand supplies at the operand size (R131, R137). -/
def placeValue (s : State) (sz : Size) : Place → BitVec sz.bits
  | .const c => c.setWidth sz.bits
  | .reg i => (s.reg i).setWidth sz.bits
  | .mem ea => valueAt s sz.bits ea

/-- The state in which the operands of an instruction of `len` bytes are looked at: `pc` past the instruction (R23), and the
pointer register down by `nb` where the form is `[..]-` (R133). -/
def operandState (len : Nat) (sz : Size) (ptr : Option (Reg × Modifier)) (s : State) : State :=
  preDecrement sz ptr (advance len s)

/-- What a register holds at the end, when it held `v` before the post-increment (R134). -/
def bumped (sz : Size) (ptr : Option (Reg × Modifier)) (i : Reg) (v : Word) : Word :=
  match ptr with
  | some (j, .postInc) => if i = j then v + sizeStep sz else v
  | some (_, .plain) => v
  | some (_, .preDec) => v
  | none => v

/-- What register `i` holds once `v` is written to the destination, from a state where it held `old`: the low `n` bits of a
register destination are replaced (R138), nothing else. -/
def afterWrite {n : Nat} (dst : Place) (v : BitVec n) (i : Reg) (old : Word) : Word :=
  match dst with
  | .reg d => if i = d then mergeLow old v else old
  | .mem _ => old
  | .const _ => old

/-- Memory once `v` is written to the destination: the bytes of a memory destination hold `v`, every other byte reads as
before; all of memory reads as before for a register destination. -/
def MemoryAfter {n : Nat} (dst : Place) (k : Nat) (v : BitVec n) (s t : State) : Prop :=
  match dst with
  | .mem ea => Stored s t ea k v
  | .reg _ => SameBytes s t
  | .const _ => SameBytes s t

/-- What a data instruction that writes its destination leaves (R140), from the state `s1` its operands are looked at in: the
flags `p`, the value `v` in the destination, the pointer after its post-increment, everything else as in `s1`. -/
def WritesResult (sz : Size) (ptr : Option (Reg × Modifier)) (dst : Place) (v : BitVec sz.bits) (p : Status) (s1 t : State) :
    Prop :=
  t.p = p ∧ SameRest s1 t ∧ (∀ i, t.reg i = bumped sz ptr i (afterWrite dst v i (s1.reg i)))
    ∧ MemoryAfter dst sz.bytes v s1 t

/-- What a data instruction that writes no destination leaves (CMP, R210). -/
def WritesFlagsOnly (sz : Size) (ptr : Option (Reg × Modifier)) (p : Status) (s1 t : State) : Prop :=
  t.p = p ∧ SameRest s1 t ∧ (∀ i, t.reg i = bumped sz ptr i (s1.reg i)) ∧ SameBytes s1 t

/-- `N` and `Z` from an `n`-bit result, the other flags kept (R145). -/
def nzFlags {n : Nat} (p : Status) (r : BitVec n) : Status := { p with n := r.getLsbD (n - 1), z := decide (r.toNat = 0) }

/-! ### Two-operand and one-operand instructions -/

/-- The state the operands of a two-operand instruction are looked at in. -/
def twoState (make : Size → TwoOp → Instr) (sz : Size) (o : TwoOp) (s : State) : State :=
  operandState (make sz o).length sz o.pointer s

/-- The source's value. -/
def twoSrc (make : Size → TwoOp → Instr) (sz : Size) (o : TwoOp) (s : State) : BitVec sz.bits :=
  placeValue (twoState make sz o s) sz (o.src.place (twoState make sz o s))

/-- The destination's old value. -/
def twoDst (make : Size → TwoOp → Instr) (sz : Size) (o : TwoOp) (s : State) : BitVec sz.bits :=
  placeValue (twoState make sz o s) sz (o.dst.place (twoState make sz o s))

/-- The memory operand's bytes exist, where the form has one. -/
def twoReady (make : Size → TwoOp → Instr) (sz : Size) (o : TwoOp) (s : State) : Bool :=
  placeReady (twoState make sz o s) sz (o.src.place (twoState make sz o s))
    && placeReady (twoState make sz o s) sz (o.dst.place (twoState make sz o s))

/-- The instruction completes in every form whose operands exist and that `guard` lets through, and leaves the result and the
flags that `f` gives for the destination's old value, the source's value and the flags. -/
def TwoComputes (make : Size → TwoOp → Instr) (guard : (sz : Size) → BitVec sz.bits → Prop)
    (f : (sz : Size) → BitVec sz.bits → BitVec sz.bits → Status → BitVec sz.bits × Status) : Prop :=
  ∀ (sz : Size) (o : TwoOp) (s : State), twoReady make sz o s = true → guard sz (twoSrc make sz o s) →
    ∃ t, exec (make sz o) s = .next t ∧
      WritesResult sz o.pointer (o.dst.place (twoState make sz o s)) (f sz (twoDst make sz o s) (twoSrc make sz o s) s.p).1
        (f sz (twoDst make sz o s) (twoSrc make sz o s) s.p).2 (twoState make sz o s) t

/-- No condition on the source's value. -/
def anySource (sz : Size) (_ : BitVec sz.bits) : Prop := True

/-- The state the operand of a one-operand instruction is looked at in. -/
def oneState (make : Size → OneOp → Instr) (sz : Size) (o : OneOp) (s : State) : State :=
  operandState (make sz o).length sz o.pointer s

/-- The operand's place. -/
def onePlace (make : Size → OneOp → Instr) (sz : Size) (o : OneOp) (s : State) : Place :=
  o.operand.place (oneState make sz o s)

/-- The operand's old value. -/
def oneValue (make : Size → OneOp → Instr) (sz : Size) (o : OneOp) (s : State) : BitVec sz.bits :=
  placeValue (oneState make sz o s) sz (onePlace make sz o s)

/-- The memory operand's bytes exist, where the form has one. -/
def oneReady (make : Size → OneOp → Instr) (sz : Size) (o : OneOp) (s : State) : Bool :=
  placeReady (oneState make sz o s) sz (onePlace make sz o s)

/-- The instruction completes in every form whose operand exists, and leaves the result that `f` gives for the operand's old
value, with `N` and `Z` from it. -/
def OneComputes (make : Size → OneOp → Instr) (f : (sz : Size) → BitVec sz.bits → BitVec sz.bits) : Prop :=
  ∀ (sz : Size) (o : OneOp) (s : State), oneReady make sz o s = true →
    ∃ t, exec (make sz o) s = .next t ∧
      WritesResult sz o.pointer (onePlace make sz o s) (f sz (oneValue make sz o s)) (nzFlags s.p (f sz (oneValue make sz o s)))
        (oneState make sz o s) t

/-- The fifteen two-operand instructions (R98). -/
def twoOperandInstrs : List (Size → TwoOp → Instr) :=
  [.mov, .add, .sub, .adc, .sbc, .mul, .div, .and, .or, .xor, .shl, .shr, .rol, .ror, .cmp]

/-- CLR, INC and DEC: the one-operand instructions that use no stack (R98). -/
def oneOperandInstrs : List (Size → OneOp → Instr) := [.clr, .inc, .dec]

/-- The trap an instruction that raises `cause` takes (R144, R303, R321): entered from the state the instruction started in, with
the address of the next instruction as the return PC. -/
def raises (cause : Cause) (i : Instr) (s : State) : Host.Outcome State Fault Refusal :=
  .next (trapEntry cause (s.pc + BitVec.ofNat 32 i.length) s)

/-- The thirteen branches with their conditions on the flags (R234–R246). -/
def branchInstrs : List ((Size → Word → Instr) × (Status → Bool)) :=
  [(.bra, fun _ => true), (.beq, fun p => p.z), (.bne, fun p => !p.z), (.bcc, fun p => !p.c), (.bcs, fun p => p.c),
   (.bpl, fun p => !p.n), (.bmi, fun p => p.n), (.bvc, fun p => !p.v), (.bvs, fun p => p.v),
   (.blt, fun p => decide (p.n ≠ p.v)), (.bgt, fun p => decide (p.z = false ∧ p.n = p.v)),
   (.ble, fun p => decide (p.z = true ∨ p.n ≠ p.v)), (.bge, fun p => decide (p.n = p.v))]

/-! ### Stack instructions -/

/-- The state the operand of PUSH is looked at in (R260). -/
def pushState (sz : Size) (o : PushOp) (s : State) : State := operandState (Instr.push sz o).length sz o.pointer s

/-- The value PUSH pushes. -/
def pushValue (sz : Size) (o : PushOp) (s : State) : BitVec sz.bits :=
  placeValue (pushState sz o s) sz (o.source.place (pushState sz o s))

/-- The address PUSH stores to: the stack pointer of the moment, down by `nb`. -/
def pushAddr (sz : Size) (o : PushOp) (s : State) : Word := (pushState sz o s).sp - sizeStep sz

/-- The operand of PUSH exists, where it is in memory, and so do the stack bytes. -/
def pushReady (sz : Size) (o : PushOp) (s : State) : Bool :=
  placeReady (pushState sz o s) sz (o.source.place (pushState sz o s)) && decide (BytesExist s (pushAddr sz o s) sz.bytes)

/-- The stack bytes exist that POP reads, and the operand it writes, where that is in memory. -/
def popReady (sz : Size) (o : OneOp) (s : State) : Bool :=
  oneReady .pop sz o s && decide (BytesExist s (oneState .pop sz o s).sp sz.bytes)

/-- The value POP pops. -/
def popValue (sz : Size) (o : OneOp) (s : State) : BitVec sz.bits :=
  valueAt (oneState .pop sz o s) sz.bits (oneState .pop sz o s).sp

/-- The mode code of a two-operand form, its destination and source as places, and its pointer. -/
def twoPlaces (s : State) (o : TwoOp) : BitVec 5 × Place × Place × Option (Reg × Modifier) :=
  (o.mode, o.dst.place s, o.src.place s, o.pointer)

/-- The mode code of a one-operand form, its operand as a place, and its pointer. -/
def onePlaces (s : State) (o : OneOp) : BitVec 5 × Place × Option (Reg × Modifier) := (o.mode, o.operand.place s, o.pointer)

/-- The mode code of a PUSH form, its operand as a place, and its pointer. -/
def pushPlaces (s : State) (o : PushOp) : BitVec 5 × Place × Option (Reg × Modifier) := (o.mode, o.source.place s, o.pointer)

/-- A register once `nb` bytes are popped. -/
def afterPop (sz : Size) (s1 : State) (i : Reg) : Word := if i = .sp then s1.sp + sizeStep sz else s1.reg i

/-- The stack bytes an instruction of no operand uses: the first address and how many (R231, R232, R262, R263, R282). -/
def stackSpan (s : State) : Instr → Option (Word × Nat)
  | .jsr _ => some (s.sp - 4, 4)
  | .rts => some (s.sp, 4)
  | .rti => some (s.sp, 5)
  | .pusha => some (s.sp - 56, 56)
  | .popa => some (s.sp, 56)
  | _ => none

/-! ### Sums -/

/-- The signed value lies outside the range of `n`-bit two's complement numbers. -/
def outOfRange (n : Nat) (v : Int) : Bool := decide (v < -(2 ^ (n - 1) : Int)) || decide ((2 ^ (n - 1) : Int) ≤ v)

/-- Result and flags of `a + b + cin` (R146): the sum modulo `2^n`; `C` when it does not fit `n` bits; `V` when the signed sum is
out of range. -/
def sumOf {n : Nat} (a b : BitVec n) (cin : Bool) (p : Status) : BitVec n × Status :=
  let r := BitVec.ofNat n (a.toNat + b.toNat + cin.toNat)
  (r, { nzFlags p r with
        c := decide (2 ^ n ≤ a.toNat + b.toNat + cin.toNat), v := outOfRange n (a.toInt + b.toInt + cin.toNat) })

/-- Result and flags of `a - b - bin` (R147): the difference modulo `2^n`; `C` when no borrow occurs; `V` when the signed
difference is out of range. -/
def differenceOf {n : Nat} (a b : BitVec n) (bin : Bool) (p : Status) : BitVec n × Status :=
  let r := BitVec.ofInt n (a.toNat - b.toNat - bin.toNat)
  (r, { nzFlags p r with
        c := decide (b.toNat + bin.toNat ≤ a.toNat), v := outOfRange n (a.toInt - b.toInt - bin.toNat) })

/-! ### Traps -/

/-- The vector addresses of R300. -/
def vectorAddress : Cause → Word
  | .illegalInstruction => 0x08
  | .illegalAddress => 0x0C
  | .divisionByZero => 0x10
  | .irq => 0x14
  | .softwareIrq => 0x18
  | .nmi => 0x1C

/-- The five stack bytes and the vector of a trap entry exist. -/
abbrev TrapReady (cause : Cause) (s : State) : Prop := BytesExist s (s.sp - 5) 5 ∧ BytesExist s (vectorAddress cause) 4

/-- What trap entry leaves (R320, R322). The vector is read after the pushes, as a read of its own: a device's byte of it is a draw
(R63). -/
def TrapEntered (cause : Cause) (retpc : Word) (s t : State) : Prop :=
  t.sp = s.sp - 5
    ∧ (∀ x, byteAt t x =
        if Within (s.sp - 4) 4 x then retpc.extractLsb' (8 * (x - (s.sp - 4)).toNat) 8
        else if x = s.sp - 5 then s.p.toByte else byteAt s x)
    ∧ t.pc = valueAt t.vectorView 32 (vectorAddress cause)
    ∧ KeepsRegsBut [.sp, .pc] s t
    ∧ t.p = s.p ∧ t.sleeping = false ∧ t.halted = s.halted ∧ t.present = s.present ∧ t.requests = s.requests ∧ t.calls = s.calls
    ∧ t.fetchDraws = s.fetchDraws ∧ t.vectorDraws = s.vectorDraws

/-! ### System calls -/

/-- Every byte the call reads or stores exists. -/
abbrev AnswerReady (s : State) (a : SysAnswer) : Prop :=
  (∀ x ∈ a.reads, s.exists? x = true) ∧ ∀ c ∈ a.stores, s.exists? c.1 = true

/-! ### Instruction words -/

/-- The word whose low byte is `lo` and high byte `hi` uses a reserved or unassigned field value (R111). -/
def reservedWord (lo hi : Byte) : Prop :=
  0x32 < lo.toNat % 64 ∨ lo.toNat / 64 = 3 ∨ 18 < hi.toNat % 32 ∨ hi.toNat / 32 = 7

/-- The mode and configuration of the two-operand forms (R97, R98). -/
def twoRows : List (Nat × Nat) :=
  [(1, 1), (4, 2), (6, 1), (7, 1), (8, 0), (10, 2), (10, 4), (10, 6), (11, 2), (11, 4), (11, 6), (12, 1), (12, 3), (12, 5),
   (14, 2), (14, 4), (14, 6), (15, 2), (15, 4), (15, 6)]

/-- The mode and configuration of the one-operand forms (R97, R98). -/
def oneRows : List (Nat × Nat) := [(3, 1), (5, 0), (9, 1), (9, 3), (9, 5), (13, 1), (13, 3), (13, 5)]

/-- The codes of the two-operand data instructions (R98, R100). -/
def twoCodes : List Nat := [0x00, 0x02, 0x03, 0x04, 0x05, 0x08, 0x09, 0x0A, 0x0B, 0x0C, 0x0D, 0x0E, 0x0F, 0x10, 0x11]

/-- The codes of the one-operand data instructions (R98, R100). -/
def oneCodes : List Nat := [0x01, 0x06, 0x07, 0x17]

/-- The codes of the implied instructions (R98, R100). -/
def impliedCodes : List Nat := [0x12, 0x13, 0x14, 0x15, 0x18, 0x19, 0x1C, 0x1D, 0x1E, 0x1F, 0x2D, 0x2E, 0x2F]

/-- The table of R98, with the configurations of R97 and the sizes of R99: code, mode, configuration and size field of an
admitted word. -/
def admitted (code mode config size : Nat) : Bool :=
  (twoCodes.contains code && twoRows.contains (mode, config))
    || (oneCodes.contains code && oneRows.contains (mode, config))
    || (code == 0x16 && ((mode, config) == (2, 0) || oneRows.contains (mode, config)))
    || ((code == 0x30 || code == 0x31) && (mode, config, size) == (3, 1, 0))
    || (impliedCodes.contains code && (mode, config, size) == (0, 0, 0))
    || (decide (0x20 ≤ code) && decide (code ≤ 0x2C) && (mode, config) == (16, 0))
    || ((code == 0x1A || code == 0x1B) && (mode, config, size) == (17, 0, 0))
    || (code == 0x32 && (mode, config) == (18, 0))

/-- The bytes of the instruction stand at `pc`, as the fetch sees memory, and exist. -/
abbrev HoldsAtPc (s : State) (i : Instr) : Prop :=
  ∀ j, j < (encode i).length →
    s.exists? (s.pc + BitVec.ofNat 32 j) = true ∧ byteAt s.fetchView (s.pc + BitVec.ofNat 32 j) = (encode i)[j]!

/-! ### Steps and flags -/

/-- At this recognition point no interrupt is taken and the core is awake: the step runs an instruction (R130, R312, R315). -/
abbrev runsInstruction (s : State) : Prop :=
  s.sleeping = false ∧ s.request.nmi = false ∧ (s.request.irq = false ∨ s.p.i = true)

/-- The flags an instruction may write: the rows of the flag policy (R150). SYS writes what `SysCall` says. -/
def writtenFlags (i : Instr) : Status :=
  let none : Status := { i := false, v := false, c := false, n := false, z := false }
  let nz : Status := { none with n := true, z := true }
  let nzc : Status := { nz with c := true }
  let nzcv : Status := { nzc with v := true }
  let all : Status := { nzcv with i := true }
  match i with
  | .mov _ _ => nz
  | .clr _ _ => nz
  | .add _ _ => nzcv
  | .sub _ _ => nzcv
  | .adc _ _ => nzcv
  | .sbc _ _ => nzcv
  | .inc _ _ => nz
  | .dec _ _ => nz
  | .mul _ _ => nz
  | .div _ _ => nz
  | .and _ _ => nz
  | .or _ _ => nz
  | .xor _ _ => nz
  | .shl _ _ => nzc
  | .shr _ _ => nzc
  | .rol _ _ => nzc
  | .ror _ _ => nzc
  | .cmp _ _ => nzcv
  | .sec => { none with c := true }
  | .clc => { none with c := true }
  | .sei => { none with i := true }
  | .cli => { none with i := true }
  | .push _ _ => none
  | .pop _ _ => nz
  | .pusha => none
  | .popa => none
  | .jmp _ => none
  | .jsr _ => none
  | .rts => none
  | .rti => all
  | .brk => none
  | .nop => none
  | .bra _ _ => none
  | .beq _ _ => none
  | .bne _ _ => none
  | .bcc _ _ => none
  | .bcs _ _ => none
  | .bpl _ _ => none
  | .bmi _ _ => none
  | .bvc _ _ => none
  | .bvs _ _ => none
  | .blt _ _ => none
  | .bgt _ _ => none
  | .ble _ _ => none
  | .bge _ _ => none
  | .sev => { none with v := true }
  | .clv => { none with v := true }
  | .slp => none
  | .sxb _ => nz
  | .sxw _ => nz
  | .sys _ _ => all

/-! ### The invariant -/

/-- Memory is in canonical form (log 3) and every entry is at an address that exists. -/
def MemInv (s : State) : Bool := s.mem.wf && s.mem.all fun c => s.exists? (BitVec.ofNat 32 c.1)

end Sys2Proof.Claims
end

