-- ==== Sys2Proof/Certificates/Slice0/Obligations.lean ====
section
/-! DEFINITION. The statements for the provers. -/

open Sys2Proof Sys2Proof.Machine Sys2Proof.Claims

/-! ### Encoding -/

/-- Decoding the encoding of any well-formed instruction, whatever bytes follow it, gives the instruction back (R89, R90, R110).
Rests on the spec's decisions D1, D2, D8 and D9 (log 9). -/
def Obligations.DecodeOfEncodeIsTheInstruction : Prop :=
  ∀ (i : Instr) (rest : List Byte), i.wf = true → decode (encode i ++ rest) = .instr i

/-- Bytes that decode to an instruction start with its encoding, and the instruction is well formed: the decoder drops no
bit. Rests on the spec's decisions D1, D2, D8 and D9 (log 9). -/
def Obligations.DecodedBytesStartWithTheEncoding : Prop :=
  ∀ (bs : List Byte) (i : Instr), decode bs = .instr i → i.wf = true ∧ encode i <+: bs

/-- The length of an instruction is the formula of R91 on its word, is the number of bytes of its encoding, and is 2 to 10. The spec
marks R91 as its inference from R90 ("[derived: from rule R90]"). -/
def Obligations.LengthIsTheFormulaOfTheWord : Prop :=
  ∀ i : Instr,
    let lo := (encode i)[0]!.toNat
    let hi := (encode i)[1]!.toNat
    let nb := if lo / 64 = 0 then 4 else if lo / 64 = 1 then 2 else 1
    (encode i).length = i.length ∧ 2 ≤ i.length ∧ i.length ≤ 10
      ∧ i.length = 2 + (if hi / 32 ≠ 0 then 1 else 0)
          + (if hi % 32 ∈ [5, 6, 7, 8, 13, 14, 15, 17] then 4 else 0)
          + (if hi % 32 ∈ [1, 2, 8, 12, 16, 18] then nb else 0)

/-- A word is illegal exactly when a field holds a reserved or unassigned value (R111), whatever bytes follow. Rests on the spec's
decision D11 (log 9). -/
def Obligations.IllegalExactlyOnReservedFields : Prop :=
  ∀ (lo hi : Byte) (bs : List Byte), decode (lo :: hi :: bs) = .illegal ↔ reservedWord lo hi

/-- A word has no meaning exactly when its fields are all assigned and the tables of R97, R98 and R99 do not admit the
combination (R112), whatever bytes follow. Rests on the spec's decisions D10, D12 and D40 (log 9). -/
def Obligations.UnspecifiedExactlyOnUnadmittedWords : Prop :=
  ∀ (lo hi : Byte) (bs : List Byte),
    decode (lo :: hi :: bs) = .unspecifiedWord ↔
      ¬ reservedWord lo hi ∧ admitted (lo.toNat % 64) (hi.toNat % 32) (hi.toNat / 32) (lo.toNat / 64) = false

/-- The ten encodings that R114 writes out: each is the encoding of its instruction and decodes to it. The spec marks R114 as its
inference ("derived from the rules above"), which rests on its decisions D1, D2 and D8 (log 9). -/
def Obligations.WorkedEncodingsDecode : Prop :=
  ∀ e ∈ ([(.nop, [0x1F, 0x00]),
      (.mov .byte (.regConst .r0 5), [0x80, 0x21, 0x00, 0x05]),
      (.mov .word (.regConst .r0 6502), [0x40, 0x21, 0x00, 0x66, 0x19]),
      (.mov .long (.regConst .r2 34), [0x00, 0x21, 0x02, 0x22, 0x00, 0x00, 0x00]),
      (.mov .long (.regInd .r0 .r1 .postInc), [0x00, 0x8A, 0x01]),
      (.add .long (.indConst .r1 .plain 4), [0x02, 0x2C, 0x01, 0x04, 0x00, 0x00, 0x00]),
      (.mov .long (.absReg 0x1000 .r3), [0x00, 0x27, 0x03, 0x00, 0x10, 0x00, 0x00]),
      (.mov .byte (.absConst 0x1000 7), [0x80, 0x08, 0x00, 0x10, 0x00, 0x00, 0x07]),
      (.jsr 0xF09442, [0x1B, 0x11, 0x42, 0x94, 0xF0, 0x00]),
      (.beq .byte 0xFD, [0xA1, 0x10, 0xFD])] : List (Instr × List Byte)),
    encode e.1 = e.2 ∧ decode e.2 = .instr e.1

/-! ### The step -/

/-- When no interrupt is taken, the core is awake, and the bytes at `pc` decode to an instruction, the step is `exec` of it; the
step adds nothing but that this recognition point's inputs are used up (`State.sampled`; what devices answer is log 7). Rests on the spec's decision D44 (log 9). -/
def Obligations.StepRunsTheDecodedInstruction : Prop :=
  ∀ (s : State) (i : Instr), s.halted = false → runsInstruction s → fetchDecode s.sampled = .instr i → step s = exec i s.sampled

/-- A well-formed instruction whose bytes stand at `pc` and exist is the one the step executes (R110, R130); stores that put
them there are seen by the fetch (R68). Rests on the spec's decision D38 (log 9). -/
def Obligations.StepExecutesTheInstructionStoredAtPc : Prop :=
  ∀ (s : State) (i : Instr), i.wf = true → s.halted = false → runsInstruction s → HoldsAtPc s.sampled i →
    step s = exec i s.sampled

/-- A word with a reserved field value traps with the address after the word (R301, R321); a first byte that does not exist traps
with the address of the instruction (R321); an encoding with no meaning is refused (R112). Rests on the spec's decisions D11, D12,
D28 and D29 (log 9). -/
def Obligations.StepOnBytesThatAreNoInstruction : Prop :=
  ∀ s : State, s.halted = false → runsInstruction s →
    (BytesExist s s.pc 2 → reservedWord (byteAt s.sampled.fetchView s.pc) (byteAt s.sampled.fetchView (s.pc + 1)) →
      step s = .next (trapEntry .illegalInstruction (s.pc + 2) s.sampled))
    ∧ (¬ BytesExist s s.pc 2 → step s = .next (trapEntry .illegalAddress s.pc s.sampled))
    ∧ (fetchDecode s.sampled = .short → step s = .next (trapEntry .illegalAddress s.pc s.sampled))
    ∧ (fetchDecode s.sampled = .unspecifiedWord → step s = .refused .unspecifiedWord)
    ∧ (fetchDecode s.sampled = .unspecifiedSelector → step s = .refused .unspecifiedSelector)

/-! ### Memory and registers -/

/-- A value stored little-endian is read back whole, and every narrower read inside it gives the bytes at its own addresses,
addresses wrapping; a store changes only its own bytes (R53). That a device's bytes read back so before the next recognition point is
the model's choice (log 7), where R63 makes the read a draw. The spec marks R53 as its inference ("[derived: from rule R52 and
rule R54]"), which rests on its decision D1 (log 9). -/
def Obligations.StoredValueIsReadLittleEndian : Prop :=
  ∀ (s t : State) (a : Word) (sz : Size) (v : BitVec sz.bits), memWrite s a sz v = .ok t →
    memRead t a sz = .ok v
      ∧ (∀ j, j < sz.bytes → memRead t (a + BitVec.ofNat 32 j) .byte = .ok (v.extractLsb' (8 * j) 8))
      ∧ (∀ j, j + 2 ≤ sz.bytes → memRead t (a + BitVec.ofNat 32 j) .word = .ok (v.extractLsb' (8 * j) 16))
      ∧ (∀ x, ¬ Within a sz.bytes x → byteAt t x = byteAt s x)

/-- An access completes exactly when all its bytes exist; otherwise it raises IllegalAddress and transfers nothing (R56, R57). Rests
on the spec's decision D28 (log 9). -/
def Obligations.AccessCompletesExactlyWhenItsBytesExist : Prop :=
  ∀ (s : State) (a : Word) (sz : Size) (v : BitVec sz.bits),
    (BytesExist s a sz.bytes →
      memRead s a sz = .ok (valueAt s sz.bits a)
        ∧ ∃ t, memWrite s a sz v = .ok t ∧ Stored s t a sz.bytes v ∧ KeepsRegsBut [] s t ∧ t.p = s.p ∧ SameRest s t)
    ∧ (¬ BytesExist s a sz.bytes →
      memRead s a sz = .error .illegalAddress ∧ memWrite s a sz v = .error .illegalAddress)

/-- A sized write to a register replaces its low `n` bits and leaves the rest (R138); no other register changes. Rests on the spec's
decision D24 (log 9). -/
def Obligations.SizedRegisterWriteKeepsTheUpperBits : Prop :=
  ∀ (s : State) (sz : Size) (i : Reg) (v : BitVec sz.bits),
    (∀ j, j < sz.bits → ((regWrite s sz i v).reg i).getLsbD j = v.getLsbD j)
      ∧ (∀ j, sz.bits ≤ j → ((regWrite s sz i v).reg i).getLsbD j = (s.reg i).getLsbD j)
      ∧ KeepsRegsBut [i] s (regWrite s sz i v)

/-- A pre-decrement subtracts from the whole pointer register, and a post-increment adds to it, 4, 2 or 1 for the sizes 32, 16 and 8,
and neither changes anything else (R135). -/
def Obligations.PointersStepByTheOperandSize : Prop :=
  ∀ (i : Reg) (s : State),
    ∀ sk ∈ ([(.long, 4), (.word, 2), (.byte, 1)] : List (Size × Word)),
      preDecrement sk.1 (some (i, .preDec)) s = s.setReg i (s.reg i - sk.2)
        ∧ postIncrement sk.1 (some (i, .postInc)) s = s.setReg i (s.reg i + sk.2)

/-- The state in which an instruction looks at its operands: `pc` reads as the address of the next instruction (R23), the pointer
of `[..]-` is down by the operand size in bytes (R133, R135), and nothing else differs. The operands themselves, by the mode code of the
form (R83): which is the destination, which the source, which register is the pointer (R90), and the effective address of each (R136).
Rests on the spec's decision D23 (log 9). -/
def Obligations.OperandsOfEveryFormAndTheStateTheySee : Prop :=
  (∀ (len : Nat) (sz : Size) (ptr : Option (Reg × Modifier)) (s : State) (i : Reg),
    (operandState len sz ptr s).reg i =
        (if i = .pc then s.pc + BitVec.ofNat 32 len else s.reg i)
          - (if ptr = some (i, .preDec) then BitVec.ofNat 32 (sz.bits / 8) else 0)
      ∧ SameBytes s (operandState len sz ptr s) ∧ (operandState len sz ptr s).p = s.p ∧ SameRest s (operandState len sz ptr s))
  ∧ (∀ (s : State) (rx ry : Reg) (m : Modifier) (a c d : Word),
      twoPlaces s (.regConst rx c) = (1, .reg rx, .const c, none)
        ∧ twoPlaces s (.regReg rx ry) = (4, .reg rx, .reg ry, none)
        ∧ twoPlaces s (.regAbs rx a) = (6, .reg rx, .mem a, none)
        ∧ twoPlaces s (.absReg a rx) = (7, .mem a, .reg rx, none)
        ∧ twoPlaces s (.absConst a c) = (8, .mem a, .const c, none)
        ∧ twoPlaces s (.regInd rx ry m) = (10, .reg rx, .mem (s.reg ry), some (ry, m))
        ∧ twoPlaces s (.indReg rx ry m) = (11, .mem (s.reg rx), .reg ry, some (rx, m))
        ∧ twoPlaces s (.indConst rx m c) = (12, .mem (s.reg rx), .const c, some (rx, m))
        ∧ twoPlaces s (.regIdx rx ry m d) = (14, .reg rx, .mem (s.reg ry + d), some (ry, m))
        ∧ twoPlaces s (.idxReg rx ry m d) = (15, .mem (s.reg rx + d), .reg ry, some (rx, m)))
  ∧ (∀ (s : State) (rx : Reg) (m : Modifier) (a d : Word),
      onePlaces s (.reg rx) = (3, .reg rx, none)
        ∧ onePlaces s (.abs a) = (5, .mem a, none)
        ∧ onePlaces s (.ind rx m) = (9, .mem (s.reg rx), some (rx, m))
        ∧ onePlaces s (.idx rx m d) = (13, .mem (s.reg rx + d), some (rx, m)))
  ∧ ∀ (s : State) (c : Word) (o : OneOp),
      pushPlaces s (.const c) = (2, .const c, none) ∧ pushPlaces s (.operand o) = onePlaces s o

/-! ### Data movement -/

/-- MOV writes the source's value to the destination and sets `N` and `Z` from it (R160). Rests on the spec's decisions D13 and D24
(log 9). -/
def Obligations.MovCompletes : Prop :=
  TwoComputes .mov anySource fun _ _ b p => (b, nzFlags p b)

/-- SXB and SXW sign-extend the low 8 and 16 bits of the register to 32, with `N` and `Z` from the 32-bit result (R162, R163); no
other register, flag or byte of memory changes but `pc`. Rests on the spec's decision D19 (log 9). -/
def Obligations.SignExtensionsComplete : Prop :=
  ∀ (rx : Reg) (s : State),
    let s1 := s.setPc (s.pc + 3)
    let rb := BitVec.ofInt 32 ((s1.reg rx).setWidth 8).toInt
    let rw := BitVec.ofInt 32 ((s1.reg rx).setWidth 16).toInt
    exec (.sxb rx) s = .next ((s1.setReg rx rb).setStatus (nzFlags s.p rb))
      ∧ exec (.sxw rx) s = .next ((s1.setReg rx rw).setStatus (nzFlags s.p rw))

/-! ### Arithmetic -/

/-- ADD adds, ADC adds the carry as well; `C` is the carry out of `n` bits and `V` the signed overflow (R146, R170, R172). Rests on
the spec's decisions D13 and D19 (log 9). -/
def Obligations.AddAndAdcComplete : Prop :=
  TwoComputes .add anySource (fun _ a b p => sumOf a b false p) ∧ TwoComputes .adc anySource (fun _ a b p => sumOf a b p.c p)

/-- SUB subtracts, SBC subtracts the complement of the carry as well; `C` means no borrow and `V` the signed overflow (R147, R171,
R173). Rests on the spec's decisions D13, D14 and D19 (log 9). -/
def Obligations.SubAndSbcComplete : Prop :=
  TwoComputes .sub anySource (fun _ a b p => differenceOf a b false p)
    ∧ TwoComputes .sbc anySource (fun _ a b p => differenceOf a b (!p.c) p)

/-- CLR writes zero, INC adds 1 and DEC subtracts 1 whatever the size, with `N` and `Z` from the result (R161, R174, R175). Rests on
the spec's decisions D13 and D41 (log 9). -/
def Obligations.ClrIncAndDecComplete : Prop :=
  OneComputes .clr (fun sz _ => 0#sz.bits)
    ∧ OneComputes .inc (fun sz a => BitVec.ofNat sz.bits (a.toNat + 1))
    ∧ OneComputes .dec (fun sz a => BitVec.ofInt sz.bits (a.toNat - 1))

/-- MUL gives the low `n` bits of the product, the same for unsigned and signed operands (R176, R178). Rests on the spec's decisions
D13 and D16 (log 9). -/
def Obligations.MulCompletes : Prop :=
  TwoComputes .mul anySource (fun sz a b p => (BitVec.ofNat sz.bits (a.toNat * b.toNat), nzFlags p (BitVec.ofNat sz.bits (a.toNat * b.toNat))))
    ∧ ∀ (n : Nat) (a b : BitVec n), BitVec.ofNat n (a.toNat * b.toNat) = BitVec.ofInt n (a.toInt * b.toInt)

/-- DIV by a divisor that is not zero gives the unsigned quotient rounded towards zero (R177). Rests on the spec's decisions D13 and
D16 (log 9). -/
def Obligations.DivCompletes : Prop :=
  TwoComputes .div (fun _ b => b.toNat ≠ 0)
    (fun sz a b p => (BitVec.ofNat sz.bits (a.toNat / b.toNat), nzFlags p (BitVec.ofNat sz.bits (a.toNat / b.toNat))))

/-- DIV whose `n`-bit divisor is zero and whose operands exist takes the trap DivisionByZero, entered from the state the instruction
started in, with the address of the next instruction (R177, R304). Rests on the spec's decisions D16, D29 and D30 (log 9). -/
def Obligations.DivByZeroTraps : Prop :=
  ∀ (sz : Size) (o : TwoOp) (s : State), twoReady .div sz o s = true → (twoSrc .div sz o s).toNat = 0 →
    exec (.div sz o) s = raises .divisionByZero (.div sz o) s

/-- Adding the low words and then the high words with carry adds 64-bit numbers, in any four registers but `PC` where the low result is
neither the high destination nor the high source; `C` is the carry out of 64 bits (R172). Rests on the spec's decisions D13 and D19
(log 9). -/
def Obligations.AddThenAdcAddsSixtyFourBits : Prop :=
  ∀ (lo hi lo' hi' : Reg) (s : State), lo ≠ hi → lo ≠ hi' → Reg.pc ∉ [lo, hi, lo', hi'] →
    ∃ t u, exec (.add .long (.regReg lo lo')) s = .next t ∧ exec (.adc .long (.regReg hi hi')) t = .next u ∧
      (u.reg hi).toNat * 2 ^ 32 + (u.reg lo).toNat + (if u.p.c then 2 ^ 64 else 0)
        = ((s.reg hi).toNat * 2 ^ 32 + (s.reg lo).toNat) + ((s.reg hi').toNat * 2 ^ 32 + (s.reg lo').toNat)

/-- Result, carry and overflow of a subtraction with borrow: the difference modulo `2^n`, carry for no borrow, overflow where the signed
difference is out of range; and all three are those of adding the complement (R147). Rests on the spec's decisions D13 and D14 (log 9). -/
def Obligations.SubtractionIsAdditionOfTheComplement : Prop :=
  ∀ (sz : Size) (a b : BitVec sz.bits) (bin : Bool),
    ((subB a b bin).result.toNat : Int) = ((a.toNat : Int) - b.toNat - bin.toNat) % (2 ^ sz.bits : Int)
      ∧ ((subB a b bin).carry = true ↔ b.toNat + bin.toNat ≤ a.toNat)
      ∧ (subB a b bin).overflow = outOfRange sz.bits (a.toInt - b.toInt - bin.toNat)
      ∧ subB a b bin = addC a (~~~b) (!bin)

/-! ### Logic, shifts, rotates -/

/-- AND, OR and XOR work bit by bit, with `N` and `Z` from the result (R190, R191, R192). Rests on the spec's decision D13 (log 9). -/
def Obligations.LogicCompletes : Prop :=
  TwoComputes .and anySource (fun sz a b p => (BitVec.ofNat sz.bits (a.toNat &&& b.toNat), nzFlags p (BitVec.ofNat sz.bits (a.toNat &&& b.toNat))))
    ∧ TwoComputes .or anySource (fun sz a b p => (BitVec.ofNat sz.bits (a.toNat ||| b.toNat), nzFlags p (BitVec.ofNat sz.bits (a.toNat ||| b.toNat))))
    ∧ TwoComputes .xor anySource (fun sz a b p => (BitVec.ofNat sz.bits (a.toNat ^^^ b.toNat), nzFlags p (BitVec.ofNat sz.bits (a.toNat ^^^ b.toNat))))

/-- SHL and SHR move zeros in, the count is not masked, and `C` is the last bit moved out, 0 past the width, unchanged for count 0
(R193, R194). Rests on the spec's decisions D13 and D17 (log 9). -/
def Obligations.ShiftsComplete : Prop :=
  TwoComputes .shl anySource (fun sz a b p =>
      let r := BitVec.ofNat sz.bits (a.toNat * 2 ^ b.toNat)
      (r, { nzFlags p r with
            c := if b.toNat = 0 then p.c else if b.toNat ≤ sz.bits then a.getLsbD (sz.bits - b.toNat) else false }))
    ∧ TwoComputes .shr anySource (fun sz a b p =>
      let r := BitVec.ofNat sz.bits (a.toNat / 2 ^ b.toNat)
      (r, { nzFlags p r with c := if b.toNat = 0 then p.c else if b.toNat ≤ sz.bits then a.getLsbD (b.toNat - 1) else false }))

/-- ROL and ROR rotate the `n` bits by the count modulo `n`; `C` is the bit that went round last, unchanged for count 0 (R195, R196).
Rests on the spec's decisions D13 and D18 (log 9). -/
def Obligations.RotatesComplete : Prop :=
  TwoComputes .rol anySource (fun sz a b p =>
      let r := a.rotateLeft (b.toNat % sz.bits)
      (r, { nzFlags p r with c := if b.toNat = 0 then p.c else r.getLsbD 0 }))
    ∧ TwoComputes .ror anySource (fun sz a b p =>
      let r := a.rotateRight (b.toNat % sz.bits)
      (r, { nzFlags p r with c := if b.toNat = 0 then p.c else r.getLsbD (sz.bits - 1) }))

/-! ### Compare and flags -/

/-- CMP sets the flags of the difference and writes no destination (R210). Rests on the spec's decisions D13, D14 and D41 (log 9). -/
def Obligations.CmpCompletes : Prop :=
  ∀ (sz : Size) (o : TwoOp) (s : State), twoReady .cmp sz o s = true →
    ∃ t, exec (.cmp sz o) s = .next t ∧
      WritesFlagsOnly sz o.pointer (differenceOf (twoDst .cmp sz o s) (twoSrc .cmp sz o s) false s.p).2 (twoState .cmp sz o s) t

/-- After CMP, `Z` says equal, `C` says unsigned higher or same, and `N ≠ V` says signed less (R210, R243). Rests on the spec's
decisions D13, D14 and D15 (log 9). -/
def Obligations.CmpFlagsOrderTheOperands : Prop :=
  ∀ (sz : Size) (o : TwoOp) (s : State), twoReady .cmp sz o s = true →
    ∃ t, exec (.cmp sz o) s = .next t
      ∧ t.p.z = decide (twoDst .cmp sz o s = twoSrc .cmp sz o s)
      ∧ t.p.c = decide ((twoSrc .cmp sz o s).toNat ≤ (twoDst .cmp sz o s).toNat)
      ∧ (t.p.n != t.p.v) = decide ((twoDst .cmp sz o s).toInt < (twoSrc .cmp sz o s).toInt)

/-- SEC, CLC, SEV, CLV, SEI and CLI write their one flag; nothing else changes but `pc` (R211–R216). Their encodings are those the rules
write out. -/
def Obligations.FlagInstructionsComplete : Prop :=
  (∀ s : State,
    exec .sec s = .next ((s.setPc (s.pc + 2)).setStatus { s.p with c := true })
      ∧ exec .clc s = .next ((s.setPc (s.pc + 2)).setStatus { s.p with c := false })
      ∧ exec .sev s = .next ((s.setPc (s.pc + 2)).setStatus { s.p with v := true })
      ∧ exec .clv s = .next ((s.setPc (s.pc + 2)).setStatus { s.p with v := false })
      ∧ exec .sei s = .next ((s.setPc (s.pc + 2)).setStatus { s.p with i := true })
      ∧ exec .cli s = .next ((s.setPc (s.pc + 2)).setStatus { s.p with i := false }))
    ∧ encode .sec = [0x12, 0x00] ∧ encode .clc = [0x13, 0x00] ∧ encode .sev = [0x2D, 0x00] ∧ encode .clv = [0x2E, 0x00]
    ∧ encode .sei = [0x14, 0x00] ∧ encode .cli = [0x15, 0x00]

/-- A step changes no flag but those the flag policy gives its instruction (R150), and none at all where it enters an interrupt, wakes or
sleeps on, meets bytes that are no instruction, or where the instruction raises an exception (R26, R312, R322). Rests on the spec's
decisions D13, D31 and D37 (log 9). -/
def Obligations.FlagsChangeOnlyByTheirInstructions : Prop :=
  ∀ s t : State, step s = .next t →
    (¬ runsInstruction s → t.p = s.p)
    ∧ ((∀ i, fetchDecode s.sampled ≠ .instr i) → t.p = s.p)
    ∧ ∀ i, runsInstruction s → fetchDecode s.sampled = .instr i →
        ((writtenFlags i).i = false → t.p.i = s.p.i) ∧ ((writtenFlags i).v = false → t.p.v = s.p.v)
          ∧ ((writtenFlags i).c = false → t.p.c = s.p.c) ∧ ((writtenFlags i).n = false → t.p.n = s.p.n)
          ∧ ((writtenFlags i).z = false → t.p.z = s.p.z)
          ∧ (∀ cause, exec i s.sampled = raises cause i s.sampled → t.p = s.p)
          ∧ ∀ sz k a rest, i = .sys sz k → s.calls = a :: rest → ¬ AnswerReady s a → t.p = s.p

/-! ### Operands that do not exist -/

/-- A data instruction whose memory operand has a byte that does not exist has no effect: IllegalAddress is taken from the state the
instruction started in, with the address of the next instruction (R144, R302, R321); DIV by zero included (R316). Rests on the
spec's decisions D28, D29, D30 and D33 (log 9). -/
def Obligations.MissingOperandRaisesIllegalAddress : Prop :=
  (∀ make ∈ twoOperandInstrs, ∀ (sz : Size) (o : TwoOp) (s : State), twoReady make sz o s = false →
      exec (make sz o) s = raises .illegalAddress (make sz o) s)
    ∧ ∀ make ∈ oneOperandInstrs, ∀ (sz : Size) (o : OneOp) (s : State), oneReady make sz o s = false →
      exec (make sz o) s = raises .illegalAddress (make sz o) s

/-- A stack instruction that meets a byte that does not exist has no effect: IllegalAddress is taken from the state it started in (R144,
R231, R232, R260–R263, R282). Rests on the spec's decisions D28, D29 and D30 (log 9). -/
def Obligations.MissingStackRaisesIllegalAddress : Prop :=
  (∀ (i : Instr) (s : State) (a : Word) (k : Nat), stackSpan s i = some (a, k) → ¬ BytesExist s a k →
      exec i s = raises .illegalAddress i s)
    ∧ (∀ (sz : Size) (o : PushOp) (s : State), pushReady sz o s = false →
      exec (.push sz o) s = raises .illegalAddress (.push sz o) s)
    ∧ ∀ (sz : Size) (o : OneOp) (s : State), popReady sz o s = false →
      exec (.pop sz o) s = raises .illegalAddress (.pop sz o) s

/-! ### One register in two parts -/

/-- The eight cases of R141 where one register plays two parts: the pointer is decremented before the source is read and incremented after
the destination is written. The first six hold for every register `r` but `PC`, whose reads see the next address. The spec marks R141
as its inference ("[derived: from rules R133, R134, R139, R140]"), which rests on its decisions D23 and D25 (log 9). -/
def Obligations.PointerAndDestinationInOneRegister : Prop :=
  (∀ (s : State) (r : Reg), r ≠ .pc →
    (BytesExist s (s.reg r) 4 → ∃ t, exec (.mov .long (.regInd r r .postInc)) s = .next t ∧ t.reg r = valueAt s 32 (s.reg r) + 4)
    ∧ (BytesExist s (s.reg r) 1 → ∃ t, exec (.mov .byte (.regInd r r .postInc)) s = .next t
        ∧ t.reg r = ((s.reg r).extractLsb' 8 24 ++ byteAt s (s.reg r)) + 1)
    ∧ (BytesExist s (s.reg r - 4) 4 → ∃ t, exec (.mov .long (.regInd r r .preDec)) s = .next t ∧ t.reg r = valueAt s 32 (s.reg r - 4))
    ∧ (BytesExist s (s.reg r - 4) 4 → ∃ t, exec (.mov .long (.indReg r r .preDec)) s = .next t
        ∧ t.reg r = s.reg r - 4 ∧ Stored s t (s.reg r - 4) 4 (s.reg r - 4))
    ∧ (BytesExist s (s.reg r) 4 → ∃ t, exec (.mov .long (.indReg r r .postInc)) s = .next t
        ∧ t.reg r = s.reg r + 4 ∧ Stored s t (s.reg r) 4 (s.reg r))
    ∧ ∀ sz : Size, ∃ t, exec (.add sz (.regReg r r)) s = .next t
        ∧ (t.reg r).setWidth sz.bits = BitVec.ofNat sz.bits (2 * (s.reg r).toNat))
  ∧ ∀ s : State,
    (BytesExist s s.sp 4 → ∃ t, exec (.mov .long (.regInd .pc .sp .postInc)) s = .next t ∧ t.pc = valueAt s 32 s.sp ∧ t.sp = s.sp + 4)
    ∧ (BytesExist s (s.pc + 3) 4 → ∃ t, exec (.mov .long (.regInd .r0 .pc .postInc)) s = .next t
        ∧ t.reg .r0 = valueAt s 32 (s.pc + 3) ∧ t.pc = s.pc + 7)

/-! ### Control transfer -/

/-- JMP sets `pc` to the address; NOP only moves `pc`; SLP sets `sleeping` with `pc` after itself (R230, R280, R283). Rests on the
spec's decisions D10 and D37 (log 9). -/
def Obligations.JmpNopAndSlpComplete : Prop :=
  ∀ (s : State) (addr : Word),
    exec (.jmp addr) s = .next (s.setPc addr)
      ∧ exec .nop s = .next (s.setPc (s.pc + 2))
      ∧ exec .slp s = .next ((s.setPc (s.pc + 2)).setSleeping true)

/-- The thirteen branches: where the condition holds on the flags, `pc` becomes the address of the next instruction plus the signed
offset of the operand size, else the address of the next instruction; nothing else changes (R94, R233–R246). Rests on the spec's
decisions D4 and D15 (log 9). -/
def Obligations.BranchesComplete : Prop :=
  ∀ bc ∈ branchInstrs,
    ∀ (sz : Size) (d : Word) (s : State),
      exec (bc.1 sz d) s = .next (s.setPc
        (if bc.2 s.p then s.pc + BitVec.ofNat 32 (2 + sz.bytes) + BitVec.ofInt 32 (d.setWidth sz.bits).toInt
         else s.pc + BitVec.ofNat 32 (2 + sz.bytes)))

/-- JSR pushes the address of the next instruction and jumps (R231). Rests on the spec's decision D7 (log 9). -/
def Obligations.JsrCompletes : Prop :=
  ∀ (s : State) (addr : Word), BytesExist s (s.sp - 4) 4 →
    ∃ t, exec (.jsr addr) s = .next t ∧ t.pc = addr ∧ t.sp = s.sp - 4 ∧ KeepsRegsBut [.sp, .pc] s t
      ∧ Stored s t (s.sp - 4) 4 (s.pc + 6) ∧ t.p = s.p ∧ SameRest s t

/-- RTS pops `pc` (R232). Rests on the spec's decisions D7 and D43 (log 9). -/
def Obligations.RtsCompletes : Prop :=
  ∀ s : State, BytesExist s s.sp 4 →
    exec .rts s = .next ((s.setSp (s.sp + 4)).setPc (valueAt s 32 s.sp))

/-- RTS at the start of a subroutine undoes its JSR: it comes back after the JSR with the stack pointer as before (R231, R232).
RTS runs on what JSR leaves, with no recognition point between: that a stack in a device's bytes reads back there what was stored is the
model's choice (log 7), where R63 makes the read a draw. Rests on the spec's decisions D7 and D43 (log 9). -/
def Obligations.RtsReturnsFromJsr : Prop :=
  ∀ (s : State) (addr : Word), BytesExist s (s.sp - 4) 4 →
    ∃ t u, exec (.jsr addr) s = .next t ∧ exec .rts t = .next u ∧ u.pc = s.pc + 6 ∧ KeepsRegsBut [.pc] s u ∧ u.p = s.p

/-! ### Stack -/

/-- PUSH reads its operand and stores it below the stack pointer, which moves down by the operand size; no flag changes (R260).
Rests on the spec's decisions D7, D10 and D13 (log 9). -/
def Obligations.PushCompletes : Prop :=
  ∀ (sz : Size) (o : PushOp) (s : State), pushReady sz o s = true →
    ∃ t, exec (.push sz o) s = .next t ∧ t.p = s.p ∧ SameRest s t
      ∧ (∀ i, t.reg i = bumped sz o.pointer i (if i = .sp then pushAddr sz o s else (pushState sz o s).reg i))
      ∧ Stored s t (pushAddr sz o s) sz.bytes (pushValue sz o s)

/-- POP reads at the stack pointer, which moves up by the operand size, and writes the operand, whose address is formed before the stack
pointer moves; `N` and `Z` come from the value (R261). Rests on the spec's decisions D7, D10 and D13 (log 9). -/
def Obligations.PopCompletes : Prop :=
  ∀ (sz : Size) (o : OneOp) (s : State), popReady sz o s = true →
    ∃ t, exec (.pop sz o) s = .next t ∧ t.p = nzFlags s.p (popValue sz o s) ∧ SameRest s t
      ∧ (∀ i, t.reg i = bumped sz o.pointer i
          (afterWrite (onePlace .pop sz o s) (popValue sz o s) i (afterPop sz (oneState .pop sz o s) i)))
      ∧ MemoryAfter (onePlace .pop sz o s) sz.bytes (popValue sz o s) s t

/-- PUSHA pushes `R0`, …, `R13` as 32-bit values, `R0` highest; no register but `SP` and `pc`, and no flag, changes (R262). Rests on
the spec's decisions D7 and D21 (log 9). -/
def Obligations.PushaCompletes : Prop :=
  ∀ s : State, BytesExist s (s.sp - 56) 56 →
    ∃ t, exec .pusha s = .next t ∧ t.sp = s.sp - 56 ∧ t.pc = s.pc + 2 ∧ KeepsRegsBut [.sp, .pc] s t ∧ t.p = s.p ∧ SameRest s t
      ∧ (∀ e ∈ ([(.r0, 4), (.r1, 8), (.r2, 12), (.r3, 16), (.r4, 20), (.r5, 24), (.r6, 28), (.r7, 32), (.r8, 36), (.r9, 40),
          (.r10, 44), (.r11, 48), (.r12, 52), (.r13, 56)] : List (Reg × Word)), valueAt t 32 (s.sp - e.2) = s.reg e.1)
      ∧ ∀ x, ¬ Within (s.sp - 56) 56 x → byteAt t x = byteAt s x

/-- POPA pops `R13`, …, `R0` (R263). Rests on the spec's decisions D7 and D21 (log 9). -/
def Obligations.PopaCompletes : Prop :=
  ∀ s : State, BytesExist s s.sp 56 →
    ∃ t, exec .popa s = .next t ∧ t.sp = s.sp + 56 ∧ t.pc = s.pc + 2 ∧ SameBytes s t ∧ t.p = s.p ∧ SameRest s t
      ∧ ∀ e ∈ ([(.r13, 0), (.r12, 4), (.r11, 8), (.r10, 12), (.r9, 16), (.r8, 20), (.r7, 24), (.r6, 28), (.r5, 32), (.r4, 36),
          (.r3, 40), (.r2, 44), (.r1, 48), (.r0, 52)] : List (Reg × Word)), t.reg e.1 = valueAt s 32 (s.sp + e.2)

/-- POPA after PUSHA restores `R0`–`R13` and `SP`, whatever the handler between them did to `R0`–`R13`, where memory is as PUSHA left it
(R263). That a stack in a device's bytes reads back what was stored is the model's choice (log 7), where R63 makes the reads draws. Rests on
the spec's decisions D7 and D21 (log 9). -/
def Obligations.PopaRestoresWhatPushaSaved : Prop :=
  ∀ s t t' : State, BytesExist s (s.sp - 56) 56 → exec .pusha s = .next t →
    t'.sp = t.sp → t'.mem = t.mem → t'.present = t.present →
    ∃ u, exec .popa t' = .next u ∧ KeepsRegsBut [.pc] s u

/-- `PUSH Rx` is `MOV [SP]-, Rx` except that MOV sets `N` and `Z`, for every register but `SP` and every size (R260); POP into `PC` is RTS
except that it sets `N` and `Z` (R261). Rests on the spec's decisions D7 and D13 (log 9). -/
def Obligations.PushIsMovBelowTheStackPointer : Prop :=
  (∀ (s : State) (sz : Size) (rx : Reg), rx ≠ .sp → BytesExist s (s.sp - sizeStep sz) sz.bytes →
      ∃ t, exec (.push sz (.operand (.reg rx))) s = .next t
        ∧ exec (.mov sz (.indReg .sp rx .preDec)) s = .next (t.setStatus (nzFlags s.p (pushValue sz (.operand (.reg rx)) s))))
    ∧ ∀ s : State, BytesExist s s.sp 4 →
      ∃ t, exec .rts s = .next t ∧ exec (.pop .long (.reg .pc)) s = .next (t.setStatus (nzFlags s.p t.pc))

/-- The operations that PUSHS and POPS would perform (R264, R265): the byte `000IVCNZ` is stored below the stack pointer, and a loaded byte
gives the five flags, its bits 7:5 discarded (R25, R27). Where the pop undoes the push, that a device's stack byte reads back what was
stored is the model's choice (log 7). Rests on the spec's decisions D5, D6 and D22 (log 9). -/
def Obligations.StatusByteIsPushedAndPopped : Prop :=
  (∀ (s t : State), pushStatus s = .ok t → t.sp = s.sp - 1
      ∧ (byteAt t (s.sp - 1)).toNat = 16 * s.p.i.toNat + 8 * s.p.v.toNat + 4 * s.p.c.toNat + 2 * s.p.n.toNat + s.p.z.toNat
      ∧ popStatus t = .ok (t.setSp s.sp))
    ∧ ∀ (s t : State), popStatus s = .ok t → t.sp = s.sp + 1
      ∧ 16 * t.p.i.toNat + 8 * t.p.v.toNat + 4 * t.p.c.toNat + 2 * t.p.n.toNat + t.p.z.toNat = (byteAt s s.sp).toNat % 32

/-! ### Traps, interrupts and return -/

/-- Trap entry pushes the return PC and the status byte, loads `pc` from the vector as it reads after the pushes, wakes the core, and
changes nothing else, for every cause (R320, R322). A device's byte of the vector reads as a draw of that read's own (R63; log 7). Rests on
the spec's decisions D7, D28 and D31 (log 9). -/
def Obligations.TrapEntryPushesTheFrame : Prop :=
  ∀ (cause : Cause) (retpc : Word) (s : State), TrapReady cause s → TrapEntered cause retpc s (trapEntry cause retpc s)

/-- A byte that does not exist, met during trap entry, halts the core in the state before the entry; a halted core makes no step; only
reset restarts it (R324). Rests on the spec's decision D35 (log 9, log 10). -/
def Obligations.FaultInTrapEntryHaltsForGood : Prop :=
  (∀ (cause : Cause) (retpc : Word) (s : State), ¬ TrapReady cause s → trapEntry cause retpc s = { s with halted := true })
    ∧ (∀ s : State, s.halted = true → step s = .fault .halted)
    ∧ ∀ s : State, BytesExist s 0 8 → (resetSequence s).halted = false

/-- BRK takes the software interrupt with the address of the next instruction, whatever `I` is (R281, R306). Rests on the spec's
decisions D7, D31 and D42 (log 9). -/
def Obligations.BrkEntersTheSoftwareInterrupt : Prop :=
  ∀ s : State, TrapReady .softwareIrq s →
    ∃ t, exec .brk s = .next t ∧ TrapEntered .softwareIrq (s.pc + 2) (s.setPc (s.pc + 2)) t

/-- RTI pops the status byte into the flags and the return PC into `pc` (R282). Rests on the spec's decisions D5, D7 and D43 (log
9). -/
def Obligations.RtiCompletes : Prop :=
  ∀ s : State, BytesExist s s.sp 5 →
    ∃ t, exec .rti s = .next t ∧ t.sp = s.sp + 5 ∧ t.pc = valueAt s 32 (s.sp + 1) ∧ KeepsRegsBut [.sp, .pc] s t
      ∧ t.p = { i := (byteAt s s.sp).getLsbD 4, v := (byteAt s s.sp).getLsbD 3, c := (byteAt s s.sp).getLsbD 2,
                n := (byteAt s s.sp).getLsbD 1, z := (byteAt s s.sp).getLsbD 0 }
      ∧ SameBytes s t ∧ SameRest s t

/-- RTI at the handler's address undoes a trap entry of any cause: `pc` is the return PC, and every other register and every flag is
as before the trap (R325). RTI runs on what the entry leaves, with no recognition point between: that a stack in a device's bytes reads
back there what was stored is the model's choice (log 7), where R63 makes the reads draws. Rests on the spec's decisions D7, D31 and D43
(log 9). -/
def Obligations.RtiReturnsFromAnyTrap : Prop :=
  ∀ (cause : Cause) (retpc : Word) (s : State), TrapReady cause s →
    ∃ t, exec .rti (trapEntry cause retpc s) = .next t ∧ t.pc = retpc ∧ KeepsRegsBut [.pc] s t ∧ t.p = s.p

/-- At a recognition point NMI is looked at first and nothing masks it; IRQ is taken when `I` is 0; both with `pc` as the return PC, asleep
or awake. With `I = 1` an IRQ request is ignored by an awake core: the step is the one without the request (R312, R313, R315, R335).
Rests on the spec's decisions D32, D33, D34 and D37 (log 9); one entry of `requests` per step is log 5. -/
def Obligations.RequestsAreTakenBetweenInstructions : Prop :=
  ∀ s : State, s.halted = false →
    (s.request.nmi = true → step s = .next (trapEntry .nmi s.pc s.sampled))
    ∧ (s.request.nmi = false → s.request.irq = true → s.p.i = false → step s = .next (trapEntry .irq s.pc s.sampled))
    ∧ (s.request.nmi = false → s.request.irq = true → s.p.i = true → s.sleeping = false →
        step s = step { s with requests := { s.request with irq := false } :: s.requests.tail })

/-- A sleeping core stays asleep with all its state while nothing is requested, and a masked IRQ request wakes it without being taken
(R283, R335). What every recognition point does beside: one entry of `requests` is used up, and its draws become those of the step; nothing
else changes. A device's byte reads to the instruction's accesses, to the fetch and to a trap entry's vector read each as the last byte
that read's own list gives for it, and every other byte reads as memory holds it (R63, R65). Rests on the spec's decisions D28, D34, D37 and
D38 (log 9); one entry of `requests` per step is log 5, the three lists are log 7. -/
def Obligations.SleepingCoreWaitsForARequest : Prop :=
  (∀ s : State, s.halted = false → s.sleeping = true → s.request.nmi = false →
    (s.request.irq = false → step s = .next s.sampled)
    ∧ (s.request.irq = true → s.p.i = true → step s = .next (s.sampled.setSleeping false)))
  ∧ ∀ s : State, KeepsRegsBut [] s s.sampled ∧ s.sampled.p = s.p ∧ s.sampled.sleeping = s.sleeping ∧ s.sampled.halted = s.halted
      ∧ s.sampled.present = s.present ∧ s.sampled.requests = s.requests.tail ∧ s.sampled.calls = s.calls
      ∧ s.sampled.fetchDraws = s.request.fetchDraws ∧ s.sampled.vectorDraws = s.request.vectorDraws
      ∧ ∀ x, byteAt s.sampled x = (if s.isDevice x then lastByte s.request.dataDraws x (byteAt s x) else byteAt s x)
        ∧ byteAt s.fetchView x = (if s.isDevice x then lastByte s.fetchDraws x (byteAt s x) else byteAt s x)
        ∧ byteAt s.vectorView x = (if s.isDevice x then lastByte s.vectorDraws x (byteAt s x) else byteAt s x)

/-- SYS does what the platform's `SysCall` answers (R284): a change of registers, flags, `sleeping` and memory where the bytes the call reads
and stores exist; where one does not, IllegalAddress and no other trap (R56, R57, R301, R304, R306); a platform that answers no call is the
default, and SYS is refused. That the answers stand in `calls`, one used up a call, is the model's choice (log 6). -/
def Obligations.SysDoesWhatThePlatformAnswers : Prop :=
  ∀ (sz : Size) (k : Word) (s : State),
    (s.calls = [] → exec (.sys sz k) s = .refused (.sysCall k))
    ∧ (∀ a rest, s.calls = a :: rest → AnswerReady s a →
        ∃ t, exec (.sys sz k) s = .next t ∧ t.regs = a.regs ∧ t.p = a.p ∧ t.sleeping = a.sleeping ∧ t.halted = s.halted
          ∧ t.present = s.present ∧ t.requests = s.requests ∧ t.calls = rest ∧ t.fetchDraws = s.fetchDraws
          ∧ t.vectorDraws = s.vectorDraws ∧ ∀ x, byteAt t x = lastByte a.stores x (byteAt s x))
    ∧ ∀ a rest, s.calls = a :: rest → ¬ AnswerReady s a →
        exec (.sys sz k) s = .next (trapEntry .illegalAddress (s.pc + BitVec.ofNat 32 (2 + sz.bytes)) (s.setCalls rest))

/-! ### Reset and invariants -/

/-- The reset sequence loads `pc` from `$0000` and `SP` from `$0004`, awake and running, and keeps memory; a vector that does not exist
halts the core (R33, R350). Rests on the spec's decision D36 (log 9). -/
def Obligations.ResetLoadsPcAndSpFromTheVectors : Prop :=
  ∀ s : State,
    (BytesExist s 0 8 →
      (resetSequence s).pc = valueAt s 32 0 ∧ (resetSequence s).sp = valueAt s 32 4 ∧ (resetSequence s).sleeping = false
        ∧ (resetSequence s).halted = false ∧ SameBytes s (resetSequence s))
    ∧ (¬ BytesExist s 0 8 → (resetSequence s).halted = true)

/-- The state after reset is what the reset sequence leaves, from the memory and the existence map the model names for reset (log 3, log 4);
it is awake and not halted. -/
def Obligations.ResetStateIsWhatTheResetSequenceLeaves : Prop :=
  resetSequence State.reset = State.reset ∧ State.reset.sleeping = false ∧ State.reset.halted = false

/-- Every step keeps memory in canonical form with every entry at an address that exists: the model's own invariant (log 3, log 4). -/
def Obligations.StepKeepsMemoryCanonicalAndBacked : Prop :=
  ∀ s t : State, MemInv s = true → step s = .next t → MemInv t = true

/-- The state after reset has the invariant; its empty memory is the model's choice (log 3). -/
def Obligations.ResetHasTheInvariant : Prop := MemInv State.reset = true

/-- No step changes a byte that does not exist, or which bytes exist (R57, R58). Rests on the spec's decision D28 (log 9). -/
def Obligations.StepNeverChangesMissingBytes : Prop :=
  ∀ s t : State, step s = .next t → t.present = s.present ∧ ∀ x, s.exists? x = false → byteAt t x = byteAt s x

/-- Only a trap entry that meets a byte that does not exist halts the core: a step to a halted state is such an entry, from a state with the
registers but `pc`, the flags and the existing bytes of before; and where the five bytes below the stack pointer and the vector table
exist before the step, the core runs on (R324, R353). Rests on the spec's decision D35 (log 9). -/
def Obligations.CoreHaltsOnlyInAFailedTrapEntry : Prop :=
  ∀ s t : State, step s = .next t →
    (t.halted = true → ∃ cause retpc u, t = trapEntry cause retpc u ∧ ¬ TrapReady cause u ∧ KeepsRegsBut [.pc] s u ∧ u.p = s.p
        ∧ u.present = s.present)
    ∧ (BytesExist s (s.sp - 5) 5 → BytesExist s 0 32 → t.halted = false)
end

