-- ==== Sys2Proof/Laws/Decode.lean ====
section
/-! SUPPORT. Each part of the decoder reads back what the encoder writes for it. -/

namespace Sys2Proof

/-! ### Fields -/

theorem fieldBytes_length (k v) : (fieldBytes k v).length = k := by
  induction k generalizing v with
  | zero => rfl
  | succ k ih => simp [fieldBytes, ih]

theorem leValue_fieldBytes (k : Nat) (v : Word) : leValue (fieldBytes k v) = v.toNat % 2 ^ (8 * k) := by
  induction k generalizing v with
  | zero => simp [fieldBytes, leValue, Nat.mod_one]
  | succ k ih =>
    rw [fieldBytes, leValue, ih]
    have : 8 * (k + 1) = 8 + 8 * k := by ring
    rw [this, Nat.pow_add, Nat.mod_mul]
    simp [Nat.shiftRight_eq_div_pow]

theorem takeField_fieldBytes (k : Nat) (v : Word) (rest) (h : v.toNat < 2 ^ (8 * k)) : takeField k (fieldBytes k v ++ rest) = .ok v rest := by
  rw [takeField, if_neg (by simp [fieldBytes_length])]
  rw [List.take_left' (fieldBytes_length k v), List.drop_left' (fieldBytes_length k v), leValue_fieldBytes, Nat.mod_eq_of_lt h]
  simp

theorem takeField_four (v : Word) (rest) : takeField 4 (fieldBytes 4 v ++ rest) = .ok v rest := takeField_fieldBytes 4 v rest v.isLt

theorem eight_mul_bytes (sz : Size) : 8 * sz.bytes = sz.bits := by cases sz <;> rfl

theorem takeField_size (sz : Size) (v : Word) (rest) (h : fitsSize sz v = true) : takeField sz.bytes (fieldBytes sz.bytes v ++ rest) = .ok v rest := by
  apply takeField_fieldBytes; rw [eight_mul_bytes]; exact of_decide_eq_true h

/-! ### Selectors -/

theorem takeReg_selector (r rest) : takeReg (selector r :: rest) = .ok r rest := by cases r <;> rfl

theorem takeRegs_selectors (a b rest) : takeRegs (selectors a b :: rest) = .ok (a, b) rest := by cases a <;> cases b <;> rfl

/-! ### Words -/

theorem ofBytes_bytes (h : Head) : Head.ofBytes (h.size ++ h.code) (h.config ++ h.mode) = h := by
  obtain ⟨c, s, m, r⟩ := h
  simp only [Head.ofBytes, Head.mk.injEq]
  refine ⟨?_, ?_, ?_, ?_⟩
  · revert c s; decide
  · revert c s; decide
  · revert m r; decide
  · revert m r; decide

theorem bytes_ofBytes (lo hi : Byte) : (Head.ofBytes lo hi).bytes = [lo, hi] := by
  have h1 : ∀ lo : Byte, (lo.extractLsb' 6 2 ++ lo.extractLsb' 0 6 : BitVec 8) = lo := by decide
  have h2 : ∀ hi : Byte, (hi.extractLsb' 5 3 ++ hi.extractLsb' 0 5 : BitVec 8) = hi := by decide
  simp only [Head.bytes, Head.ofBytes]
  exact congrArg₂ (fun a b => [a, b]) (h1 lo) (h2 hi)

theorem Size.ofField_field (sz : Size) : Size.ofField sz.field = some sz := by cases sz <;> rfl

end Sys2Proof
end

