-- ==== Sys2Proof/Laws/State.lean ====
section
/-! SUPPORT. One lemma per field per update of the state, true by rfl, so that no proof unfolds a record update. -/

namespace Sys2Proof.Machine

/-! ### Registers -/

theorem Regs.get_set (x : Regs) (i j : Reg) (v : Word) : (x.set i v).get j = if j = i then v else x.get j := by
  cases i <;> cases j <;> rfl

theorem Regs.set_get_self (x : Regs) (i : Reg) : x.set i (x.get i) = x := by
  cases i <;> rfl

theorem Regs.ext_get {x y : Regs} (h : ∀ i, x.get i = y.get i) : x = y := by
  obtain ⟨_, _, _, _, _, _, _, _, _, _, _, _, _, _, _, _⟩ := x
  obtain ⟨_, _, _, _, _, _, _, _, _, _, _, _, _, _, _, _⟩ := y
  have h0 := h .r0
  have h1 := h .r1
  have h2 := h .r2
  have h3 := h .r3
  have h4 := h .r4
  have h5 := h .r5
  have h6 := h .r6
  have h7 := h .r7
  have h8 := h .r8
  have h9 := h .r9
  have h10 := h .r10
  have h11 := h .r11
  have h12 := h .r12
  have h13 := h .r13
  have h14 := h .sp
  have h15 := h .pc
  simp only [Regs.get] at h0 h1 h2 h3 h4 h5 h6 h7 h8 h9 h10 h11 h12 h13 h14 h15
  subst_vars
  rfl

/-- Reading a register after a register write. -/
@[simp] theorem State.reg_setReg (s : State) (i j : Reg) (v : Word) :
    (s.setReg i v).reg j = if j = i then v else s.reg j := Regs.get_set s.regs i j v

theorem State.setReg_reg_self (s : State) (i : Reg) : s.setReg i (s.reg i) = s := by
  show { s with regs := s.regs.set i (s.regs.get i) } = s
  rw [Regs.set_get_self]

/-- Two states with the same registers, flags and rest are the same. -/
theorem State.ext_reg {s t : State} (hr : ∀ i, s.reg i = t.reg i) (hp : s.p = t.p) (hs : s.sleeping = t.sleeping)
    (hh : s.halted = t.halted) (hm : s.mem = t.mem) (he : s.present = t.present) (hq : s.requests = t.requests)
    (hf : s.fetchDraws = t.fetchDraws) (hv : s.vectorDraws = t.vectorDraws) (hc : s.calls = t.calls) : s = t := by
  have hx : s.regs = t.regs := Regs.ext_get hr
  cases s
  cases t
  simp only at hx hp hs hh hm he hq hf hv hc
  subst_vars
  rfl

@[simp] theorem State.reg_pc (s : State) : s.reg .pc = s.pc := rfl
@[simp] theorem State.reg_sp (s : State) : s.reg .sp = s.sp := rfl

/-! ### `setReg` -/

@[simp] theorem State.setReg_p (s : State) (i : Reg) (v : Word) : (s.setReg i v).p = s.p := rfl
@[simp] theorem State.setReg_sleeping (s : State) (i : Reg) (v : Word) : (s.setReg i v).sleeping = s.sleeping := rfl
@[simp] theorem State.setReg_halted (s : State) (i : Reg) (v : Word) : (s.setReg i v).halted = s.halted := rfl
@[simp] theorem State.setReg_mem (s : State) (i : Reg) (v : Word) : (s.setReg i v).mem = s.mem := rfl
@[simp] theorem State.setReg_present (s : State) (i : Reg) (v : Word) : (s.setReg i v).present = s.present := rfl
@[simp] theorem State.setReg_requests (s : State) (i : Reg) (v : Word) : (s.setReg i v).requests = s.requests := rfl
@[simp] theorem State.setReg_fetchDraws (s : State) (i : Reg) (v : Word) : (s.setReg i v).fetchDraws = s.fetchDraws := rfl
@[simp] theorem State.setReg_vectorDraws (s : State) (i : Reg) (v : Word) : (s.setReg i v).vectorDraws = s.vectorDraws := rfl
@[simp] theorem State.setReg_calls (s : State) (i : Reg) (v : Word) : (s.setReg i v).calls = s.calls := rfl

/-! ### `setPc` -/

@[simp] theorem State.setPc_p (s : State) (v : Word) : (s.setPc v).p = s.p := rfl
@[simp] theorem State.setPc_sleeping (s : State) (v : Word) : (s.setPc v).sleeping = s.sleeping := rfl
@[simp] theorem State.setPc_halted (s : State) (v : Word) : (s.setPc v).halted = s.halted := rfl
@[simp] theorem State.setPc_mem (s : State) (v : Word) : (s.setPc v).mem = s.mem := rfl
@[simp] theorem State.setPc_present (s : State) (v : Word) : (s.setPc v).present = s.present := rfl
@[simp] theorem State.setPc_requests (s : State) (v : Word) : (s.setPc v).requests = s.requests := rfl
@[simp] theorem State.setPc_fetchDraws (s : State) (v : Word) : (s.setPc v).fetchDraws = s.fetchDraws := rfl
@[simp] theorem State.setPc_vectorDraws (s : State) (v : Word) : (s.setPc v).vectorDraws = s.vectorDraws := rfl
@[simp] theorem State.setPc_calls (s : State) (v : Word) : (s.setPc v).calls = s.calls := rfl
@[simp] theorem State.setPc_reg (s : State) (v : Word) (j : Reg) :
    (s.setPc v).reg j = if j = .pc then v else s.reg j := State.reg_setReg s .pc j v
@[simp] theorem State.setPc_pc (s : State) (v : Word) : (s.setPc v).pc = v := rfl
@[simp] theorem State.setPc_sp (s : State) (v : Word) : (s.setPc v).sp = s.sp := rfl

/-! ### `setSp` -/

@[simp] theorem State.setSp_p (s : State) (v : Word) : (s.setSp v).p = s.p := rfl
@[simp] theorem State.setSp_sleeping (s : State) (v : Word) : (s.setSp v).sleeping = s.sleeping := rfl
@[simp] theorem State.setSp_halted (s : State) (v : Word) : (s.setSp v).halted = s.halted := rfl
@[simp] theorem State.setSp_mem (s : State) (v : Word) : (s.setSp v).mem = s.mem := rfl
@[simp] theorem State.setSp_present (s : State) (v : Word) : (s.setSp v).present = s.present := rfl
@[simp] theorem State.setSp_requests (s : State) (v : Word) : (s.setSp v).requests = s.requests := rfl
@[simp] theorem State.setSp_fetchDraws (s : State) (v : Word) : (s.setSp v).fetchDraws = s.fetchDraws := rfl
@[simp] theorem State.setSp_vectorDraws (s : State) (v : Word) : (s.setSp v).vectorDraws = s.vectorDraws := rfl
@[simp] theorem State.setSp_calls (s : State) (v : Word) : (s.setSp v).calls = s.calls := rfl
@[simp] theorem State.setSp_reg (s : State) (v : Word) (j : Reg) :
    (s.setSp v).reg j = if j = .sp then v else s.reg j := State.reg_setReg s .sp j v
@[simp] theorem State.setSp_sp (s : State) (v : Word) : (s.setSp v).sp = v := rfl
@[simp] theorem State.setSp_pc (s : State) (v : Word) : (s.setSp v).pc = s.pc := rfl

/-! ### `setStatus` -/

@[simp] theorem State.setStatus_p (s : State) (q : Status) : (s.setStatus q).p = q := rfl
@[simp] theorem State.setStatus_sleeping (s : State) (q : Status) : (s.setStatus q).sleeping = s.sleeping := rfl
@[simp] theorem State.setStatus_halted (s : State) (q : Status) : (s.setStatus q).halted = s.halted := rfl
@[simp] theorem State.setStatus_mem (s : State) (q : Status) : (s.setStatus q).mem = s.mem := rfl
@[simp] theorem State.setStatus_present (s : State) (q : Status) : (s.setStatus q).present = s.present := rfl
@[simp] theorem State.setStatus_requests (s : State) (q : Status) : (s.setStatus q).requests = s.requests := rfl
@[simp] theorem State.setStatus_fetchDraws (s : State) (q : Status) : (s.setStatus q).fetchDraws = s.fetchDraws := rfl
@[simp] theorem State.setStatus_vectorDraws (s : State) (q : Status) : (s.setStatus q).vectorDraws = s.vectorDraws := rfl
@[simp] theorem State.setStatus_calls (s : State) (q : Status) : (s.setStatus q).calls = s.calls := rfl
@[simp] theorem State.setStatus_reg (s : State) (q : Status) (j : Reg) : (s.setStatus q).reg j = s.reg j := rfl
@[simp] theorem State.setStatus_pc (s : State) (q : Status) : (s.setStatus q).pc = s.pc := rfl
@[simp] theorem State.setStatus_sp (s : State) (q : Status) : (s.setStatus q).sp = s.sp := rfl

/-! ### `setMem` -/

@[simp] theorem State.setMem_p (s : State) (m : Memory) : (s.setMem m).p = s.p := rfl
@[simp] theorem State.setMem_sleeping (s : State) (m : Memory) : (s.setMem m).sleeping = s.sleeping := rfl
@[simp] theorem State.setMem_halted (s : State) (m : Memory) : (s.setMem m).halted = s.halted := rfl
@[simp] theorem State.setMem_mem (s : State) (m : Memory) : (s.setMem m).mem = m := rfl
@[simp] theorem State.setMem_present (s : State) (m : Memory) : (s.setMem m).present = s.present := rfl
@[simp] theorem State.setMem_requests (s : State) (m : Memory) : (s.setMem m).requests = s.requests := rfl
@[simp] theorem State.setMem_fetchDraws (s : State) (m : Memory) : (s.setMem m).fetchDraws = s.fetchDraws := rfl
@[simp] theorem State.setMem_vectorDraws (s : State) (m : Memory) : (s.setMem m).vectorDraws = s.vectorDraws := rfl
@[simp] theorem State.setMem_calls (s : State) (m : Memory) : (s.setMem m).calls = s.calls := rfl
@[simp] theorem State.setMem_reg (s : State) (m : Memory) (j : Reg) : (s.setMem m).reg j = s.reg j := rfl
@[simp] theorem State.setMem_pc (s : State) (m : Memory) : (s.setMem m).pc = s.pc := rfl
@[simp] theorem State.setMem_sp (s : State) (m : Memory) : (s.setMem m).sp = s.sp := rfl

/-! ### `setSleeping` -/

@[simp] theorem State.setSleeping_p (s : State) (b : Bool) : (s.setSleeping b).p = s.p := rfl
@[simp] theorem State.setSleeping_sleeping (s : State) (b : Bool) : (s.setSleeping b).sleeping = b := rfl
@[simp] theorem State.setSleeping_halted (s : State) (b : Bool) : (s.setSleeping b).halted = s.halted := rfl
@[simp] theorem State.setSleeping_mem (s : State) (b : Bool) : (s.setSleeping b).mem = s.mem := rfl
@[simp] theorem State.setSleeping_present (s : State) (b : Bool) : (s.setSleeping b).present = s.present := rfl
@[simp] theorem State.setSleeping_requests (s : State) (b : Bool) : (s.setSleeping b).requests = s.requests := rfl
@[simp] theorem State.setSleeping_fetchDraws (s : State) (b : Bool) : (s.setSleeping b).fetchDraws = s.fetchDraws := rfl
@[simp] theorem State.setSleeping_vectorDraws (s : State) (b : Bool) : (s.setSleeping b).vectorDraws = s.vectorDraws := rfl
@[simp] theorem State.setSleeping_calls (s : State) (b : Bool) : (s.setSleeping b).calls = s.calls := rfl
@[simp] theorem State.setSleeping_reg (s : State) (b : Bool) (j : Reg) : (s.setSleeping b).reg j = s.reg j := rfl
@[simp] theorem State.setSleeping_pc (s : State) (b : Bool) : (s.setSleeping b).pc = s.pc := rfl
@[simp] theorem State.setSleeping_sp (s : State) (b : Bool) : (s.setSleeping b).sp = s.sp := rfl

/-! ### `setCalls` -/

@[simp] theorem State.setCalls_p (s : State) (l : List SysAnswer) : (s.setCalls l).p = s.p := rfl
@[simp] theorem State.setCalls_sleeping (s : State) (l : List SysAnswer) : (s.setCalls l).sleeping = s.sleeping := rfl
@[simp] theorem State.setCalls_halted (s : State) (l : List SysAnswer) : (s.setCalls l).halted = s.halted := rfl
@[simp] theorem State.setCalls_mem (s : State) (l : List SysAnswer) : (s.setCalls l).mem = s.mem := rfl
@[simp] theorem State.setCalls_present (s : State) (l : List SysAnswer) : (s.setCalls l).present = s.present := rfl
@[simp] theorem State.setCalls_requests (s : State) (l : List SysAnswer) : (s.setCalls l).requests = s.requests := rfl
@[simp] theorem State.setCalls_fetchDraws (s : State) (l : List SysAnswer) : (s.setCalls l).fetchDraws = s.fetchDraws := rfl
@[simp] theorem State.setCalls_vectorDraws (s : State) (l : List SysAnswer) : (s.setCalls l).vectorDraws = s.vectorDraws := rfl
@[simp] theorem State.setCalls_calls (s : State) (l : List SysAnswer) : (s.setCalls l).calls = l := rfl
@[simp] theorem State.setCalls_reg (s : State) (l : List SysAnswer) (j : Reg) : (s.setCalls l).reg j = s.reg j := rfl
@[simp] theorem State.setCalls_pc (s : State) (l : List SysAnswer) : (s.setCalls l).pc = s.pc := rfl
@[simp] theorem State.setCalls_sp (s : State) (l : List SysAnswer) : (s.setCalls l).sp = s.sp := rfl

/-! ### `halt` -/

@[simp] theorem State.halt_p (s : State) : s.halt.p = s.p := rfl
@[simp] theorem State.halt_sleeping (s : State) : s.halt.sleeping = s.sleeping := rfl
@[simp] theorem State.halt_halted (s : State) : s.halt.halted = true := rfl
@[simp] theorem State.halt_mem (s : State) : s.halt.mem = s.mem := rfl
@[simp] theorem State.halt_present (s : State) : s.halt.present = s.present := rfl
@[simp] theorem State.halt_requests (s : State) : s.halt.requests = s.requests := rfl
@[simp] theorem State.halt_fetchDraws (s : State) : s.halt.fetchDraws = s.fetchDraws := rfl
@[simp] theorem State.halt_vectorDraws (s : State) : s.halt.vectorDraws = s.vectorDraws := rfl
@[simp] theorem State.halt_calls (s : State) : s.halt.calls = s.calls := rfl
@[simp] theorem State.halt_reg (s : State) (j : Reg) : s.halt.reg j = s.reg j := rfl
@[simp] theorem State.halt_pc (s : State) : s.halt.pc = s.pc := rfl
@[simp] theorem State.halt_sp (s : State) : s.halt.sp = s.sp := rfl

end Sys2Proof.Machine
end

