-- ==== Sys2Proof/Laws/Flags.lean ====
section
/-! SUPPORT. For each flag computation of Machine/Flags.lean, one lemma that says what it gives and which flags it keeps. -/

namespace Sys2Proof.Machine

open Sys2Proof.Claims

/-- `SetNZ` in the claims' words (R145). -/
theorem setNZ_eq {n : Nat} (p : Status) (r : BitVec n) : setNZ p r = nzFlags p r := by
  simp only [setNZ, nzFlags, BitVec.msb_eq_getLsbD_last]
  congr 1
  rw [decide_eq_decide]
  exact ⟨fun h => by rw [h]; simp, fun h => BitVec.eq_of_toNat_eq (by simpa using h)⟩

/-- Only `N` and `Z` change (R150). -/
theorem nzResult_ok {n : Nat} {p : Status} {x : BitVec n} {r : BitVec n × Status} (h : nzResult p x = .ok r) :
    r.1 = x ∧ r.2 = nzFlags p x ∧ r.2.i = p.i ∧ r.2.v = p.v ∧ r.2.c = p.c := by
  cases h
  exact ⟨rfl, setNZ_eq p x, rfl, rfl, rfl⟩

/-- An addition or subtraction keeps `I` alone (R150). -/
theorem sumResult_ok {n : Nat} {p : Status} {x : Sum n} {r : BitVec n × Status} (h : sumResult p x = .ok r) :
    r.1 = x.result ∧ r.2.c = x.carry ∧ r.2.v = x.overflow ∧ r.2.n = x.result.msb ∧ r.2.z = decide (x.result = 0) ∧ r.2.i = p.i := by
  cases h
  exact ⟨rfl, rfl, rfl, rfl, rfl, rfl⟩

/-- A shift or rotate keeps `I` and `V` (R150). -/
theorem shiftResult_ok {n : Nat} {p : Status} {x : Shifted n} {r : BitVec n × Status} (h : shiftResult p x = .ok r) :
    r.1 = x.result ∧ r.2.c = x.carry.getD p.c ∧ r.2.i = p.i ∧ r.2.v = p.v := by
  cases h
  exact ⟨rfl, rfl, rfl, rfl⟩

/-- A divisor that is not zero gives the quotient, a zero divisor the trap (R177). -/
theorem aluDiv_cases {n : Nat} (a b : BitVec n) (p : Status) :
    (b ≠ 0 ∧ aluDiv n a b p = .ok (divQuotient a b, setNZ p (divQuotient a b)))
      ∨ (b = 0 ∧ aluDiv n a b p = .error .divisionByZero) := by
  by_cases h : b = 0
  · exact .inr ⟨h, by rw [aluDiv, if_pos h]⟩
  · exact .inl ⟨h, by rw [aluDiv, if_neg h, nzResult]⟩

/-- Sign extension changes one register and `N`, `Z` (R162, R163). -/
theorem extendReg_evolves (n : Nat) (rx : Reg) (s : State) :
    (extendReg n rx s).mem = s.mem ∧ (extendReg n rx s).present = s.present
      ∧ (∀ j, (extendReg n rx s).reg j = if j = rx then sextLow n (s.reg rx) else s.reg j)
      ∧ (extendReg n rx s).p = nzFlags s.p (sextLow n (s.reg rx)) := by
  refine ⟨rfl, rfl, fun j => ?_, setNZ_eq _ _⟩
  rw [extendReg, State.setStatus_reg, State.reg_setReg]

end Sys2Proof.Machine
end

