-- ==== Sys2Proof/Laws/Memory.lean ====
section
/-! SUPPORT. Reading after writing, and the canonical form under every memory operation. -/

namespace Sys2Proof.Machine

/-! ### One byte -/

@[simp] theorem Memory.read_nil (a : Nat) : Memory.read [] a = Config.unlistedByte := rfl

theorem Memory.read_cons (k : Nat) (b : Byte) (rest : Memory) (x : Nat) :
    Memory.read ((k, b) :: rest) x = if k = x then b else Memory.read rest x := rfl

theorem Memory.read_without (m : Memory) (a x : Nat) :
    Memory.read (m.filter fun c => decide (c.1 ≠ a)) x = if a = x then Config.unlistedByte else Memory.read m x := by
  induction m with
  | nil => simp
  | cons c rest ih =>
    obtain ⟨k, b⟩ := c
    by_cases hk : k = a
    · subst hk
      rw [List.filter_cons_of_neg (by simp), ih, Memory.read_cons]
      split <;> rfl
    · rw [List.filter_cons_of_pos (by simpa using hk), Memory.read_cons, ih, Memory.read_cons]
      by_cases hx : k = x
      · have : a ≠ x := fun h => hk (hx.trans h.symm)
        simp [hx, this]
      · simp [hx]

theorem Memory.read_insertCell (m : Memory) (a : Nat) (b : Byte) (h : ∀ c ∈ m, c.1 ≠ a) (x : Nat) :
    Memory.read (Memory.insertCell m a b) x = if a = x then b else Memory.read m x := by
  induction m with
  | nil => rfl
  | cons c rest ih =>
    obtain ⟨k, v⟩ := c
    have hka : k ≠ a := h _ List.mem_cons_self
    rw [Memory.insertCell]
    split
    · rw [Memory.read_cons]
    · rw [Memory.read_cons, ih fun c hc => h c (List.mem_cons_of_mem _ hc), Memory.read_cons]
      by_cases hx : k = x
      · have : a ≠ x := fun e => hka (hx.trans e.symm)
        simp [hx, this]
      · simp [hx]

/-- A byte written is read back, and every other byte reads as before, in canonical form or not. -/
theorem Memory.read_write (m : Memory) (a : Nat) (b : Byte) (x : Nat) :
    Memory.read (Memory.write m a b) x = if a = x then b else Memory.read m x := by
  rw [Memory.write]
  split
  · rename_i hb
    rw [Memory.read_without, hb]
  · rw [Memory.read_insertCell _ _ _ (by simp), Memory.read_without]
    split <;> rfl

/-! ### The canonical form -/

theorem Memory.wf_iff (m : Memory) :
    m.wf = true ↔ m.Pairwise (fun c d => c.1 < d.1)
      ∧ ∀ c ∈ m, c.1 < Config.addressSpace ∧ c.2 ≠ Config.unlistedByte := by
  simp [Memory.wf]

theorem Memory.mem_insertCell (m : Memory) (a : Nat) (b : Byte) (c : Host.Cell) :
    c ∈ Memory.insertCell m a b ↔ c = (a, b) ∨ c ∈ m := by
  induction m with
  | nil => simp [Memory.insertCell]
  | cons d rest ih =>
    obtain ⟨k, v⟩ := d
    rw [Memory.insertCell]
    split
    · simp
    · rw [List.mem_cons, ih, List.mem_cons]
      tauto

theorem Memory.insertCell_pairwise (m : Memory) (a : Nat) (b : Byte) (h : ∀ c ∈ m, c.1 ≠ a)
    (hp : m.Pairwise fun c d => c.1 < d.1) : (Memory.insertCell m a b).Pairwise fun c d => c.1 < d.1 := by
  induction m with
  | nil => simp [Memory.insertCell]
  | cons d rest ih =>
    obtain ⟨k, v⟩ := d
    rw [List.pairwise_cons] at hp
    have hka : k ≠ a := h _ List.mem_cons_self
    rw [Memory.insertCell]
    split
    · rename_i hlt
      refine List.pairwise_cons.2 ⟨fun c hc => ?_, List.pairwise_cons.2 hp⟩
      rcases List.mem_cons.1 hc with rfl | hc
      · exact hlt
      · exact hlt.trans (hp.1 c hc)
    · rename_i hlt
      refine List.pairwise_cons.2 ⟨fun c hc => ?_, ih (fun c hc => h c (List.mem_cons_of_mem _ hc)) hp.2⟩
      rcases (Memory.mem_insertCell rest a b c).1 hc with rfl | hc
      · show k < a
        omega
      · exact hp.1 c hc

/-- A write within the address space keeps the canonical form. -/
theorem Memory.write_wf (m : Memory) (a : Nat) (b : Byte) (ha : a < Config.addressSpace) (h : m.wf = true) :
    (Memory.write m a b).wf = true := by
  rw [Memory.wf_iff] at h ⊢
  obtain ⟨hp, hc⟩ := h
  have hp' := hp.filter fun c => decide (c.1 ≠ a)
  have hc' : ∀ c ∈ m.filter (fun c => decide (c.1 ≠ a)), c.1 < Config.addressSpace ∧ c.2 ≠ Config.unlistedByte :=
    fun c h => hc c (List.mem_of_mem_filter h)
  rw [Memory.write]
  split
  · exact ⟨hp', hc'⟩
  · rename_i hb
    refine ⟨Memory.insertCell_pairwise _ _ _ (by simp) hp', fun c h => ?_⟩
    rcases (Memory.mem_insertCell _ a b c).1 h with rfl | h
    · exact ⟨ha, hb⟩
    · exact hc' c h

theorem Memory.writeLE_wf (m : Memory) (a : Word) (k v : Nat) (h : m.wf = true) : (Memory.writeLE m a k v).wf = true := by
  induction k generalizing m a v with
  | zero => exact h
  | succ k ih => exact ih _ _ _ (Memory.write_wf m _ _ a.isLt h)

/-- An entry after a write is the written byte or an entry from before. -/
theorem Memory.mem_write (m : Memory) (a : Nat) (b : Byte) (c : Host.Cell) (h : c ∈ Memory.write m a b) :
    c = (a, b) ∨ c ∈ m := by
  rw [Memory.write] at h
  split at h
  · exact .inr (List.mem_of_mem_filter h)
  · exact ((Memory.mem_insertCell _ a b c).1 h).imp_right List.mem_of_mem_filter

/-- What each byte reads as after a list of writes: the last of them at its address, where `ok` accepts it. -/
theorem Memory.read_writeWhere (ok : Word → Bool) (m : Memory) (l : List (Word × Byte)) (x : Word) :
    Memory.read (Memory.writeWhere ok m l) x.toNat =
      if ok x then l.foldl (fun b c => if c.1 = x then c.2 else b) (Memory.read m x.toNat) else Memory.read m x.toNat := by
  induction l generalizing m with
  | nil => simp [Memory.writeWhere]
  | cons c l ih =>
    obtain ⟨a, b⟩ := c
    rw [Memory.writeWhere, ih, List.foldl_cons]
    by_cases hax : a = x
    · subst hax
      cases h : ok a <;> simp [Memory.read_write]
    · have hne : a.toNat ≠ x.toNat := fun e => hax (BitVec.eq_of_toNat_eq e)
      cases h : ok a <;> simp [Memory.read_write, hne, hax]

/-! ### Little-endian values -/

/-- The offset of `x` from the byte after `a`, where `x` is not `a`. -/
theorem offset_succ (a x : Word) (h : x ≠ a) : (x - a).toNat = (x - (a + 1)).toNat + 1 := by
  bv_omega

theorem offset_self (a : Word) : (a - (a + 1)).toNat = 2 ^ 32 - 1 := by
  bv_omega

/-- What each byte reads as after a multi-byte write: the `j`-th byte of the value at offset `j`, the old byte elsewhere. -/
theorem Memory.read_writeLE (m : Memory) (a : Word) (k v : Nat) (hk : k < 2 ^ 32) (x : Word) :
    Memory.read (Memory.writeLE m a k v) x.toNat =
      if (x - a).toNat < k then BitVec.ofNat 8 (v / 256 ^ (x - a).toNat) else Memory.read m x.toNat := by
  induction k generalizing m a v with
  | zero => simp [Memory.writeLE]
  | succ k ih =>
    rw [Memory.writeLE, ih _ _ _ (by omega), Memory.read_write]
    by_cases hx : x = a
    · subst hx
      rw [offset_self, if_neg (by omega), if_pos rfl, if_pos (by simp)]
      simp
    · have hne : a.toNat ≠ x.toNat := fun e => hx (BitVec.eq_of_toNat_eq e.symm)
      rw [offset_succ a x hx, if_neg hne, pow_succ', Nat.div_div_eq_div_mul]
      simp only [Nat.add_lt_add_iff_right]

theorem Memory.readLE_lt (m : Memory) (a : Word) (k : Nat) : Memory.readLE m a k < 256 ^ k := by
  induction k generalizing a with
  | zero => simp [Memory.readLE]
  | succ k ih =>
    have h1 := ih (a + 1)
    have h2 := (Memory.read m a.toNat).isLt
    rw [Memory.readLE, pow_succ']
    omega

/-- The `j`-th byte of a value read is the byte at offset `j`. -/
theorem Memory.readLE_byte (m : Memory) (a : Word) (k j : Nat) (hj : j < k) :
    BitVec.ofNat 8 (Memory.readLE m a k / 256 ^ j) = Memory.read m (a + BitVec.ofNat 32 j).toNat := by
  induction k generalizing a j with
  | zero => omega
  | succ k ih =>
    have hb := (Memory.read m a.toNat).isLt
    rw [Memory.readLE]
    cases j with
    | zero =>
      apply BitVec.eq_of_toNat_eq
      have h0 : a + BitVec.ofNat 32 0 = a := by simp
      rw [h0]
      simp only [pow_zero, Nat.div_one, BitVec.toNat_ofNat]
      omega
    | succ j =>
      have hd : ((Memory.read m a.toNat).toNat + 256 * Memory.readLE m (a + 1) k) / 256 ^ (j + 1)
          = Memory.readLE m (a + 1) k / 256 ^ j := by
        rw [pow_succ', ← Nat.div_div_eq_div_mul]
        congr 1
        omega
      rw [hd, ih (a + 1) j (by omega)]
      congr 2
      rw [BitVec.add_assoc]
      congr 1
      apply BitVec.eq_of_toNat_eq
      simp [Nat.add_comm]

/-- Two memories that agree on the bytes of an access give the same value. -/
theorem Memory.readLE_congr (m m' : Memory) (a : Word) (k : Nat)
    (h : ∀ j, j < k → Memory.read m (a + BitVec.ofNat 32 j).toNat = Memory.read m' (a + BitVec.ofNat 32 j).toNat) :
    Memory.readLE m a k = Memory.readLE m' a k := by
  induction k generalizing a with
  | zero => rfl
  | succ k ih =>
    have h0 := h 0 (by omega)
    rw [show a + BitVec.ofNat 32 0 = a by simp] at h0
    rw [Memory.readLE, Memory.readLE, h0, ih (a + 1)]
    intro j hj
    have := h (j + 1) (by omega)
    rwa [show a + BitVec.ofNat 32 (j + 1) = a + 1 + BitVec.ofNat 32 j by
      rw [BitVec.add_assoc]; congr 1; apply BitVec.eq_of_toNat_eq; simp [Nat.add_comm]] at this

/-- A value whose bytes are those of `v` is `v`, cut to the width. -/
theorem Memory.readLE_of_bytes (m : Memory) (a : Word) (k v : Nat)
    (h : ∀ j, j < k → Memory.read m (a + BitVec.ofNat 32 j).toNat = BitVec.ofNat 8 (v / 256 ^ j)) :
    Memory.readLE m a k = v % 256 ^ k := by
  induction k generalizing a v with
  | zero => simp [Memory.readLE, Nat.mod_one]
  | succ k ih =>
    have h0 := h 0 (by omega)
    rw [show a + BitVec.ofNat 32 0 = a by simp] at h0
    rw [Memory.readLE, h0, ih (a + 1) (v / 256)]
    · rw [pow_succ', Nat.mod_mul]
      simp
    · intro j hj
      have := h (j + 1) (by omega)
      rw [show a + BitVec.ofNat 32 (j + 1) = a + 1 + BitVec.ofNat 32 j by
        rw [BitVec.add_assoc]; congr 1; apply BitVec.eq_of_toNat_eq; simp [Nat.add_comm]] at this
      rw [this, pow_succ', Nat.div_div_eq_div_mul]

theorem offset_add (a : Word) (j : Nat) (h : j < 2 ^ 32) : (a + BitVec.ofNat 32 j - a).toNat = j := by
  rw [BitVec.add_comm, BitVec.add_sub_cancel]
  simp only [BitVec.toNat_ofNat]
  omega

/-- A value stored is read back, cut to the width. -/
theorem Memory.readLE_writeLE (m : Memory) (a : Word) (k v : Nat) (hk : k < 2 ^ 32) :
    Memory.readLE (Memory.writeLE m a k v) a k = v % 256 ^ k := by
  refine Memory.readLE_of_bytes _ a k v fun j hj => ?_
  rw [Memory.read_writeLE m a k v hk, offset_add a j (by omega), if_pos hj]

end Sys2Proof.Machine
end

