-- ==== Sys2Proof/Laws/Ops.lean ====
section
/-! SUPPORT. For each shared operation of Machine/Ops.lean, one lemma that says everything it can do. -/

namespace Sys2Proof.Machine

/-! ### Which bytes exist -/

theorem State.exists?_congr {s t : State} (h : t.present = s.present) (a : Word) : t.exists? a = s.exists? a := by
  rw [State.exists?, State.exists?, h]

@[simp] theorem State.setReg_exists? (s : State) (i : Reg) (v a : Word) : (s.setReg i v).exists? a = s.exists? a := rfl
@[simp] theorem State.setPc_exists? (s : State) (v a : Word) : (s.setPc v).exists? a = s.exists? a := rfl
@[simp] theorem State.setSp_exists? (s : State) (v a : Word) : (s.setSp v).exists? a = s.exists? a := rfl
@[simp] theorem State.setStatus_exists? (s : State) (q : Status) (a : Word) : (s.setStatus q).exists? a = s.exists? a := rfl
@[simp] theorem State.setMem_exists? (s : State) (m : Memory) (a : Word) : (s.setMem m).exists? a = s.exists? a := rfl
@[simp] theorem State.setSleeping_exists? (s : State) (b : Bool) (a : Word) : (s.setSleeping b).exists? a = s.exists? a := rfl
@[simp] theorem State.halt_exists? (s : State) (a : Word) : s.halt.exists? a = s.exists? a := rfl
@[simp] theorem advance_exists? (len : Nat) (s : State) (a : Word) : (advance len s).exists? a = s.exists? a := rfl

theorem State.allExist_congr {s t : State} (h : t.present = s.present) (a : Word) (k : Nat) :
    t.allExist a k = s.allExist a k := by
  induction k generalizing a with
  | zero => rfl
  | succ k ih => rw [State.allExist, State.allExist, State.exists?_congr h, ih]

theorem add_ofNat_succ (a : Word) (j : Nat) : a + BitVec.ofNat 32 (j + 1) = a + 1 + BitVec.ofNat 32 j := by
  rw [BitVec.add_assoc]
  congr 1
  apply BitVec.eq_of_toNat_eq
  simp [Nat.add_comm]

/-- The bytes of an access exist exactly when each of them does. -/
theorem State.allExist_iff (s : State) (a : Word) (k : Nat) :
    s.allExist a k = true ↔ ∀ j, j < k → s.exists? (a + BitVec.ofNat 32 j) = true := by
  induction k generalizing a with
  | zero => simp [State.allExist]
  | succ k ih =>
    rw [State.allExist, Bool.and_eq_true, ih]
    constructor
    · rintro ⟨h0, h⟩ j hj
      cases j with
      | zero => simpa using h0
      | succ j => rw [add_ofNat_succ]; exact h j (by omega)
    · intro h
      refine ⟨by simpa using h 0 (by omega), fun j hj => ?_⟩
      rw [← add_ofNat_succ]
      exact h (j + 1) (by omega)

theorem State.allExist_iff' (s : State) (a : Word) (k : Nat) (hk : k < 2 ^ 32) :
    s.allExist a k = true ↔ ∀ x : Word, (x - a).toNat < k → s.exists? x = true := by
  rw [State.allExist_iff]
  constructor
  · intro h x hx
    have := h _ hx
    rwa [show a + BitVec.ofNat 32 (x - a).toNat = x by
      rw [BitVec.ofNat_toNat, BitVec.setWidth_eq, BitVec.add_comm, BitVec.sub_add_cancel]] at this
  · intro h j hj
    exact h _ (by rw [offset_add a j (by omega)]; exact hj)

/-! ### What every operation keeps -/

/-- What is true from one state to a later one inside a step: which bytes exist, the requests and `halted` are the same, the
canonical form of memory is kept, every entry stays at an address that exists, and no byte that does not exist changes. -/
structure Evolves (s t : State) : Prop where
  present : t.present = s.present
  requests : t.requests = s.requests
  halted : t.halted = s.halted
  wf : s.mem.wf = true → t.mem.wf = true
  backed : (∀ c ∈ s.mem, s.exists? (BitVec.ofNat 32 c.1) = true) → ∀ c ∈ t.mem, s.exists? (BitVec.ofNat 32 c.1) = true
  missing : ∀ x : Word, s.exists? x = false → t.mem.read x.toNat = s.mem.read x.toNat

theorem Evolves.refl (s : State) : Evolves s s := ⟨rfl, rfl, rfl, id, id, fun _ _ => rfl⟩

theorem Evolves.trans {s t u : State} (h : Evolves s t) (g : Evolves t u) : Evolves s u where
  present := g.present.trans h.present
  requests := g.requests.trans h.requests
  halted := g.halted.trans h.halted
  wf := fun w => g.wf (h.wf w)
  backed := fun b c hc => by
    have := g.backed (fun c hc => (State.exists?_congr h.present _).trans (h.backed b c hc)) c hc
    rwa [State.exists?_congr h.present] at this
  missing := fun x hx => (g.missing x ((State.exists?_congr h.present x).trans hx)).trans (h.missing x hx)

/-- A change of registers, flags or `sleeping` alone. -/
theorem Evolves.of_same_mem {s t : State} (hp : t.present = s.present) (hr : t.requests = s.requests)
    (hh : t.halted = s.halted) (hm : t.mem = s.mem) : Evolves s t :=
  ⟨hp, hr, hh, fun w => by rw [hm]; exact w, fun b => by rw [hm]; exact b, fun x _ => by rw [hm]⟩

theorem Evolves.setReg (s : State) (i : Reg) (v : Word) : Evolves s (s.setReg i v) := .of_same_mem rfl rfl rfl rfl
theorem Evolves.setPc (s : State) (v : Word) : Evolves s (s.setPc v) := .of_same_mem rfl rfl rfl rfl
theorem Evolves.setSp (s : State) (v : Word) : Evolves s (s.setSp v) := .of_same_mem rfl rfl rfl rfl
theorem Evolves.setStatus (s : State) (q : Status) : Evolves s (s.setStatus q) := .of_same_mem rfl rfl rfl rfl
theorem Evolves.setSleeping (s : State) (b : Bool) : Evolves s (s.setSleeping b) := .of_same_mem rfl rfl rfl rfl

/-- Writing bytes that exist. -/
theorem Memory.writeLE_evolves (s : State) (a : Word) (k v : Nat) (h : s.allExist a k = true) :
    Evolves s (s.setMem (s.mem.writeLE a k v)) := by
  induction k generalizing s a v with
  | zero => exact .of_same_mem rfl rfl rfl rfl
  | succ k ih =>
    rw [State.allExist, Bool.and_eq_true] at h
    have h1 : Evolves s (s.setMem (s.mem.write a.toNat (BitVec.ofNat 8 v))) := by
      refine ⟨rfl, rfl, rfl, fun w => Memory.write_wf _ _ _ a.isLt w, fun b c hc => ?_, fun x hx => ?_⟩
      · rcases Memory.mem_write _ _ _ _ hc with rfl | hc
        · simpa using h.1
        · exact b c hc
      · rw [State.setMem_mem, Memory.read_write, if_neg]
        intro e
        rw [BitVec.eq_of_toNat_eq e, hx] at h
        exact absurd h.1 (by simp)
    refine h1.trans (ih _ (a + 1) (v / 256) ?_)
    rw [State.allExist_congr (State.setMem_present s _)]
    exact h.2

/-- Writing what lands on bytes that exist: device bytes, the stores of a system call. -/
theorem Memory.writeWhere_evolves (s : State) (ok : Word → Bool) (l : List (Word × Byte))
    (hok : ∀ c ∈ l, ok c.1 = true → s.exists? c.1 = true) : Evolves s (s.setMem (Memory.writeWhere ok s.mem l)) := by
  suffices h : ∀ m, Evolves s (s.setMem m) → Evolves s (s.setMem (Memory.writeWhere ok m l)) from h s.mem (.refl s)
  induction l with
  | nil => exact fun m h => h
  | cons c l ih =>
    have hc' := hok c List.mem_cons_self
    refine fun m h => ih (fun d hd => hok d (List.mem_cons_of_mem c hd)) _ ?_
    show Evolves s (s.setMem (if ok c.1 then m.write c.1.toNat c.2 else m))
    split
    · rename_i hc
      refine ⟨rfl, rfl, rfl, fun w => Memory.write_wf _ _ _ c.1.isLt (h.wf w), fun b d hd => ?_, fun x hx => ?_⟩
      · rcases Memory.mem_write _ _ _ _ hd with rfl | hd
        · simpa using hc' hc
        · exact h.backed b d hd
      · rw [State.setMem_mem, Memory.read_write, if_neg]
        · exact h.missing x hx
        · intro e
          rw [← BitVec.eq_of_toNat_eq e, hc' hc] at hx
          cases hx
    · exact h

/-- A device's bytes exist (R58). -/
theorem State.exists?_of_isDevice {s : State} {a : Word} (h : s.isDevice a = true) : s.exists? a = true := by
  rw [State.isDevice, List.any_eq_true] at h
  obtain ⟨r, hr, h⟩ := h
  rw [Bool.and_eq_true] at h
  exact List.any_eq_true.2 ⟨r, hr, h.2⟩

/-! ### What a read sees of devices -/

@[simp] theorem State.withDraws_present (s : State) (l : List (Word × Byte)) : (s.withDraws l).present = s.present := rfl
@[simp] theorem State.withDraws_exists? (s : State) (l : List (Word × Byte)) (a : Word) :
    (s.withDraws l).exists? a = s.exists? a := rfl
@[simp] theorem State.fetchView_exists? (s : State) (a : Word) : s.fetchView.exists? a = s.exists? a := rfl

/-- What a read sees: the last draw for a device's byte the list gives, the old byte elsewhere (R63). -/
theorem State.withDraws_read (s : State) (l : List (Word × Byte)) (x : Word) :
    (s.withDraws l).mem.read x.toNat =
      if s.isDevice x then l.foldl (fun b c => if c.1 = x then c.2 else b) (s.mem.read x.toNat) else s.mem.read x.toNat :=
  Memory.read_writeWhere s.isDevice s.mem l x

/-- Draws change only bytes that exist and keep the canonical form. -/
theorem State.withDraws_evolves (s : State) (l : List (Word × Byte)) : Evolves s (s.withDraws l) :=
  Memory.writeWhere_evolves s s.isDevice l fun _ _ h => State.exists?_of_isDevice h

/-- Where nothing is drawn, a read sees memory as it is. -/
@[simp] theorem State.withDraws_nil (s : State) : s.withDraws [] = s := rfl

/-! ### Memory accesses -/

/-- `memRead` answers the value of existing bytes, or IllegalAddress (R56). -/
theorem memRead_ok {s : State} {a : Word} {sz : Size} {v : BitVec sz.bits} :
    memRead s a sz = .ok v ↔ s.allExist a sz.bytes = true ∧ v = BitVec.ofNat sz.bits (s.mem.readLE a sz.bytes) := by
  rw [memRead]
  cases s.allExist a sz.bytes
  · simp
  · simpa using eq_comm

theorem memRead_error {s : State} {a : Word} {sz : Size} {c : Cause} :
    memRead s a sz = .error c ↔ s.allExist a sz.bytes = false ∧ c = .illegalAddress := by
  rw [memRead]
  cases s.allExist a sz.bytes
  · simpa using eq_comm
  · simp

/-- `memWrite` stores into existing bytes and changes nothing else, or answers IllegalAddress (R57). -/
theorem memWrite_ok {s t : State} {a : Word} {sz : Size} {v : BitVec sz.bits} :
    memWrite s a sz v = .ok t ↔ s.allExist a sz.bytes = true ∧ t = s.setMem (s.mem.writeLE a sz.bytes v.toNat) := by
  rw [memWrite]
  cases s.allExist a sz.bytes
  · simp
  · simpa using eq_comm

theorem memWrite_error {s : State} {a : Word} {sz : Size} {v : BitVec sz.bits} {c : Cause} :
    memWrite s a sz v = .error c ↔ s.allExist a sz.bytes = false ∧ c = .illegalAddress := by
  rw [memWrite]
  cases s.allExist a sz.bytes
  · simpa using eq_comm
  · simp

theorem memWrite_evolves {s t : State} {a : Word} {sz : Size} {v : BitVec sz.bits} (h : memWrite s a sz v = .ok t) :
    Evolves s t := by
  obtain ⟨he, rfl⟩ := memWrite_ok.1 h
  exact Memory.writeLE_evolves s a _ _ he

theorem Size.pow_bytes (sz : Size) : 256 ^ sz.bytes = 2 ^ sz.bits := by
  cases sz <;> rfl

theorem Size.bytes_lt (sz : Size) : sz.bytes < 2 ^ 32 := by
  cases sz <;> decide

/-- What each byte reads as after `memWrite`: a byte of the value inside the access, the old byte outside. -/
theorem memWrite_read {s t : State} {a : Word} {sz : Size} {v : BitVec sz.bits} (h : memWrite s a sz v = .ok t) (x : Word) :
    t.mem.read x.toNat =
      if (x - a).toNat < sz.bytes then v.extractLsb' (8 * (x - a).toNat) 8 else s.mem.read x.toNat := by
  obtain ⟨-, rfl⟩ := memWrite_ok.1 h
  rw [State.setMem_mem, Memory.read_writeLE _ _ _ _ (Size.bytes_lt sz)]
  split
  · apply BitVec.eq_of_toNat_eq
    rw [BitVec.extractLsb'_toNat, Nat.shiftRight_eq_div_pow, BitVec.toNat_ofNat, Nat.pow_mul]
  · rfl

/-- A value stored is read back. -/
theorem memRead_memWrite {s t : State} {a : Word} {sz : Size} {v : BitVec sz.bits} (h : memWrite s a sz v = .ok t) :
    memRead t a sz = .ok v := by
  obtain ⟨he, rfl⟩ := memWrite_ok.1 h
  refine memRead_ok.2 ⟨by rw [State.allExist_congr (State.setMem_present s _)]; exact he, ?_⟩
  apply BitVec.eq_of_toNat_eq
  rw [State.setMem_mem, Memory.readLE_writeLE _ _ _ _ (Size.bytes_lt sz), BitVec.toNat_ofNat, Size.pow_bytes, Nat.mod_mod]
  exact (Nat.mod_eq_of_lt v.isLt).symm

/-! ### The stack -/

theorem push_ok {s t : State} {sz : Size} {v : BitVec sz.bits} :
    push s sz v = .ok t ↔ s.allExist (s.sp - sizeStep sz) sz.bytes = true
      ∧ t = (s.setSp (s.sp - sizeStep sz)).setMem (s.mem.writeLE (s.sp - sizeStep sz) sz.bytes v.toNat) := by
  rw [push, memWrite_ok, State.allExist_congr (State.setSp_present s _), State.setSp_mem]

theorem push_error {s : State} {sz : Size} {v : BitVec sz.bits} {c : Cause} :
    push s sz v = .error c ↔ s.allExist (s.sp - sizeStep sz) sz.bytes = false ∧ c = .illegalAddress := by
  rw [push, memWrite_error, State.allExist_congr (State.setSp_present s _)]

theorem push_evolves {s t : State} {sz : Size} {v : BitVec sz.bits} (h : push s sz v = .ok t) : Evolves s t :=
  (Evolves.setSp s _).trans (memWrite_evolves h)

/-- What each byte reads as after a push. -/
theorem push_read {s t : State} {sz : Size} {v : BitVec sz.bits} (h : push s sz v = .ok t) (x : Word) :
    t.mem.read x.toNat =
      if (x - (s.sp - sizeStep sz)).toNat < sz.bytes then v.extractLsb' (8 * (x - (s.sp - sizeStep sz)).toNat) 8
      else s.mem.read x.toNat := memWrite_read (s := s.setSp _) h x

theorem pop_ok {s : State} {sz : Size} {r : BitVec sz.bits × State} :
    pop s sz = .ok r ↔ s.allExist s.sp sz.bytes = true
      ∧ r = (BitVec.ofNat sz.bits (s.mem.readLE s.sp sz.bytes), s.setSp (s.sp + sizeStep sz)) := by
  rw [pop, memRead]
  cases s.allExist s.sp sz.bytes
  · simp [bind, Except.bind]
  · simpa [bind, Except.bind] using eq_comm

theorem pop_error {s : State} {sz : Size} {c : Cause} :
    pop s sz = .error c ↔ s.allExist s.sp sz.bytes = false ∧ c = .illegalAddress := by
  rw [pop, memRead]
  cases s.allExist s.sp sz.bytes
  · simpa [bind, Except.bind] using eq_comm
  · simp [bind, Except.bind]

theorem pop_evolves {s : State} {sz : Size} {r : BitVec sz.bits × State} (h : pop s sz = .ok r) : Evolves s r.2 := by
  obtain ⟨-, rfl⟩ := pop_ok.1 h
  exact Evolves.setSp s _

theorem popStatus_ok {s t : State} :
    popStatus s = .ok t ↔ s.exists? s.sp = true
      ∧ t = (s.setSp (s.sp + 1)).setStatus (Status.ofByte (s.mem.read s.sp.toNat)) := by
  have hv : BitVec.ofNat 8 (s.mem.readLE s.sp 1) = s.mem.read s.sp.toNat := by
    simp [Memory.readLE]
  have he : s.allExist s.sp 1 = s.exists? s.sp := Bool.and_true _
  rw [popStatus, pop, memRead, show Size.bytes .byte = 1 from rfl, he]
  cases s.exists? s.sp
  · simp [bind, Except.bind]
  · simp only [if_true, bind, Except.bind, true_and, Except.ok.injEq]
    show (s.setSp (s.sp + 1)).setStatus (Status.ofByte (BitVec.ofNat 8 (s.mem.readLE s.sp 1))) = t ↔ _
    rw [hv]
    exact eq_comm

theorem popStatus_error {s : State} {c : Cause} :
    popStatus s = .error c ↔ s.exists? s.sp = false ∧ c = .illegalAddress := by
  have he : s.allExist s.sp 1 = s.exists? s.sp := Bool.and_true _
  rw [popStatus, pop, memRead, show Size.bytes .byte = 1 from rfl, he]
  cases s.exists? s.sp
  · simpa [bind, Except.bind] using eq_comm
  · simp [bind, Except.bind]

/-! ### The status byte -/

@[simp] theorem Status.ofByte_toByte (p : Status) : Status.ofByte p.toByte = p := by
  obtain ⟨i, v, c, n, z⟩ := p
  revert i v c n z
  decide

/-! ### Trap entry -/

/-- What a completed trap entry leaves: the frame below the stack pointer, the vector's value in `pc`, the core awake; flags and the
other registers are kept (R320, R322). -/
theorem enterTrap_ok {cause : Cause} {retpc : Word} {s t : State} (h : enterTrap cause retpc s = .ok t) :
    ∃ s1 s2, push s .long retpc = .ok s1 ∧ push s1 .byte s1.p.toByte = .ok s2 ∧ s2.allExist cause.vector 4 = true
      ∧ t = (s2.setPc (BitVec.ofNat 32 (s2.vectorView.mem.readLE cause.vector 4))).setSleeping false := by
  rw [enterTrap] at h
  cases h1 : push s .long retpc with
  | error c => simp [h1, bind, Except.bind] at h
  | ok s1 =>
    cases h2 : pushStatus s1 with
    | error c => simp [h1, h2, bind, Except.bind] at h
    | ok s2 =>
      cases h3 : memRead s2.vectorView cause.vector .long with
      | error c => simp [h1, h2, h3, bind, Except.bind] at h
      | ok v =>
        simp only [h1, h2, h3, bind, Except.bind, Except.ok.injEq] at h
        obtain ⟨he, rfl⟩ := memRead_ok.1 h3
        exact ⟨s1, s2, rfl, h2, (State.allExist_congr (s2.withDraws_present _) _ _).symm.trans he, h.symm⟩

theorem enterTrap_evolves {cause : Cause} {retpc : Word} {s t : State} (h : enterTrap cause retpc s = .ok t) : Evolves s t := by
  obtain ⟨s1, s2, h1, h2, -, rfl⟩ := enterTrap_ok h
  exact ((push_evolves h1).trans (push_evolves h2)).trans ((Evolves.setPc _ _).trans (Evolves.setSleeping _ _))

theorem enterTrap_status {cause : Cause} {retpc : Word} {s t : State} (h : enterTrap cause retpc s = .ok t) : t.p = s.p := by
  obtain ⟨s1, s2, h1, h2, -, rfl⟩ := enterTrap_ok h
  obtain ⟨-, rfl⟩ := push_ok.1 h1
  obtain ⟨-, rfl⟩ := push_ok.1 h2
  rfl

/-- Trap entry either completes or halts the core in the state before it (R324). -/
theorem trapEntry_cases (cause : Cause) (retpc : Word) (s : State) :
    (∃ t, enterTrap cause retpc s = .ok t ∧ trapEntry cause retpc s = t)
      ∨ (∃ c, enterTrap cause retpc s = .error c) ∧ trapEntry cause retpc s = s.halt := by
  rw [trapEntry]
  cases h : enterTrap cause retpc s with
  | ok t => exact .inl ⟨t, rfl, rfl⟩
  | error c => exact .inr ⟨⟨c, rfl⟩, rfl⟩

/-- No trap entry changes a flag (R322). -/
theorem trapEntry_status (cause : Cause) (retpc : Word) (s : State) : (trapEntry cause retpc s).p = s.p := by
  rcases trapEntry_cases cause retpc s with ⟨t, h, e⟩ | ⟨-, e⟩
  · rw [e]
    exact enterTrap_status h
  · rw [e]
    rfl

/-! ### Return from a trap -/

/-- What a completed return leaves (R282). -/
theorem returnFromTrap_ok {s t : State} (h : returnFromTrap s = .ok t) :
    s.exists? s.sp = true ∧ s.allExist (s.sp + 1) 4 = true
      ∧ t = (((s.setSp (s.sp + 1)).setStatus (Status.ofByte (s.mem.read s.sp.toNat))).setSp (s.sp + 1 + 4)).setPc
          (BitVec.ofNat 32 (s.mem.readLE (s.sp + 1) 4)) := by
  rw [returnFromTrap] at h
  cases h1 : popStatus s with
  | error c => simp [h1, bind, Except.bind] at h
  | ok s1 =>
    obtain ⟨he, rfl⟩ := popStatus_ok.1 h1
    cases h2 : pop ((s.setSp (s.sp + 1)).setStatus (Status.ofByte (s.mem.read s.sp.toNat))) .long with
    | error c =>
      simp only [h1, bind, Except.bind] at h
      rw [h2] at h
      cases h
    | ok r =>
      simp only [h1, bind, Except.bind] at h
      rw [h2] at h
      simp only [Except.ok.injEq] at h
      obtain ⟨he2, rfl⟩ := pop_ok.1 h2
      refine ⟨he, ?_, h.symm⟩
      rw [State.allExist_congr (State.setStatus_present _ _)] at he2
      exact he2

/-! ### One instruction as a whole -/

@[simp] theorem advance_reg (len : Nat) (s : State) (i : Reg) :
    (advance len s).reg i = if i = .pc then s.pc + BitVec.ofNat 32 len else s.reg i := State.reg_setReg _ _ _ _

@[simp] theorem advance_pc (len : Nat) (s : State) : (advance len s).pc = s.pc + BitVec.ofNat 32 len := rfl
@[simp] theorem advance_sp (len : Nat) (s : State) : (advance len s).sp = s.sp := rfl
@[simp] theorem advance_p (len : Nat) (s : State) : (advance len s).p = s.p := rfl
@[simp] theorem advance_sleeping (len : Nat) (s : State) : (advance len s).sleeping = s.sleeping := rfl
@[simp] theorem advance_halted (len : Nat) (s : State) : (advance len s).halted = s.halted := rfl
@[simp] theorem advance_mem (len : Nat) (s : State) : (advance len s).mem = s.mem := rfl
@[simp] theorem advance_present (len : Nat) (s : State) : (advance len s).present = s.present := rfl
@[simp] theorem advance_requests (len : Nat) (s : State) : (advance len s).requests = s.requests := rfl
@[simp] theorem advance_fetchDraws (len : Nat) (s : State) : (advance len s).fetchDraws = s.fetchDraws := rfl
@[simp] theorem advance_vectorDraws (len : Nat) (s : State) : (advance len s).vectorDraws = s.vectorDraws := rfl
@[simp] theorem advance_calls (len : Nat) (s : State) : (advance len s).calls = s.calls := rfl

theorem Evolves.advance (len : Nat) (s : State) : Evolves s (advance len s) := Evolves.setPc s _

/-- A body that completes gives the next state (R130). -/
theorem execute_of_ok {len : Nat} {body : State → Except Cause State} {s t : State} (h : body (advance len s) = .ok t) :
    execute len body s = .next t := by
  rw [execute, h]

/-- A body that never raises. -/
theorem execute_total (len : Nat) (f : State → State) (s : State) :
    execute len (fun s => .ok (f s)) s = .next (f (advance len s)) := rfl

/-- A body that raises has no effect but the trap (R144, R303). -/
theorem execute_of_error {len : Nat} {body : State → Except Cause State} {s : State} {c : Cause}
    (h : body (advance len s) = .error c) :
    execute len body s = .next (trapEntry c (s.pc + BitVec.ofNat 32 len) s) := by
  rw [execute, h]

/-- All that executing an instruction can do: its body's effect, or the trap from the starting state. -/
theorem execute_cases {len : Nat} {body : State → Except Cause State} {s : State} {o : Host.Outcome State Fault Refusal}
    (h : execute len body s = o) :
    (∃ t, body (advance len s) = .ok t ∧ o = .next t)
      ∨ ∃ c, body (advance len s) = .error c ∧ o = .next (trapEntry c (s.pc + BitVec.ofNat 32 len) s) := by
  subst h
  cases hb : body (advance len s) with
  | ok t => exact .inl ⟨t, rfl, execute_of_ok hb⟩
  | error c => exact .inr ⟨c, rfl, execute_of_error hb⟩

end Sys2Proof.Machine
end

