-- ==== Sys2Proof/Laws/Operands.lean ====
section
/-! SUPPORT. For each operation of Machine/Operands.lean, one lemma that says everything it can do. -/

namespace Sys2Proof.Machine

open Sys2Proof.Claims

/-! ### Existing bytes in the claims' words -/

theorem allExist_eq_bytesExist (s : State) (a : Word) (k : Nat) : s.allExist a k = decide (BytesExist s a k) := by
  rw [Bool.eq_iff_iff, decide_eq_true_iff]
  exact s.allExist_iff a k

theorem bytesExist_congr {s t : State} (h : t.present = s.present) (a : Word) (k : Nat) :
    BytesExist t a k ↔ BytesExist s a k := by
  simp only [BytesExist, State.exists?_congr h]

/-! ### Registers -/

theorem mergeLow_getLsbD {n : Nat} (hn : n ≤ 32) (old : Word) (v : BitVec n) (j : Nat) :
    (mergeLow old v).getLsbD j = if j < n then v.getLsbD j else old.getLsbD j := by
  rw [mergeLow]
  by_cases h : j < n
  · have : j < 32 := by omega
    simp [h, this]
  · by_cases h2 : j < 32
    · simp [h, h2, Nat.add_sub_cancel' (Nat.le_of_not_lt h), BitVec.getLsbD_of_ge v j (Nat.le_of_not_lt h)]
    · simp [h, BitVec.getLsbD_of_ge _ _ (Nat.le_of_not_lt h2)]

@[simp] theorem mergeLow_word (old v : Word) : mergeLow old v = v := by
  apply BitVec.eq_of_getLsbD_eq
  intro j hj
  rw [mergeLow_getLsbD (le_refl 32), if_pos hj]

theorem Size.bits_le (sz : Size) : sz.bits ≤ 32 := by
  cases sz <;> decide

theorem Size.bits_pos (sz : Size) : 0 < sz.bits := by
  cases sz <;> decide

theorem Size.bits_div (sz : Size) : sz.bits / 8 = sz.bytes := by
  cases sz <;> rfl

/-! ### Places -/

/-- Reading an operand answers its value, or IllegalAddress where a byte of it does not exist (R131, R136, R137). -/
theorem readPlace_eq (s : State) (sz : Size) (pl : Place) :
    readPlace s sz pl = if placeReady s sz pl then .ok (placeValue s sz pl) else .error .illegalAddress := by
  cases pl with
  | const c => rfl
  | reg i => rfl
  | mem ea =>
    rw [readPlace, memRead, allExist_eq_bytesExist, placeReady, placeValue, valueAt, Size.bits_div]

/-- What writing an operand leaves (R136, R138). -/
theorem writePlace_of_ready {s : State} {sz : Size} (v : BitVec sz.bits) {pl : Place} (h : placeReady s sz pl = true) :
    ∃ t, writePlace s sz v pl = .ok t ∧ t.p = s.p ∧ SameRest s t ∧ (∀ i, t.reg i = afterWrite pl v i (s.reg i))
      ∧ MemoryAfter pl sz.bytes v s t := by
  cases pl with
  | const c => exact ⟨s, rfl, rfl, ⟨rfl, rfl, rfl, rfl, rfl, rfl, rfl⟩, fun _ => rfl, fun _ => rfl⟩
  | reg r =>
    refine ⟨regWrite s sz r v, rfl, rfl, ⟨rfl, rfl, rfl, rfl, rfl, rfl, rfl⟩, fun i => ?_, fun _ => rfl⟩
    rw [regWrite, State.reg_setReg, afterWrite]
    split
    · rename_i hi
      rw [hi]
    · rfl
  | mem ea =>
    have he : s.allExist ea sz.bytes = true := (allExist_eq_bytesExist s ea _).trans h
    have hw : memWrite s ea sz v = .ok (s.setMem (s.mem.writeLE ea sz.bytes v.toNat)) := memWrite_ok.2 ⟨he, rfl⟩
    exact ⟨_, hw, rfl, ⟨rfl, rfl, rfl, rfl, rfl, rfl, rfl⟩, fun _ => rfl, fun x => memWrite_read hw x⟩

theorem writePlace_of_not_ready {s : State} {sz : Size} (v : BitVec sz.bits) {pl : Place} (h : placeReady s sz pl = false) :
    writePlace s sz v pl = .error .illegalAddress := by
  cases pl with
  | const c => cases h
  | reg r => cases h
  | mem ea => exact memWrite_error.2 ⟨(allExist_eq_bytesExist s ea _).trans h, rfl⟩

theorem writePlace_evolves {s t : State} {sz : Size} {v : BitVec sz.bits} {pl : Place} (h : writePlace s sz v pl = .ok t) :
    Evolves s t := by
  cases pl with
  | const c =>
    cases h
    exact .refl s
  | reg r =>
    cases h
    exact .setReg s _ _
  | mem ea => exact memWrite_evolves h

theorem placeReady_congr {s t : State} (h : t.present = s.present) (sz : Size) (pl : Place) :
    placeReady t sz pl = placeReady s sz pl := by
  cases pl with
  | const c => rfl
  | reg r => rfl
  | mem ea => simp only [placeReady, bytesExist_congr h]

/-! ### Values and the stack in the claims' words -/

theorem valueAt_eq (s : State) (sz : Size) (a : Word) :
    valueAt s sz.bits a = BitVec.ofNat sz.bits (s.mem.readLE a sz.bytes) := by
  rw [valueAt, Size.bits_div]

/-- Where a value's bytes are stored, the value is read. -/
theorem valueAt_of_bytes {t : State} {sz : Size} {a : Word} {v : BitVec sz.bits}
    (h : ∀ j, j < sz.bytes → byteAt t (a + BitVec.ofNat 32 j) = v.extractLsb' (8 * j) 8) : valueAt t sz.bits a = v := by
  rw [valueAt_eq, Memory.readLE_of_bytes t.mem a sz.bytes v.toNat fun j hj => ?_]
  · apply BitVec.eq_of_toNat_eq
    rw [BitVec.toNat_ofNat, Size.pow_bytes, Nat.mod_mod]
    exact Nat.mod_eq_of_lt v.isLt
  · rw [← byteAt, h j hj]
    apply BitVec.eq_of_toNat_eq
    rw [BitVec.extractLsb'_toNat, Nat.shiftRight_eq_div_pow, BitVec.toNat_ofNat, Nat.pow_mul]

theorem byteAt_of_stored {s t : State} {a : Word} {sz : Size} {v : BitVec sz.bits} (h : Stored s t a sz.bytes v) {j : Nat}
    (hj : j < sz.bytes) : byteAt t (a + BitVec.ofNat 32 j) = v.extractLsb' (8 * j) 8 := by
  have hl := Size.bytes_lt sz
  have ho := offset_add a j (by omega)
  rw [h, if_pos (show Within a sz.bytes _ by rw [Within, ho]; exact hj), ho]

/-- A value stored is read. -/
theorem valueAt_of_stored {s t : State} {a : Word} {sz : Size} {v : BitVec sz.bits} (h : Stored s t a sz.bytes v) :
    valueAt t sz.bits a = v := valueAt_of_bytes fun _ hj => byteAt_of_stored h hj

theorem push_exists {s : State} {sz : Size} (v : BitVec sz.bits) (h : BytesExist s (s.sp - sizeStep sz) sz.bytes) :
    ∃ t, push s sz v = .ok t :=
  ⟨_, push_ok.2 ⟨(allExist_eq_bytesExist s _ _).trans (decide_eq_true h), rfl⟩⟩

/-- All that a push changes: the stack pointer and the bytes it stores (R24). -/
theorem push_spec {s t : State} {sz : Size} {v : BitVec sz.bits} (h : push s sz v = .ok t) :
    (∀ i, t.reg i = if i = .sp then s.sp - sizeStep sz else s.reg i) ∧ t.p = s.p ∧ SameRest s t
      ∧ Stored s t (s.sp - sizeStep sz) sz.bytes v := by
  refine ⟨fun i => ?_, ?_, ?_, fun x => push_read h x⟩
  all_goals obtain ⟨-, rfl⟩ := push_ok.1 h
  · rw [State.setMem_reg, State.setSp_reg]
  · rfl
  · exact ⟨rfl, rfl, rfl, rfl, rfl, rfl, rfl⟩

theorem push_missing {s : State} {sz : Size} (v : BitVec sz.bits) (h : ¬ BytesExist s (s.sp - sizeStep sz) sz.bytes) :
    push s sz v = .error .illegalAddress :=
  push_error.2 ⟨(allExist_eq_bytesExist s _ _).trans (decide_eq_false h), rfl⟩

/-- All that a pop gives and changes: the value at the stack pointer, and the stack pointer (R24). -/
theorem pop_of_exists {s : State} {sz : Size} (h : BytesExist s s.sp sz.bytes) :
    pop s sz = .ok (valueAt s sz.bits s.sp, s.setSp (s.sp + sizeStep sz)) := by
  rw [valueAt_eq]
  exact pop_ok.2 ⟨(allExist_eq_bytesExist s _ _).trans (decide_eq_true h), rfl⟩

theorem pop_missing {s : State} {sz : Size} (h : ¬ BytesExist s s.sp sz.bytes) : pop s sz = .error .illegalAddress :=
  pop_error.2 ⟨(allExist_eq_bytesExist s _ _).trans (decide_eq_false h), rfl⟩

/-! ### Pointers -/

@[simp] theorem preDecrement_p (sz : Size) (ptr : Option (Reg × Modifier)) (s : State) : (preDecrement sz ptr s).p = s.p := by
  rw [preDecrement.eq_def]
  split <;> rfl

@[simp] theorem preDecrement_mem (sz : Size) (ptr : Option (Reg × Modifier)) (s : State) :
    (preDecrement sz ptr s).mem = s.mem := by
  rw [preDecrement.eq_def]
  split <;> rfl

@[simp] theorem preDecrement_present (sz : Size) (ptr : Option (Reg × Modifier)) (s : State) :
    (preDecrement sz ptr s).present = s.present := by
  rw [preDecrement.eq_def]
  split <;> rfl

/-- A pre-decrement changes the pointer register alone (R133). -/
theorem preDecrement_rest (sz : Size) (ptr : Option (Reg × Modifier)) (s : State) : SameRest s (preDecrement sz ptr s) := by
  rw [preDecrement.eq_def]
  split <;> exact ⟨rfl, rfl, rfl, rfl, rfl, rfl, rfl⟩

theorem preDecrement_evolves (sz : Size) (ptr : Option (Reg × Modifier)) (s : State) : Evolves s (preDecrement sz ptr s) :=
  have h := preDecrement_rest sz ptr s
  .of_same_mem h.2.2.1 h.2.2.2.1 h.2.1 (preDecrement_mem sz ptr s)

@[simp] theorem postIncrement_p (sz : Size) (ptr : Option (Reg × Modifier)) (s : State) : (postIncrement sz ptr s).p = s.p := by
  rw [postIncrement.eq_def]
  split <;> rfl

@[simp] theorem postIncrement_mem (sz : Size) (ptr : Option (Reg × Modifier)) (s : State) :
    (postIncrement sz ptr s).mem = s.mem := by
  rw [postIncrement.eq_def]
  split <;> rfl

/-- A post-increment changes the pointer register alone (R134). -/
theorem postIncrement_rest (sz : Size) (ptr : Option (Reg × Modifier)) (s : State) : SameRest s (postIncrement sz ptr s) := by
  rw [postIncrement.eq_def]
  split <;> exact ⟨rfl, rfl, rfl, rfl, rfl, rfl, rfl⟩

theorem postIncrement_reg (sz : Size) (ptr : Option (Reg × Modifier)) (s : State) (i : Reg) :
    (postIncrement sz ptr s).reg i = bumped sz ptr i (s.reg i) := by
  cases ptr with
  | none => rfl
  | some q =>
    obtain ⟨j, m⟩ := q
    cases m with
    | plain => rfl
    | preDec => rfl
    | postInc =>
      show (s.setReg j (s.reg j + sizeStep sz)).reg i = if i = j then s.reg i + sizeStep sz else s.reg i
      rw [State.reg_setReg]
      split
      · rename_i h
        rw [h]
      · rfl

theorem postIncrement_evolves (sz : Size) (ptr : Option (Reg × Modifier)) (s : State) : Evolves s (postIncrement sz ptr s) :=
  have h := postIncrement_rest sz ptr s
  .of_same_mem h.2.2.1 h.2.2.2.1 h.2.1 (postIncrement_mem sz ptr s)

theorem sameRest_trans {s t u : State} (h : SameRest s t) (g : SameRest t u) : SameRest s u :=
  ⟨g.1.trans h.1, g.2.1.trans h.2.1, g.2.2.1.trans h.2.2.1, g.2.2.2.1.trans h.2.2.2.1,
    g.2.2.2.2.1.trans h.2.2.2.2.1, g.2.2.2.2.2.1.trans h.2.2.2.2.2.1, g.2.2.2.2.2.2.trans h.2.2.2.2.2.2⟩

/-! ### The order of events -/

/-- The destination exists, where the instruction touches it (R148). -/
theorem readDst_eq (s : State) (sz : Size) (use : DstUse) (dst : Place) :
    readDst s sz use dst =
      if use = .write then .ok 0
      else if placeReady s sz dst then .ok (placeValue s sz dst) else .error .illegalAddress := by
  cases use with
  | write => rfl
  | modify => exact readPlace_eq s sz dst
  | examine => exact readPlace_eq s sz dst

/-- An instruction that reads and writes its destination, with both operands existing and an operation that does not raise (R140). -/
theorem runPlaces_modify {sz : Size} {ptr : Option (Reg × Modifier)} {src dst : Place} {alu : Alu} {s : State}
    {r : BitVec sz.bits × Status} (hs : placeReady s sz src = true) (hd : placeReady s sz dst = true)
    (ha : alu sz.bits (placeValue s sz dst) (placeValue s sz src) s.p = .ok r) :
    ∃ t, runPlaces sz ptr src dst .modify alu s = .ok t ∧ WritesResult sz ptr dst r.1 r.2 s t := by
  obtain ⟨t, hw, -, hrest, hreg, hmem⟩ := writePlace_of_ready (s := s) r.1 hd
  refine ⟨postIncrement sz ptr (t.setStatus r.2), ?_, postIncrement_p _ _ _,
    sameRest_trans hrest (postIncrement_rest sz ptr (t.setStatus r.2)), fun i => ?_, ?_⟩
  · rw [runPlaces, readPlace_eq, readDst_eq, hs, hd]
    simp only [if_true, bind, Except.bind, reduceCtorEq, if_false, ha, writeDst, hw]
  · rw [postIncrement_reg, State.setStatus_reg, hreg]
  · cases dst with
    | const c => exact fun x => by rw [byteAt, postIncrement_mem]; exact hmem x
    | reg r => exact fun x => by rw [byteAt, postIncrement_mem]; exact hmem x
    | mem ea => exact fun x => by rw [byteAt, postIncrement_mem]; exact hmem x

/-- An instruction that writes its destination without reading it (MOV, CLR). The result must not look at the destination. -/
theorem runPlaces_write {sz : Size} {ptr : Option (Reg × Modifier)} {src dst : Place} {alu : Alu} {s : State}
    {r : BitVec sz.bits × Status} (hs : placeReady s sz src = true) (hd : placeReady s sz dst = true)
    (ha : alu sz.bits 0 (placeValue s sz src) s.p = .ok r) :
    ∃ t, runPlaces sz ptr src dst .write alu s = .ok t ∧ WritesResult sz ptr dst r.1 r.2 s t := by
  obtain ⟨t, hw, -, hrest, hreg, hmem⟩ := writePlace_of_ready (s := s) r.1 hd
  refine ⟨postIncrement sz ptr (t.setStatus r.2), ?_, postIncrement_p _ _ _,
    sameRest_trans hrest (postIncrement_rest sz ptr (t.setStatus r.2)), fun i => ?_, ?_⟩
  · rw [runPlaces, readPlace_eq, readDst_eq, hs]
    simp only [if_true, bind, Except.bind, ha, writeDst, hw]
  · rw [postIncrement_reg, State.setStatus_reg, hreg]
  · cases dst with
    | const c => exact fun x => by rw [byteAt, postIncrement_mem]; exact hmem x
    | reg r => exact fun x => by rw [byteAt, postIncrement_mem]; exact hmem x
    | mem ea => exact fun x => by rw [byteAt, postIncrement_mem]; exact hmem x

/-- An instruction that reads its destination without writing it (CMP). -/
theorem runPlaces_examine {sz : Size} {ptr : Option (Reg × Modifier)} {src dst : Place} {alu : Alu} {s : State}
    {r : BitVec sz.bits × Status} (hs : placeReady s sz src = true) (hd : placeReady s sz dst = true)
    (ha : alu sz.bits (placeValue s sz dst) (placeValue s sz src) s.p = .ok r) :
    ∃ t, runPlaces sz ptr src dst .examine alu s = .ok t ∧ WritesFlagsOnly sz ptr r.2 s t := by
  refine ⟨postIncrement sz ptr (s.setStatus r.2), ?_, postIncrement_p _ _ _, postIncrement_rest sz ptr (s.setStatus r.2),
    fun i => postIncrement_reg _ _ _ i, fun x => by rw [byteAt, postIncrement_mem]; rfl⟩
  rw [runPlaces, readPlace_eq, readDst_eq, hs, hd]
  simp only [if_true, bind, Except.bind, reduceCtorEq, if_false, ha, writeDst]

/-- All that a data instruction can do: the operation's own trap, IllegalAddress where an operand has a missing byte, or a result. -/
theorem runPlaces_evolves {sz : Size} {ptr : Option (Reg × Modifier)} {src dst : Place} {use : DstUse} {alu : Alu} {s t : State}
    (h : runPlaces sz ptr src dst use alu s = .ok t) :
    Evolves s t ∧ ∃ a b r, alu sz.bits a b s.p = .ok r ∧ t.p = r.2 := by
  rw [runPlaces] at h
  cases hb : readPlace s sz src with
  | error c => simp [hb, bind, Except.bind] at h
  | ok b =>
    cases ha : readDst s sz use dst with
    | error c => simp [hb, ha, bind, Except.bind] at h
    | ok a =>
      cases hr : alu sz.bits a b s.p with
      | error c => simp [hb, ha, hr, bind, Except.bind] at h
      | ok r =>
        cases hw : writeDst s sz use r.1 dst with
        | error c => simp [hb, ha, hr, hw, bind, Except.bind] at h
        | ok u =>
          simp only [hb, ha, hr, hw, bind, Except.bind, Except.ok.injEq] at h
          subst h
          refine ⟨?_, a, b, r, hr, postIncrement_p _ _ _⟩
          have h1 : Evolves s u := by
            cases use with
            | write => exact writePlace_evolves hw
            | modify => exact writePlace_evolves hw
            | examine =>
              cases hw
              exact .refl _
          exact h1.trans ((Evolves.setStatus u r.2).trans (postIncrement_evolves sz ptr _))

/-- An operand with a missing byte raises IllegalAddress, whatever the operation would have raised (R144, R316). -/
theorem runPlaces_missing {sz : Size} {ptr : Option (Reg × Modifier)} {src dst : Place} {use : DstUse} {alu : Alu} {s : State}
    (h : (placeReady s sz src && placeReady s sz dst) = false) (hu : use = .write → ∃ r, alu sz.bits 0 (placeValue s sz src) s.p = .ok r) :
    runPlaces sz ptr src dst use alu s = .error .illegalAddress := by
  rw [runPlaces, readPlace_eq, readDst_eq]
  cases hs : placeReady s sz src with
  | false => simp [bind, Except.bind]
  | true =>
    rw [hs, Bool.true_and] at h
    rw [h]
    cases use with
    | write =>
      obtain ⟨r, hr⟩ := hu rfl
      simp only [if_true, bind, Except.bind, hr, writeDst, writePlace_of_not_ready r.1 h]
    | modify => simp [bind, Except.bind]
    | examine => simp [bind, Except.bind]

end Sys2Proof.Machine
end

