-- ==== Sys2Proof/Laws/PerInstr.lean ====
section
/-! SUPPORT. Statements for all instructions, proved per instruction. -/

namespace Sys2Proof.Laws

/-- No instruction's word uses a reserved or unassigned field value (R82, R83, R84, R100, R111). -/
def AssignedFields.Statement (i : Instr) : Prop := i.head.illegal = false

namespace AssignedFields

theorem of_fields {h : Head} (hc : h.code.toNat ≤ 0x32) (hs : h.size.toNat ≠ 3) (hm : h.mode.toNat ≤ 18) (hr : h.config.toNat ≠ 7) :
    h.illegal = false := by
  simp only [Head.illegal, Bool.or_eq_false_iff, decide_eq_false_iff_not]
  omega

theorem size_ne (sz : Size) : sz.field.toNat ≠ 3 := by
  cases sz <;> decide

theorem config1_ne (m : Modifier) : m.config1.toNat ≠ 7 := by
  cases m <;> decide

theorem config2_ne (m : Modifier) : m.config2.toNat ≠ 7 := by
  cases m <;> decide

theorem two_mode (o : TwoOp) : o.mode.toNat ≤ 18 := by
  cases o <;> simp [TwoOp.mode]

theorem two_config (o : TwoOp) : o.config.toNat ≠ 7 := by
  cases o <;> first | exact config1_ne _ | exact config2_ne _ | simp [TwoOp.config]

theorem one_mode (o : OneOp) : o.mode.toNat ≤ 18 := by
  cases o <;> simp [OneOp.mode]

theorem one_config (o : OneOp) : o.config.toNat ≠ 7 := by
  cases o <;> first | exact config1_ne _ | simp [OneOp.config]

theorem push_mode (o : PushOp) : o.mode.toNat ≤ 18 := by
  cases o with
  | const c => simp [PushOp.mode]
  | operand o => exact one_mode o

theorem push_config (o : PushOp) : o.config.toNat ≠ 7 := by
  cases o with
  | const c => simp [PushOp.config]
  | operand o => exact one_config o

theorem two_fields (code : BitVec 6) (sz : Size) (o : TwoOp) (h : code.toNat ≤ 0x32) :
    Head.illegal { code := code, size := sz.field, mode := o.mode, config := o.config } = false :=
  of_fields h (size_ne sz) (two_mode o) (two_config o)

theorem one_fields (code : BitVec 6) (sz : Size) (o : OneOp) (h : code.toNat ≤ 0x32) :
    Head.illegal { code := code, size := sz.field, mode := o.mode, config := o.config } = false :=
  of_fields h (size_ne sz) (one_mode o) (one_config o)

theorem branch_fields (code : BitVec 6) (sz : Size) (h : code.toNat ≤ 0x32) :
    Head.illegal { code := code, size := sz.field, mode := 16, config := 0 } = false :=
  of_fields h (size_ne sz) (show (16 : BitVec 5).toNat ≤ 18 by decide) (show (0 : BitVec 3).toNat ≠ 7 by decide)

theorem mov (sz : Size) (o : TwoOp) : Statement (.mov sz o) := two_fields 0x00 sz o (by decide)
theorem clr (sz : Size) (o : OneOp) : Statement (.clr sz o) := one_fields 0x01 sz o (by decide)
theorem add (sz : Size) (o : TwoOp) : Statement (.add sz o) := two_fields 0x02 sz o (by decide)
theorem sub (sz : Size) (o : TwoOp) : Statement (.sub sz o) := two_fields 0x03 sz o (by decide)
theorem adc (sz : Size) (o : TwoOp) : Statement (.adc sz o) := two_fields 0x04 sz o (by decide)
theorem sbc (sz : Size) (o : TwoOp) : Statement (.sbc sz o) := two_fields 0x05 sz o (by decide)
theorem inc (sz : Size) (o : OneOp) : Statement (.inc sz o) := one_fields 0x06 sz o (by decide)
theorem dec (sz : Size) (o : OneOp) : Statement (.dec sz o) := one_fields 0x07 sz o (by decide)
theorem mul (sz : Size) (o : TwoOp) : Statement (.mul sz o) := two_fields 0x08 sz o (by decide)
theorem div (sz : Size) (o : TwoOp) : Statement (.div sz o) := two_fields 0x09 sz o (by decide)
theorem and (sz : Size) (o : TwoOp) : Statement (.and sz o) := two_fields 0x0A sz o (by decide)
theorem or (sz : Size) (o : TwoOp) : Statement (.or sz o) := two_fields 0x0B sz o (by decide)
theorem xor (sz : Size) (o : TwoOp) : Statement (.xor sz o) := two_fields 0x0C sz o (by decide)
theorem shl (sz : Size) (o : TwoOp) : Statement (.shl sz o) := two_fields 0x0D sz o (by decide)
theorem shr (sz : Size) (o : TwoOp) : Statement (.shr sz o) := two_fields 0x0E sz o (by decide)
theorem rol (sz : Size) (o : TwoOp) : Statement (.rol sz o) := two_fields 0x0F sz o (by decide)
theorem ror (sz : Size) (o : TwoOp) : Statement (.ror sz o) := two_fields 0x10 sz o (by decide)
theorem cmp (sz : Size) (o : TwoOp) : Statement (.cmp sz o) := two_fields 0x11 sz o (by decide)
theorem sec : Statement .sec := rfl
theorem clc : Statement .clc := rfl
theorem sei : Statement .sei := rfl
theorem cli : Statement .cli := rfl
theorem push (sz : Size) (o : PushOp) : Statement (.push sz o) :=
  of_fields (h := (Instr.push sz o).head) (show (0x16 : BitVec 6).toNat ≤ 0x32 by decide) (size_ne sz) (push_mode o) (push_config o)
theorem pop (sz : Size) (o : OneOp) : Statement (.pop sz o) := one_fields 0x17 sz o (by decide)
theorem pusha : Statement .pusha := rfl
theorem popa : Statement .popa := rfl
theorem jmp (addr : Word) : Statement (.jmp addr) := rfl
theorem jsr (addr : Word) : Statement (.jsr addr) := rfl
theorem rts : Statement .rts := rfl
theorem rti : Statement .rti := rfl
theorem brk : Statement .brk := rfl
theorem nop : Statement .nop := rfl
theorem bra (sz : Size) (d : Word) : Statement (.bra sz d) := branch_fields 0x20 sz (by decide)
theorem beq (sz : Size) (d : Word) : Statement (.beq sz d) := branch_fields 0x21 sz (by decide)
theorem bne (sz : Size) (d : Word) : Statement (.bne sz d) := branch_fields 0x22 sz (by decide)
theorem bcc (sz : Size) (d : Word) : Statement (.bcc sz d) := branch_fields 0x23 sz (by decide)
theorem bcs (sz : Size) (d : Word) : Statement (.bcs sz d) := branch_fields 0x24 sz (by decide)
theorem bpl (sz : Size) (d : Word) : Statement (.bpl sz d) := branch_fields 0x25 sz (by decide)
theorem bmi (sz : Size) (d : Word) : Statement (.bmi sz d) := branch_fields 0x26 sz (by decide)
theorem bvc (sz : Size) (d : Word) : Statement (.bvc sz d) := branch_fields 0x27 sz (by decide)
theorem bvs (sz : Size) (d : Word) : Statement (.bvs sz d) := branch_fields 0x28 sz (by decide)
theorem blt (sz : Size) (d : Word) : Statement (.blt sz d) := branch_fields 0x29 sz (by decide)
theorem bgt (sz : Size) (d : Word) : Statement (.bgt sz d) := branch_fields 0x2A sz (by decide)
theorem ble (sz : Size) (d : Word) : Statement (.ble sz d) := branch_fields 0x2B sz (by decide)
theorem bge (sz : Size) (d : Word) : Statement (.bge sz d) := branch_fields 0x2C sz (by decide)
theorem sev : Statement .sev := rfl
theorem clv : Statement .clv := rfl
theorem slp : Statement .slp := rfl
theorem sxb (rx : Reg) : Statement (.sxb rx) := rfl
theorem sxw (rx : Reg) : Statement (.sxw rx) := rfl
theorem sys (sz : Size) (k : Word) : Statement (.sys sz k) :=
  of_fields (h := (Instr.sys sz k).head) (show (0x32 : BitVec 6).toNat ≤ 0x32 by decide) (size_ne sz)
    (show (18 : BitVec 5).toNat ≤ 18 by decide) (show (0 : BitVec 3).toNat ≠ 7 by decide)

end AssignedFields

end Sys2Proof.Laws
end

