-- ==== Sys2Proof/Laws/Stack.lean ====
section
/-! SUPPORT. For each operation that stack and control instructions share, one lemma that says what it can do. -/

namespace Sys2Proof.Machine

open Sys2Proof.Claims

/-- A monadic bind that answers has an answer at each part. -/
theorem bind_ok {α β : Type} {x : Except Cause α} {f : α → Except Cause β} {b : β} (h : (x >>= f) = .ok b) :
    ∃ a, x = .ok a ∧ f a = .ok b := by
  cases x with
  | error c => cases h
  | ok a => exact ⟨a, rfl, h⟩

/-- A part of existing bytes exists. -/
theorem bytesExist_mono {s : State} {a : Word} {k : Nat} (h : BytesExist s a k) (o k' : Nat) (hk : o + k' ≤ k) :
    BytesExist s (a + BitVec.ofNat 32 o) k' := by
  intro j hj
  have := h (o + j) (by omega)
  rwa [BitVec.ofNat_add, ← BitVec.add_assoc] at this

/-! ### Several registers -/

/-- All that pushing registers can do: each value in its own four bytes, the first the highest; the stack pointer; nothing else
(R262). -/
theorem pushRegs_full (is : List Reg) (hsp : Reg.sp ∉ is) (hl : 4 * is.length < 2 ^ 31) : ∀ (s : State),
    BytesExist s (s.sp - BitVec.ofNat 32 (4 * is.length)) (4 * is.length) →
    ∃ t, pushRegs is s = .ok t ∧ (∀ i, t.reg i = if i = .sp then s.sp - BitVec.ofNat 32 (4 * is.length) else s.reg i)
      ∧ t.p = s.p ∧ SameRest s t
      ∧ (∀ k i, is[k]? = some i → valueAt t 32 (s.sp - BitVec.ofNat 32 (4 * (k + 1))) = s.reg i)
      ∧ ∀ x, ¬ Within (s.sp - BitVec.ofNat 32 (4 * is.length)) (4 * is.length) x → byteAt t x = byteAt s x := by
  induction is with
  | nil =>
    intro s h
    refine ⟨s, rfl, ?_, rfl, ⟨rfl, rfl, rfl, rfl, rfl, rfl, rfl⟩, ?_, fun x _ => rfl⟩
    · intro i
      split
      · rename_i e; rw [e]; simp
      · rfl
    · intro k i h; simp at h
  | cons r is ih =>
    intro s h
    simp only [List.length_cons] at *
    simp only [List.mem_cons, not_or] at hsp
    have e1 : s.sp - sizeStep .long = s.sp - BitVec.ofNat 32 (4 * (is.length + 1)) + BitVec.ofNat 32 (4 * is.length) := by
      show s.sp - 4 = _
      rw [Nat.mul_add, BitVec.ofNat_add]; bv_omega
    have h1 : BytesExist s (s.sp - sizeStep .long) (Size.bytes .long) := by
      rw [e1]; exact bytesExist_mono h _ _ (by show _ + 4 ≤ _; omega)
    obtain ⟨t, ht⟩ := push_exists (s := s) (sz := .long) (s.reg r) h1
    obtain ⟨hr, hp, hrest, hst⟩ := push_spec ht
    have htsp : t.sp = s.sp - 4 := hr .sp
    have e2 : t.sp - BitVec.ofNat 32 (4 * is.length) = s.sp - BitVec.ofNat 32 (4 * (is.length + 1)) := by
      rw [htsp, Nat.mul_add, BitVec.ofNat_add]; bv_omega
    have h2 : BytesExist t (t.sp - BitVec.ofNat 32 (4 * is.length)) (4 * is.length) := by
      rw [bytesExist_congr hrest.2.2.1, e2]
      have := bytesExist_mono h 0 (4 * is.length) (by omega)
      simpa using this
    obtain ⟨u, hu, gr, gp, grest, gv, gb⟩ := ih hsp.2 (by omega) t h2
    refine ⟨u, ?_, ?_, gp.trans hp, sameRest_trans hrest grest, ?_, ?_⟩
    · rw [pushRegs, ht]; exact hu
    · intro i
      rw [gr, e2]
      split
      · rfl
      · rw [hr]; rename_i hne; rw [if_neg hne]
    · intro k i hk
      cases k with
      | zero =>
        simp only [List.getElem?_cons_zero, Option.some.injEq] at hk
        subst hk
        refine valueAt_of_bytes (sz := .long) fun j hj => ?_
        have hj : j < 4 := hj
        rw [gb]
        · exact byteAt_of_stored hst hj
        · rw [Within, e2, Nat.mul_add, BitVec.ofNat_add]
          bv_omega
      | succ k =>
        simp only [List.getElem?_cons_succ] at hk
        have hne : i ≠ .sp := fun e => hsp.2 (e ▸ List.mem_of_getElem? hk)
        have := gv k i hk
        rw [hr, if_neg hne, htsp] at this
        rw [← this]
        congr 1
        rw [Nat.mul_add 4 (k+1), BitVec.ofNat_add]; bv_omega
    · intro x hx
      rw [gb x, hst x, if_neg]
      · intro hw
        apply hx
        rw [Within] at *
        rw [e1, Nat.mul_add, BitVec.ofNat_add] at hw
        rw [Nat.mul_add, BitVec.ofNat_add]
        change _ < 4 at hw
        bv_omega
      · rw [e2]; intro hw; apply hx; rw [Within] at *; omega

theorem pushRegs_evolves (is : List Reg) :
    ∀ s t, pushRegs is s = .ok t → Evolves s t ∧ t.p = s.p := by
  induction is with
  | nil => intro s t h; cases h; exact ⟨.refl _, rfl⟩
  | cons r is ih =>
    intro s t h
    rw [pushRegs] at h
    cases hp : push s .long (s.reg r) with
    | error d => rw [hp] at h; cases h
    | ok u =>
      rw [hp] at h
      have := ih _ _ h
      exact ⟨(push_evolves hp).trans this.1, this.2.trans (push_spec hp).2.1⟩

theorem pushRegs_missing (is : List Reg) : ∀ s c, pushRegs is s = .error c → c = .illegalAddress := by
  induction is with
  | nil => intro s c h; cases h
  | cons r is ih =>
    intro s c h
    rw [pushRegs] at h
    cases hp : push s .long (s.reg r) with
    | error d => rw [hp] at h; cases h; exact (push_error.1 hp).2
    | ok v => rw [hp] at h; exact ih _ _ h

theorem pushRegs_exist (is : List Reg) :
    ∀ s t, pushRegs is s = .ok t →
      BytesExist s (s.sp - BitVec.ofNat 32 (4 * is.length)) (4 * is.length) := by
  induction is with
  | nil => intro s t h j hj; simp at hj
  | cons r is ih =>
    intro s t h
    rw [pushRegs] at h
    cases hp : push s .long (s.reg r) with
    | error d => rw [hp] at h; cases h
    | ok u =>
      rw [hp] at h
      obtain ⟨hr, _, hrest, _⟩ := push_spec hp
      have h1 := ih _ _ h
      have hsp : u.sp = s.sp - 4 := hr .sp
      have e := (State.allExist_iff _ _ _).1 (push_ok.1 hp).1
      intro j hj
      simp only [List.length_cons] at *
      have := h1 (j := j)
      by_cases hlt : j < 4 * is.length
      · have := this hlt
        rw [State.exists?_congr hrest.2.2.1, hsp] at this
        rwa [show s.sp - BitVec.ofNat 32 (4 * (is.length + 1)) + BitVec.ofNat 32 j = s.sp - 4 - BitVec.ofNat 32 (4 * is.length) + BitVec.ofNat 32 j by rw [Nat.mul_add, BitVec.ofNat_add]; bv_omega]
      · obtain ⟨m, rfl⟩ := Nat.exists_eq_add_of_le (Nat.le_of_not_lt hlt)
        have := e m (by show m < 4; omega)
        rwa [show s.sp - BitVec.ofNat 32 (4 * (is.length + 1)) + BitVec.ofNat 32 (4 * is.length + m) = s.sp - 4 + BitVec.ofNat 32 m by rw [Nat.mul_add, BitVec.ofNat_add, BitVec.ofNat_add]; bv_omega]

/-- All that popping registers can do: each register its own four bytes, the first the lowest; the stack pointer; nothing else
(R263). -/
theorem popRegs_full (is : List Reg) (hsp : Reg.sp ∉ is) (hn : is.Nodup) (hl : 4 * is.length < 2 ^ 31) : ∀ (s : State),
    BytesExist s s.sp (4 * is.length) →
    ∃ t, popRegs is s = .ok t ∧ t.sp = s.sp + BitVec.ofNat 32 (4 * is.length) ∧ (∀ i, i ∉ is → i ≠ .sp → t.reg i = s.reg i)
      ∧ t.p = s.p ∧ SameRest s t ∧ t.mem = s.mem
      ∧ (∀ k i, is[k]? = some i → t.reg i = valueAt s 32 (s.sp + BitVec.ofNat 32 (4 * k))) := by
  induction is with
  | nil =>
    intro s h
    refine ⟨s, rfl, by simp, fun _ _ _ => rfl, rfl, ⟨rfl, rfl, rfl, rfl, rfl, rfl, rfl⟩, rfl, ?_⟩
    intro k i h; simp at h
  | cons r is ih =>
    intro s h
    simp only [List.length_cons, List.nodup_cons, List.mem_cons, not_or] at *
    have h1 : BytesExist s s.sp (Size.bytes .long) := by
      have := bytesExist_mono h 0 4 (by omega)
      simpa using this
    have hp := pop_of_exists h1
    let s1 := (s.setSp (s.sp + sizeStep .long)).setReg r (valueAt s 32 s.sp)
    have hs1 : s1.sp = s.sp + 4 := by
      show s1.reg .sp = _
      rw [State.reg_setReg, if_neg hsp.1]; rfl
    have h2 : BytesExist s1 s1.sp (4 * is.length) := by
      rw [bytesExist_congr (s := s) (t := s1) rfl, hs1]
      exact bytesExist_mono h 4 _ (by omega)
    obtain ⟨u, hu, gsp, gr, gp, grest, gm, gv⟩ := ih hsp.2 hn.2 (by omega) s1 h2
    refine ⟨u, ?_, ?_, ?_, gp, grest, gm, ?_⟩
    · rw [popRegs, hp]; exact hu
    · rw [gsp, hs1, Nat.mul_add, BitVec.ofNat_add]; bv_omega
    · intro i hi hne
      rw [gr i hi.2 hne]
      rw [State.reg_setReg, if_neg hi.1, State.setSp_reg, if_neg hne]
    · intro k i hk
      cases k with
      | zero =>
        simp only [List.getElem?_cons_zero, Option.some.injEq] at hk
        subst hk
        rw [gr r hn.1 (fun e => hsp.1 e.symm), State.reg_setReg, if_pos rfl]
        simp
      | succ k =>
        simp only [List.getElem?_cons_succ] at hk
        rw [gv k i hk, hs1]
        show valueAt s 32 _ = _
        congr 1
        rw [Nat.mul_add, BitVec.ofNat_add]; bv_omega

theorem popRegs_evolves (is : List Reg) :
    ∀ s t, popRegs is s = .ok t → Evolves s t ∧ t.p = s.p := by
  induction is with
  | nil => intro s t h; cases h; exact ⟨.refl _, rfl⟩
  | cons r is ih =>
    intro s t h
    rw [popRegs] at h
    cases hp : pop s .long with
    | error d => rw [hp] at h; cases h
    | ok u =>
      rw [hp] at h
      have := ih _ _ h
      refine ⟨((pop_evolves hp).trans (.setReg _ _ _)).trans this.1, this.2.trans ?_⟩
      obtain ⟨-, rfl⟩ := pop_ok.1 hp
      rfl

theorem popRegs_missing (is : List Reg) : ∀ s c, popRegs is s = .error c → c = .illegalAddress := by
  induction is with
  | nil => intro s c h; cases h
  | cons r is ih =>
    intro s c h
    rw [popRegs] at h
    cases hp : pop s .long with
    | error d => rw [hp] at h; cases h; exact (pop_error.1 hp).2
    | ok v => rw [hp] at h; exact ih _ _ h

/-! ### One operand -/

/-- A completed PUSH keeps every flag (R260). -/
theorem pushOperand_evolves {sz : Size} {o : PushOp} {s t : State} (h : pushOperand sz o s = .ok t) : Evolves s t ∧ t.p = s.p := by
  rw [pushOperand] at h
  obtain ⟨v, -, h⟩ := bind_ok h
  obtain ⟨u, h2, h⟩ := bind_ok h
  cases h
  refine ⟨((preDecrement_evolves _ _ _).trans (push_evolves h2)).trans (postIncrement_evolves _ _ _), ?_⟩
  rw [postIncrement_p, (push_spec h2).2.1, preDecrement_p]

theorem writePlace_p {s t : State} {sz : Size} {v : BitVec sz.bits} {pl : Place} (h : writePlace s sz v pl = .ok t) : t.p = s.p := by
  cases pl with
  | const c =>
    cases h
    rfl
  | reg r =>
    cases h
    rfl
  | mem ea =>
    obtain ⟨-, rfl⟩ := memWrite_ok.1 h
    rfl

/-- A completed POP keeps every flag but `N` and `Z` (R261). -/
theorem popOperand_evolves {sz : Size} {o : OneOp} {s t : State} (h : popOperand sz o s = .ok t) :
    Evolves s t ∧ t.p.i = s.p.i ∧ t.p.v = s.p.v ∧ t.p.c = s.p.c := by
  rw [popOperand] at h
  obtain ⟨r, h1, h⟩ := bind_ok h
  obtain ⟨u, h2, h⟩ := bind_ok h
  cases h
  have hu : u.p = s.p := by
    rw [writePlace_p h2]
    obtain ⟨-, rfl⟩ := pop_ok.1 h1
    rw [State.setSp_p, preDecrement_p]
  refine ⟨((((preDecrement_evolves _ _ _).trans (pop_evolves h1)).trans (writePlace_evolves h2)).trans
    (Evolves.setStatus _ _)).trans (postIncrement_evolves _ _ _), ?_⟩
  rw [postIncrement_p, State.setStatus_p, hu]
  exact ⟨rfl, rfl, rfl⟩

/-! ### Calls -/

/-- All that a call can do (R231). -/
theorem callTo_ok {addr : Word} {s t : State} (h : callTo addr s = .ok t) :
    ∃ u, push s .long s.pc = .ok u ∧ t = u.setPc addr := by
  obtain ⟨u, h1, h⟩ := bind_ok h
  cases h
  exact ⟨u, h1, rfl⟩

theorem callTo_evolves {addr : Word} {s t : State} (h : callTo addr s = .ok t) : Evolves s t ∧ t.p = s.p := by
  obtain ⟨u, h1, rfl⟩ := callTo_ok h
  exact ⟨(push_evolves h1).trans (.setPc _ _), (push_spec h1).2.1⟩

/-- All that a return can do (R232). -/
theorem returnFromCall_ok {s t : State} (h : returnFromCall s = .ok t) :
    s.allExist s.sp 4 = true ∧ t = (s.setSp (s.sp + 4)).setPc (BitVec.ofNat 32 (s.mem.readLE s.sp 4)) := by
  obtain ⟨r, h1, h⟩ := bind_ok h
  cases h
  obtain ⟨he, rfl⟩ := pop_ok.1 h1
  exact ⟨he, rfl⟩

theorem returnFromTrap_evolves {s t : State} (h : returnFromTrap s = .ok t) : Evolves s t := by
  obtain ⟨-, -, rfl⟩ := returnFromTrap_ok h
  exact .of_same_mem rfl rfl rfl rfl

theorem returnFromTrap_missing {s : State} {c : Cause} (e : returnFromTrap s = .error c) : c = .illegalAddress := by
  rw [returnFromTrap] at e
  cases e1 : popStatus s with
  | error d =>
    rw [e1] at e
    cases e
    exact (popStatus_error.1 e1).2
  | ok s1 =>
    rw [e1] at e
    change (do
      let r ← pop s1 .long
      .ok (r.2.setPc r.1)) = _ at e
    cases e2 : pop s1 .long with
    | error d =>
      rw [e2] at e
      cases e
      exact (pop_error.1 e2).2
    | ok r =>
      rw [e2] at e
      cases e

/-- Where a branch goes: by the signed offset of the operand size, 32, 16 or 8 bits, from the address of the next instruction, or
on to that (R94, R233). -/
theorem branchIf_pc (cond : Status → Bool) (sz : Size) (d : Word) (s : State) :
    branchIf cond sz d s = s.setPc (if cond s.p then s.pc + BitVec.ofInt 32 (d.setWidth sz.bits).toInt else s.pc) := by
  rw [branchIf]
  split
  · rfl
  · exact (State.setReg_reg_self s .pc).symm

/-- A branch changes `pc` alone (R233). -/
theorem branchIf_evolves (cond : Status → Bool) (sz : Size) (d : Word) (s : State) :
    Evolves s (branchIf cond sz d s) ∧ (branchIf cond sz d s).p = s.p := by
  rw [branchIf]
  split
  · exact ⟨.setPc _ _, rfl⟩
  · exact ⟨.refl _, rfl⟩

/-! ### System calls -/

/-- The bytes a call touches exist exactly when those it reads and those it stores do. -/
theorem touched_iff_answerReady (s : State) (a : SysAnswer) : a.touched.all s.exists? = true ↔ AnswerReady s a := by
  rw [SysAnswer.touched, List.all_append, Bool.and_eq_true, List.all_eq_true, List.all_map, List.all_eq_true]
  rfl

/-- All that an answered call can do: its effect where the bytes it touches exist, else IllegalAddress (R56, R57, R284). -/
theorem answerCall_eq (a : SysAnswer) (s : State) :
    answerCall a s =
      if AnswerReady s a then
        .ok { s with regs := a.regs, p := a.p, sleeping := a.sleeping, mem := Memory.writeWhere (fun _ => true) s.mem a.stores }
      else .error .illegalAddress := by
  simp only [answerCall, touched_iff_answerReady]

/-- All that SYS can do: it is refused where the platform answers no call, has the effect answered, or raises IllegalAddress where the call
touches a byte that does not exist (R284). -/
theorem execSys_cases (sz : Size) (k : Word) (s : State) :
    (s.calls = [] ∧ execSys sz k s = .refused (.sysCall k))
      ∨ (∃ a rest, s.calls = a :: rest ∧ AnswerReady s a
          ∧ execSys sz k s = .next { s with regs := a.regs, p := a.p, sleeping := a.sleeping, calls := rest,
                                            mem := Memory.writeWhere (fun _ => true) s.mem a.stores })
      ∨ ∃ a rest, s.calls = a :: rest ∧ ¬ AnswerReady s a
          ∧ execSys sz k s
              = .next (trapEntry .illegalAddress (s.pc + BitVec.ofNat 32 (Instr.sys sz k).length) (s.setCalls rest)) := by
  rw [execSys]
  cases h : s.calls with
  | nil => exact .inl ⟨rfl, rfl⟩
  | cons a rest =>
    by_cases hr : AnswerReady s a
    · exact .inr (.inl ⟨a, rest, rfl, hr, execute_of_ok ((answerCall_eq a _).trans (if_pos hr))⟩)
    · exact .inr (.inr ⟨a, rest, rfl, hr, execute_of_error ((answerCall_eq a _).trans (if_neg hr))⟩)

/-- The stores of a system call land on bytes that exist. -/
theorem answerCall_evolves {a : SysAnswer} {s t : State} (h : answerCall a s = .ok t) : Evolves s t := by
  rw [answerCall_eq] at h
  split at h
  · rename_i hr
    cases h
    have e := Memory.writeWhere_evolves s (fun _ => true) a.stores fun c hc _ => hr.2 c hc
    exact ⟨rfl, rfl, rfl, e.wf, e.backed, e.missing⟩
  · cases h

end Sys2Proof.Machine
end

