-- ==== Sys2Proof/Laws/Step.lean ====
section
/-! SUPPORT. Fetching, recognition points and the step: what each can do. -/

namespace Sys2Proof.Machine

open Sys2Proof.Claims

/-! ### Fetching -/

/-- Bytes that stand at `a` and exist are the first bytes a fetch gives (R61). -/
theorem fetchBytes_prefix (s : State) (l : List Byte) : ∀ (a : Word) (k : Nat), l.length ≤ k →
    (∀ j, j < l.length → s.exists? (a + BitVec.ofNat 32 j) = true ∧ byteAt s (a + BitVec.ofNat 32 j) = l[j]!) →
    ∃ r, fetchBytes s a k = l ++ r := by
  induction l with
  | nil => intro a k _ _; exact ⟨_, rfl⟩
  | cons b l ih =>
    intro a k hk h
    cases k with
    | zero => simp at hk
    | succ k =>
      have h0 := h 0 (by simp)
      rw [show a + BitVec.ofNat 32 0 = a by simp] at h0
      obtain ⟨r, hr⟩ := ih (a + 1) k (by simpa using hk) (fun j hj => by
        have := h (j + 1) (by simpa using hj)
        rw [add_ofNat_succ] at this
        simpa using this)
      refine ⟨r, ?_⟩
      rw [fetchBytes, if_pos h0.1, hr]
      have : s.mem.read a.toNat = b := h0.2
      rw [this]; rfl

/-- Placing bytes keeps the canonical form. -/
theorem Memory.writeBytes_wf (m : Memory) (a : Word) (bs : List Byte) (h : m.wf = true) : (m.writeBytes a bs).wf = true := by
  induction bs generalizing m a with
  | nil => exact h
  | cons b bs ih => exact ih _ _ (Memory.write_wf m a.toNat b a.isLt h)

theorem placeNext_wf (s : State) (bs : List Byte) (h : s.mem.wf = true) : (placeNext s bs).mem.wf = true :=
  Memory.writeBytes_wf s.mem s.pc bs h

/-- The memory of the state after reset has the canonical form. -/
theorem reset_wf : State.reset.mem.wf = true := by decide

/-! ### Recognition points -/

@[simp] theorem State.sampled_p (s : State) : s.sampled.p = s.p := rfl
@[simp] theorem State.sampled_reg (s : State) (i : Reg) : s.sampled.reg i = s.reg i := rfl
@[simp] theorem State.sampled_pc (s : State) : s.sampled.pc = s.pc := rfl
@[simp] theorem State.sampled_sp (s : State) : s.sampled.sp = s.sp := rfl
@[simp] theorem State.sampled_present (s : State) : s.sampled.present = s.present := rfl
@[simp] theorem State.sampled_sleeping (s : State) : s.sampled.sleeping = s.sleeping := rfl
@[simp] theorem State.sampled_halted (s : State) : s.sampled.halted = s.halted := rfl
@[simp] theorem State.sampled_requests (s : State) : s.sampled.requests = s.requests.tail := rfl
@[simp] theorem State.sampled_calls (s : State) : s.sampled.calls = s.calls := rfl
@[simp] theorem State.sampled_exists? (s : State) (a : Word) : s.sampled.exists? a = s.exists? a := rfl

@[simp] theorem State.sampled_fetchDraws (s : State) : s.sampled.fetchDraws = s.request.fetchDraws := rfl
@[simp] theorem State.sampled_vectorDraws (s : State) : s.sampled.vectorDraws = s.request.vectorDraws := rfl

/-- What a read sees that devices answer with `l`: the last byte the list gives for a device's byte, the old byte elsewhere (R63). -/
theorem byteAt_withDraws (s : State) (l : List (Word × Byte)) (x : Word) :
    byteAt (s.withDraws l) x = if s.isDevice x then lastByte l x (byteAt s x) else byteAt s x :=
  s.withDraws_read l x

/-- What each byte reads as after a recognition point. -/
theorem byteAt_sampled (s : State) (x : Word) :
    byteAt s.sampled x = if s.isDevice x then lastByte s.request.dataDraws x (byteAt s x) else byteAt s x :=
  byteAt_withDraws s s.request.dataDraws x

/-- Where the environment draws no byte, a recognition point changes no memory. -/
theorem sampled_mem_of_quiet {s : State} (h : s.request.dataDraws = []) : s.sampled.mem = s.mem := by
  rw [State.sampled, h]
  rfl

/-- Where the environment draws no byte for it, the fetch sees memory as it is. -/
theorem fetchView_of_quiet {s : State} (h : s.request.fetchDraws = []) : s.sampled.fetchView = s.sampled := by
  rw [State.fetchView, State.sampled_fetchDraws, h, State.withDraws_nil]

/-- Sampling changes only bytes that exist and keeps the canonical form; it is a step of memory alone, but for the inputs used up. -/
theorem sampled_evolves (s : State) : Evolves s (s.setMem s.sampled.mem) := s.withDraws_evolves s.request.dataDraws

/-- All that a recognition point can do (R313, R315, R335). -/
theorem recognise_cases (s : State) :
    (∃ cause, recognise s = .over (trapEntry cause s.pc s.sampled)) ∨ (∃ b, recognise s = .over (s.sampled.setSleeping b))
      ∨ recognise s = .run s.sampled := by
  rw [recognise]
  split
  · exact .inl ⟨.nmi, rfl⟩
  · split
    · exact .inl ⟨.irq, rfl⟩
    · split
      · exact .inr (.inl ⟨_, rfl⟩)
      · exact .inr (.inr rfl)

/-- An awake core with no request it takes runs an instruction. -/
theorem recognise_run (s : State) (h2 : s.sleeping = false) (h3 : s.request.nmi = false)
    (h4 : s.request.irq = false ∨ s.p.i = true) : recognise s = .run s.sampled := by
  rw [recognise, h3]
  have : (s.request.irq && !s.sampled.p.i) = false := by
    show (s.request.irq && !s.p.i) = false
    rcases h4 with h | h <;> simp [h]
  simp only [Bool.false_eq_true, if_false, this]
  rw [State.sampled_sleeping, h2]
  rfl

/-! ### The step -/

/-- All that a step can do: nothing more once halted, an interrupt or a sleeping core's wait, or what decoding at `pc` gives. -/
theorem step_cases (s : State) :
    (s.halted = true ∧ step s = .fault .halted)
      ∨ s.halted = false ∧ ((∃ cause, step s = .next (trapEntry cause s.pc s.sampled))
          ∨ (∃ b, step s = .next (s.sampled.setSleeping b)) ∨ step s = runDecoded s.sampled (fetchDecode s.sampled)) := by
  rw [step]
  by_cases h : s.halted = true
  · exact .inl ⟨h, by rw [if_pos h]⟩
  · refine .inr ⟨by simpa using h, ?_⟩
    rw [if_neg h]
    rcases recognise_cases s with ⟨c, e⟩ | ⟨b, e⟩ | e
    · exact .inl ⟨c, by rw [e]; rfl⟩
    · exact .inr (.inl ⟨b, by rw [e]; rfl⟩)
    · exact .inr (.inr (by rw [e]; rfl))

end Sys2Proof.Machine
end

