-- ==== Sys2Proof/Tests/Slice0.lean ====
section
/-! SUPPORT. The model's own tests: ill-formed terms, words written out from `30_encoding.md`, one step at a time on the vectors
of `95_test_vectors.md`, and for every obligation with hypotheses a state and operands that meet them. -/

namespace Sys2Proof.Tests

open Sys2Proof Sys2Proof.Machine Sys2Proof.Claims

/-! ### Small states -/

/-- The state after reset with `regs` written in order, `pc = $1000` and `SP = $8000` before them, the flags of the byte `p`,
`bytes` at `pc`, and `cells` in memory (`95_test_vectors.md`). -/
def start (bytes : List Byte) (regs : List (Reg × Word)) (p : Byte) (cells : List (Word × List Byte)) : State :=
  let s := regs.foldl (fun s r => s.setReg r.1 r.2) ((State.reset.setPc 0x1000).setSp 0x8000)
  let m := cells.foldl (fun m c => Memory.writeBytes m c.1 c.2) s.mem
  (s.setStatus (Status.ofByte p)).setMem (Memory.writeBytes m s.pc bytes)

/-- The state with only the addresses below `$10000` existing (`95_test_vectors.md` section 5). -/
def gapped (s : State) : State := { s with present := [{ base := 0, size := 0x10000, device := false }] }

/-- The state with these requests coming. -/
def asked (rs : List Request) (s : State) : State := { s with requests := rs }

/-- What `f` sees of the next state. -/
def after {α : Type} (f : State → α) : Host.Outcome State Fault Refusal → Option α
  | .next t => some (f t)
  | .fault _ => none
  | .refused _ => none

/-- The next state, where there is one. -/
def goesOn : Host.Outcome State Fault Refusal → Bool
  | .next _ => true
  | .fault _ => false
  | .refused _ => false

/-! ### Well-formedness: one ill-formed term for each check -/

theorem test_wf_constant_too_long : (Instr.mov .byte (.regConst .r0 0x100)).wf = false := by decide

theorem test_wf_constant_to_absolute_too_long : (Instr.add .word (.absConst 0x2000 0x10000)).wf = false := by decide

theorem test_wf_constant_to_pointer_too_long : (Instr.cmp .byte (.indConst .r1 .postInc 0x100)).wf = false := by decide

theorem test_wf_pushed_constant_too_long : (Instr.push .word (.const 0x10000)).wf = false := by decide

theorem test_wf_branch_offset_too_long : (Instr.bne .byte 0xFFFFFFFF).wf = false := by decide

theorem test_wf_call_number_too_long : (Instr.sys .byte 0x100).wf = false := by decide

theorem test_wf_largest_fields_fit :
    (Instr.mov .byte (.regConst .r0 0xFF)).wf = true ∧ (Instr.add .word (.absConst 0xFFFFFFFF 0xFFFF)).wf = true
      ∧ (Instr.cmp .long (.indConst .r1 .postInc 0xFFFFFFFF)).wf = true ∧ (Instr.push .byte (.const 0xFF)).wf = true
      ∧ (Instr.bne .word 0xFFFF).wf = true ∧ (Instr.sys .long 0xFFFFFFFF).wf = true := by decide

/-! ### Encodings written out from R80–R100 (the first words of each row are in `95_test_vectors.md` section 2.1) -/

/-- The bytes decode to the instruction and the instruction's encoding is the bytes. -/
def coded (e : List Byte × Instr) : Bool := decide (decode e.1 = .instr e.2) && decide (encode e.2 = e.1)

theorem test_codes_of_two_operand_data :
    ([([0x00, 0x21, 0x02, 0x22, 0x00, 0x00, 0x00], .mov .long (.regConst .r2 34)),
      ([0x02, 0x2C, 0x01, 0x04, 0x00, 0x00, 0x00], .add .long (.indConst .r1 .plain 4)),
      ([0x43, 0x44, 0x12], .sub .word (.regReg .r1 .r2)),
      ([0x84, 0x26, 0x04, 0x00, 0x20, 0x00, 0x00], .adc .byte (.regAbs .r4 0x2000)),
      ([0x05, 0x27, 0x04, 0x00, 0x20, 0x00, 0x00], .sbc .long (.absReg 0x2000 .r4)),
      ([0x48, 0x08, 0x00, 0x20, 0x00, 0x00, 0xEF, 0xBE], .mul .word (.absConst 0x2000 0xBEEF)),
      ([0x09, 0xCA, 0x01], .div .long (.regInd .r0 .r1 .preDec)),
      ([0x8A, 0x8B, 0x2E], .and .byte (.indReg .sp .r2 .postInc)),
      ([0x0B, 0xCE, 0x01, 0x10, 0x00, 0x00, 0x00], .or .long (.regIdx .r0 .r1 .preDec 16)),
      ([0x0C, 0x4F, 0x21, 0x10, 0x00, 0x00, 0x00], .xor .long (.idxReg .r1 .r2 .plain 16)),
      ([0x8D, 0x44, 0x01], .shl .byte (.regReg .r0 .r1)),
      ([0x8E, 0x21, 0x00, 0x01], .shr .byte (.regConst .r0 1)),
      ([0x4F, 0x21, 0x0D, 0x04, 0x00], .rol .word (.regConst .r13 4)),
      ([0x50, 0x21, 0x00, 0x04, 0x00], .ror .word (.regConst .r0 4)),
      ([0x91, 0x21, 0x0D, 0xFF], .cmp .byte (.regConst .r13 0xFF))] : List (List Byte × Instr)).all coded = true := by decide

theorem test_codes_of_one_operand_data :
    ([([0x81, 0x23, 0x0E], .clr .byte (.reg .sp)),
      ([0x01, 0xAD, 0x01, 0xFC, 0xFF, 0xFF, 0xFF], .clr .long (.idx .r1 .preDec 0xFFFFFFFC)),
      ([0x06, 0x05, 0x00, 0x20, 0x00, 0x00], .inc .long (.abs 0x2000)),
      ([0x47, 0xA9, 0x01], .dec .word (.ind .r1 .preDec)),
      ([0x30, 0x23, 0x00], .sxb .r0),
      ([0x31, 0x23, 0x05], .sxw .r5)] : List (List Byte × Instr)).all coded = true := by decide

theorem test_codes_of_flag_and_system_instructions :
    ([([0x12, 0x00], .sec), ([0x13, 0x00], .clc), ([0x14, 0x00], .sei), ([0x15, 0x00], .cli), ([0x2D, 0x00], .sev),
      ([0x2E, 0x00], .clv), ([0x1D, 0x00], .rti), ([0x1E, 0x00], .brk), ([0x1F, 0x00], .nop), ([0x2F, 0x00], .slp),
      ([0xB2, 0x12, 0x01], .sys .byte 1), ([0x32, 0x12, 0x01, 0x00, 0x00, 0x00], .sys .long 1)] :
        List (List Byte × Instr)).all coded = true := by decide

theorem test_codes_of_control_transfer :
    ([([0x1A, 0x11, 0x00, 0x20, 0x00, 0x00], .jmp 0x2000), ([0x1B, 0x11, 0x42, 0x94, 0xF0, 0x00], .jsr 0xF09442),
      ([0x1C, 0x00], .rts), ([0x20, 0x10, 0x00, 0x01, 0x00, 0x00], .bra .long 0x100), ([0xA1, 0x10, 0xFD], .beq .byte 0xFD),
      ([0x62, 0x10, 0xF6, 0xFF], .bne .word 0xFFF6), ([0xA3, 0x10, 0x10], .bcc .byte 0x10), ([0xA4, 0x10, 0x10], .bcs .byte 0x10),
      ([0xA5, 0x10, 0x10], .bpl .byte 0x10), ([0xA6, 0x10, 0x10], .bmi .byte 0x10), ([0xA7, 0x10, 0x10], .bvc .byte 0x10),
      ([0xA8, 0x10, 0x10], .bvs .byte 0x10), ([0xA9, 0x10, 0x10], .blt .byte 0x10), ([0xAA, 0x10, 0x10], .bgt .byte 0x10),
      ([0xAB, 0x10, 0x10], .ble .byte 0x10), ([0xAC, 0x10, 0x10], .bge .byte 0x10)] : List (List Byte × Instr)).all coded = true := by
  decide

theorem test_codes_of_stack_instructions :
    ([([0x56, 0x02, 0x34, 0x12], .push .word (.const 0x1234)), ([0x16, 0x69, 0x01], .push .long (.operand (.ind .r1 .postInc))),
      ([0x97, 0x23, 0x00], .pop .byte (.reg .r0)), ([0x17, 0x05, 0x00, 0x20, 0x00, 0x00], .pop .long (.abs 0x2000)),
      ([0x18, 0x00], .pusha), ([0x19, 0x00], .popa)] : List (List Byte × Instr)).all coded = true := by decide

/-- `95_test_vectors.md` section 2.2; and the last assigned code, mode and configuration beside the first reserved ones. -/
theorem test_reserved_fields_are_illegal :
    ∀ bs ∈ ([[0xFF, 0xFF], [0x33, 0x00], [0xC0, 0x00], [0x00, 0xE0], [0x00, 0x13], [0x3F, 0x00], [0x33, 0x12]] : List (List Byte)),
      decode bs = .illegal := by decide

/-- `95_test_vectors.md` section 2.2. -/
theorem test_words_without_a_meaning :
    ∀ bs ∈ ([[0x13, 0x04], [0x00, 0x23], [0x00, 0x2A], [0x00, 0x63], [0x9C, 0x00], [0x0D, 0x23], [0x1A, 0x29], [0x12, 0x12],
        [0x00, 0x00], [0x70, 0x23]] : List (List Byte)),
      decode bs = .unspecifiedWord := by decide

theorem test_selector_without_a_meaning : decode [0x06, 0x23, 0x10] = .unspecifiedSelector := by decide

theorem test_bytes_that_end_too_early : decode [0x00, 0x21, 0x02, 0x22, 0x00, 0x00] = .short ∧ decode [0x1F] = .short := by decide

/-- The host's numbering: bit 0 is the lowest bit of the first byte. -/
theorem test_table_word : decodeTableWord 16 0x4400 = some (.mov .long (.regReg .r0 .r0)) ∧ decodeTableWord 16 0 = none := by decide

/-! ### Single steps on the vectors of `95_test_vectors.md` -/

theorem test_mov_byte_keeps_upper :
    after (fun t => (t.reg .r0, t.p.toByte, t.pc)) (step (start [0x80, 0x21, 0x00, 0x05] [(.r0, 0xAABBCCDD)] 0 [])) =
      some (0xAABBCC05, 0, 0x1004) := by decide

theorem test_mov_ptr_and_dst :
    after (fun t => (t.reg .r1, t.p.toByte, t.pc)) (step (start [0x80, 0x8A, 0x11] [(.r1, 0x2000)] 0 [(0x2000, [0xFF])])) =
      some (0x2100, 2, 0x1003) := by decide

theorem test_clr_keeps_carry :
    after (fun t => (t.reg .r3, t.p.toByte, t.pc)) (step (start [0x01, 0x23, 0x03] [(.r3, 0xFFFFFFFF)] 4 [])) =
      some (0, 5, 0x1003) := by decide

theorem test_clr_word_postinc :
    after (fun t => (t.reg .r1, t.mem.readLE 0x2000 4, t.p.toByte, t.pc)) (step (start [0x41, 0x69, 0x01] [(.r1, 0x2000)] 0 [(0x2000, [0xFF, 0xFF, 0xFF, 0xFF])])) =
      some (0x2002, 0xFFFF0000, 1, 0x1003) := by decide

theorem test_add_signed_overflow :
    after (fun t => (t.reg .r0, t.p.toByte, t.pc)) (step (start [0x02, 0x21, 0x00, 0x00, 0x00, 0x00, 0x80] [(.r0, 0x80000000)] 0 [])) =
      some (0, 0xD, 0x1007) := by decide

theorem test_add_rmw :
    after (fun t => (t.reg .r1, t.mem.readLE 0x2000 4, t.p.toByte, t.pc)) (step (start [0x02, 0x2C, 0x01, 0x04, 0x00, 0x00, 0x00] [(.r1, 0x2000)] 0 [(0x2000, [0xA, 0, 0, 0])])) =
      some (0x2000, 0xE, 0, 0x1007) := by decide

theorem test_sub_borrow :
    after (fun t => (t.reg .r0, t.p.toByte, t.pc)) (step (start [0x03, 0x21, 0x00, 0x05, 0x00, 0x00, 0x00] [(.r0, 3)] 0 [])) =
      some (0xFFFFFFFE, 2, 0x1007) := by decide

theorem test_sub_overflow :
    after (fun t => (t.reg .r0, t.p.toByte, t.pc)) (step (start [0x03, 0x21, 0x00, 0x01, 0x00, 0x00, 0x00] [(.r0, 0x80000000)] 0 [])) =
      some (0x7FFFFFFF, 0xC, 0x1007) := by decide

theorem test_adc_carry_in :
    after (fun t => (t.reg .r0, t.p.toByte, t.pc)) (step (start [0x04, 0x21, 0x00, 0xFF, 0xFF, 0xFF, 0xFF] [(.r0, 0xFFFFFFFF)] 4 [])) =
      some (0xFFFFFFFF, 6, 0x1007) := by decide

theorem test_adc_wraps :
    after (fun t => (t.reg .r0, t.p.toByte, t.pc)) (step (start [0x04, 0x21, 0x00, 0x00, 0x00, 0x00, 0x00] [(.r0, 0xFFFFFFFF)] 4 [])) =
      some (0, 5, 0x1007) := by decide

theorem test_sbc_borrow_in :
    after (fun t => (t.reg .r0, t.p.toByte, t.pc)) (step (start [0x05, 0x21, 0x00, 0x05, 0x00, 0x00, 0x00] [(.r0, 5)] 0 [])) =
      some (0xFFFFFFFF, 2, 0x1007) := by decide

theorem test_sbc_overflow :
    after (fun t => (t.reg .r0, t.p.toByte, t.pc)) (step (start [0x05, 0x21, 0x00, 0x00, 0x00, 0x00, 0x00] [(.r0, 0x80000000)] 0 [])) =
      some (0x7FFFFFFF, 0xC, 0x1007) := by decide

theorem test_inc_keeps_carry :
    after (fun t => (t.reg .r2, t.p.toByte, t.pc)) (step (start [0x06, 0x23, 0x02] [(.r2, 0x7FFFFFFF)] 4 [])) =
      some (0x80000000, 6, 0x1003) := by decide

theorem test_inc_memory :
    after (fun t => (t.reg .r1, t.mem.readLE 0x2000 4, t.p.toByte, t.pc)) (step (start [0x06, 0x69, 0x01] [(.r1, 0x2000)] 0 [(0x2000, [9, 0, 0, 0])])) =
      some (0x2004, 0xA, 0, 0x1003) := by decide

theorem test_dec_word :
    after (fun t => (t.reg .r0, t.p.toByte, t.pc)) (step (start [0x47, 0x23, 0x00] [(.r0, 0x10000)] 0 [])) =
      some (0x1FFFF, 2, 0x1003) := by decide

theorem test_dec_predec :
    after (fun t => (t.reg .r1, t.mem.readLE 0x2000 4, t.p.toByte, t.pc)) (step (start [0x07, 0xA9, 0x01] [(.r1, 0x2004)] 0 [(0x2000, [9, 0, 0, 0])])) =
      some (0x2000, 8, 0, 0x1003) := by decide

theorem test_mul_signed :
    after (fun t => (t.reg .r0, t.p.toByte, t.pc)) (step (start [0x08, 0x21, 0x00, 0xFF, 0xFF, 0xFF, 0xFF] [(.r0, 0xFFFFFFFF)] 0xC [])) =
      some (1, 0xC, 0x1007) := by decide

theorem test_mul_byte :
    after (fun t => (t.reg .r0, t.p.toByte, t.pc)) (step (start [0x88, 0x21, 0x00, 0x10] [(.r0, 0xAABBCC10)] 0 [])) =
      some (0xAABBCC00, 1, 0x1004) := by decide

theorem test_div_unsigned :
    after (fun t => (t.reg .r0, t.p.toByte, t.pc)) (step (start [0x09, 0x21, 0x00, 0xFF, 0xFF, 0xFF, 0xFF] [(.r0, 0x80000000)] 0 [])) =
      some (0, 1, 0x1007) := by decide

theorem test_div_byte :
    after (fun t => (t.reg .r0, t.p.toByte, t.pc)) (step (start [0x89, 0x21, 0x00, 0x10] [(.r0, 0xAABBCCFF)] 0 [])) =
      some (0xAABBCC0F, 0, 0x1004) := by decide

theorem test_and_byte :
    after (fun t => (t.reg .r0, t.p.toByte, t.pc)) (step (start [0x8A, 0x21, 0x00, 0x0F] [(.r0, 0x123456AB)] 0 [])) =
      some (0x1234560B, 0, 0x1004) := by decide

theorem test_and_zero :
    after (fun t => (t.reg .r0, t.p.toByte, t.pc)) (step (start [0x0A, 0x21, 0x00, 0x00, 0xFF, 0x00, 0x00] [(.r0, 0xFF)] 0 [])) =
      some (0, 1, 0x1007) := by decide

theorem test_or_word :
    after (fun t => (t.reg .r0, t.p.toByte, t.pc)) (step (start [0x4B, 0x21, 0x00, 0x00, 0x80] [(.r0, 0)] 0 [])) =
      some (0x8000, 2, 0x1005) := by decide

theorem test_xor_self :
    after (fun t => (t.reg .r0, t.p.toByte, t.pc)) (step (start [0x0C, 0x44, 0x00] [(.r0, 0x12345678)] 0 [])) =
      some (0, 1, 0x1003) := by decide

theorem test_xor_keeps_carry :
    after (fun t => (t.reg .r0, t.p.toByte, t.pc)) (step (start [0x0C, 0x21, 0x00, 0xFF, 0xFF, 0xFF, 0xFF] [(.r0, 0xAAAAAAAA)] 4 [])) =
      some (0x55555555, 4, 0x1007) := by decide

theorem test_shl_width :
    after (fun t => (t.reg .r0, t.p.toByte, t.pc)) (step (start [0x0D, 0x21, 0x00, 0x20, 0x00, 0x00, 0x00] [(.r0, 0x80000001)] 0 [])) =
      some (0, 5, 0x1007) := by decide

theorem test_shl_low_count :
    after (fun t => (t.reg .r0, t.p.toByte, t.pc)) (step (start [0x8D, 0x44, 0x01] [(.r0, 0xFF), (.r1, 0x104)] 0 [])) =
      some (0xF0, 6, 0x1003) := by decide

theorem test_shr_byte :
    after (fun t => (t.reg .r0, t.p.toByte, t.pc)) (step (start [0x8E, 0x21, 0x00, 0x01] [(.r0, 0xFFFFFF81)] 0 [])) =
      some (0xFFFFFF40, 4, 0x1004) := by decide

theorem test_shr_past_width :
    after (fun t => (t.reg .r0, t.p.toByte, t.pc)) (step (start [0x0E, 0x21, 0x00, 0xC8, 0x00, 0x00, 0x00] [(.r0, 0x80000001)] 4 [])) =
      some (0, 1, 0x1007) := by decide

theorem test_rol_mod :
    after (fun t => (t.reg .r0, t.p.toByte, t.pc)) (step (start [0x0F, 0x21, 0x00, 0x24, 0x00, 0x00, 0x00] [(.r0, 0x12345678)] 0 [])) =
      some (0x23456781, 4, 0x1007) := by decide

theorem test_rol_count_zero :
    after (fun t => (t.reg .r0, t.p.toByte, t.pc)) (step (start [0x0F, 0x21, 0x00, 0x00, 0x00, 0x00, 0x00] [(.r0, 0x80000001)] 4 [])) =
      some (0x80000001, 6, 0x1007) := by decide

theorem test_ror_word :
    after (fun t => (t.reg .r0, t.p.toByte, t.pc)) (step (start [0x50, 0x21, 0x00, 0x04, 0x00] [(.r0, 0x1234ABCD)] 0 [])) =
      some (0x1234DABC, 6, 0x1005) := by decide

theorem test_ror_byte :
    after (fun t => (t.reg .r0, t.p.toByte, t.pc)) (step (start [0x90, 0x21, 0x00, 0x01] [(.r0, 1)] 0 [])) =
      some (0x80, 6, 0x1004) := by decide

theorem test_cmp_less :
    after (fun t => (t.reg .r0, t.p.toByte, t.pc)) (step (start [0x11, 0x21, 0x00, 0x0A, 0x00, 0x00, 0x00] [(.r0, 3)] 0 [])) =
      some (3, 2, 0x1007) := by decide

theorem test_cmp_memory :
    after (fun t => (t.reg .r1, t.mem.readLE 0x2000 4, t.p.toByte, t.pc)) (step (start [0x11, 0x6C, 0x01, 0x00, 0x00, 0x00, 0x00] [(.r1, 0x2000)] 0 [(0x2000, [0, 0, 0, 0])])) =
      some (0x2004, 0, 5, 0x1007) := by decide

theorem test_sec :
    after (fun t => (t.p.toByte, t.pc)) (step (start [0x12, 0x00] [] 0 [])) =
      some (4, 0x1002) := by decide

theorem test_clc :
    after (fun t => (t.p.toByte, t.pc)) (step (start [0x13, 0x00] [] 0x1F [])) =
      some (0x1B, 0x1002) := by decide

theorem test_sev :
    after (fun t => (t.p.toByte, t.pc)) (step (start [0x2D, 0x00] [] 0 [])) =
      some (8, 0x1002) := by decide

theorem test_clv :
    after (fun t => (t.p.toByte, t.pc)) (step (start [0x2E, 0x00] [] 0x1F [])) =
      some (0x17, 0x1002) := by decide

theorem test_sei :
    after (fun t => (t.p.toByte, t.pc)) (step (start [0x14, 0x00] [] 0 [])) =
      some (0x10, 0x1002) := by decide

theorem test_cli :
    after (fun t => (t.p.toByte, t.pc)) (step (start [0x15, 0x00] [] 0x1F [])) =
      some (0xF, 0x1002) := by decide

theorem test_sxb :
    after (fun t => (t.reg .r0, t.p.toByte, t.pc)) (step (start [0x30, 0x23, 0x00] [(.r0, 0x123456F0)] 0 [])) =
      some (0xFFFFFFF0, 2, 0x1003) := by decide

theorem test_sxw :
    after (fun t => (t.reg .r5, t.p.toByte, t.pc)) (step (start [0x31, 0x23, 0x05] [(.r5, 0x18001)] 0 [])) =
      some (0xFFFF8001, 2, 0x1003) := by decide

theorem test_jmp :
    after (fun t => (t.p.toByte, t.pc)) (step (start [0x1A, 0x11, 0x00, 0x20, 0x00, 0x00] [] 0 [])) =
      some (0, 0x2000) := by decide

theorem test_jsr :
    after (fun t => (t.reg .sp, t.mem.readLE 0x7FFC 4, t.p.toByte, t.pc)) (step (start [0x1B, 0x11, 0x42, 0x94, 0xF0, 0x00] [] 0 [])) =
      some (0x7FFC, 0x1006, 0, 0xF09442) := by decide

theorem test_rts :
    after (fun t => (t.reg .sp, t.p.toByte, t.pc)) (step (start [0x1C, 0x00] [(.sp, 0x7FFC)] 0 [(0x7FFC, [6, 0x10, 0, 0])])) =
      some (0x8000, 0, 0x1006) := by decide

theorem test_bra_targets :
    after (fun t => t.pc) (step (start [0xA0, 0x10, 0xFD] [] 0 [])) = some 0x1000
      ∧ after (fun t => t.pc) (step (start [0x60, 0x10, 0xF6, 0xFF] [] 0 [])) = some 0xFFA
      ∧ after (fun t => t.pc) (step (start [0x20, 0x10, 0x00, 0x10, 0x00, 0x00] [] 0 [])) = some 0x2006
      ∧ after (fun t => t.pc) (step (start [0xA0, 0x10, 0x80] [] 0 [])) = some 0xF83
      ∧ after (fun t => t.pc) (step (start [0xA0, 0x10, 0x10] [(.pc, 0xFFFFFFFE)] 0 [])) = some 0x11 := by decide

/-- R236's loop: a 3-byte instruction before `BNE.B` with offset `$FA` (−6). -/
theorem test_bne_loops_back : after (fun t => t.pc) (step (start [0xA2, 0x10, 0xFA] [] 0 [])) = some 0xFFD := by decide

theorem test_push_sp :
    after (fun t => (t.reg .sp, t.mem.readLE 0x7FFC 4, t.p.toByte, t.pc)) (step (start [0x16, 0x23, 0x0E] [] 0 [])) =
      some (0x7FFC, 0x8000, 0, 0x1003) := by decide

theorem test_push_memory :
    after (fun t => (t.reg .r1, t.reg .sp, t.mem.readLE 0x7FFC 4, t.p.toByte, t.pc)) (step (start [0x16, 0x69, 0x01] [(.r1, 0x2000)] 0 [(0x2000, [0xFE, 0xCA, 0, 0])])) =
      some (0x2004, 0x7FFC, 0xCAFE, 0, 0x1003) := by decide

theorem test_pop_byte :
    after (fun t => (t.reg .r0, t.reg .sp, t.p.toByte, t.pc)) (step (start [0x97, 0x23, 0x00] [(.r0, 0xAABBCCDD), (.sp, 0x7FFF)] 0 [(0x7FFF, [0])])) =
      some (0xAABBCC00, 0x8000, 1, 0x1003) := by decide

theorem test_pop_sp :
    after (fun t => (t.reg .sp, t.p.toByte, t.pc)) (step (start [0x17, 0x23, 0x0E] [(.sp, 0x7FFC)] 0 [(0x7FFC, [0, 0x90, 0, 0])])) =
      some (0x9000, 0, 0x1003) := by decide

theorem test_rti_drops_high_bits :
    after (fun t => (t.reg .sp, t.p.toByte, t.pc)) (step (start [0x1D, 0x00] [(.pc, 0x3000), (.sp, 0x7FFB)] 0 [(0x7FFB, [0xF4]), (0x7FFC, [2, 0x10, 0, 0])])) =
      some (0x8000, 0x14, 0x1002) := by decide

theorem test_brk :
    after (fun t => (t.reg .sp, t.mem.readLE 0x7FFC 4, t.mem.readLE 0x7FFB 1, t.p.toByte, t.pc)) (step (start [0x1E, 0x00] [] 4 [(0x18, [0, 0x30, 0, 0])])) =
      some (0x7FFB, 0x1002, 4, 4, 0x3000) := by decide

/-- The next `pc` of a branch at `$1000` with the `.B` offset `$10`, from the flags of the byte `p`. -/
def branched (code p : Byte) : Option Word := after (fun t => t.pc) (step (start [code, 0x10, 0x10] [] p []))

theorem test_bra_condition :
    (∀ p ∈ ([0x00, 0x1F] : List Byte), branched 0xA0 p = some 0x1013) := by decide

theorem test_beq_condition :
    (∀ p ∈ ([0x01] : List Byte), branched 0xA1 p = some 0x1013)
      ∧ ∀ p ∈ ([0x00] : List Byte), branched 0xA1 p = some 0x1003 := by decide

theorem test_bne_condition :
    (∀ p ∈ ([0x00] : List Byte), branched 0xA2 p = some 0x1013)
      ∧ ∀ p ∈ ([0x01] : List Byte), branched 0xA2 p = some 0x1003 := by decide

theorem test_bcc_condition :
    (∀ p ∈ ([0x00] : List Byte), branched 0xA3 p = some 0x1013)
      ∧ ∀ p ∈ ([0x04] : List Byte), branched 0xA3 p = some 0x1003 := by decide

theorem test_bcs_condition :
    (∀ p ∈ ([0x04] : List Byte), branched 0xA4 p = some 0x1013)
      ∧ ∀ p ∈ ([0x00] : List Byte), branched 0xA4 p = some 0x1003 := by decide

theorem test_bpl_condition :
    (∀ p ∈ ([0x00] : List Byte), branched 0xA5 p = some 0x1013)
      ∧ ∀ p ∈ ([0x02] : List Byte), branched 0xA5 p = some 0x1003 := by decide

theorem test_bmi_condition :
    (∀ p ∈ ([0x02] : List Byte), branched 0xA6 p = some 0x1013)
      ∧ ∀ p ∈ ([0x00] : List Byte), branched 0xA6 p = some 0x1003 := by decide

theorem test_bvc_condition :
    (∀ p ∈ ([0x00] : List Byte), branched 0xA7 p = some 0x1013)
      ∧ ∀ p ∈ ([0x08] : List Byte), branched 0xA7 p = some 0x1003 := by decide

theorem test_bvs_condition :
    (∀ p ∈ ([0x08] : List Byte), branched 0xA8 p = some 0x1013)
      ∧ ∀ p ∈ ([0x00] : List Byte), branched 0xA8 p = some 0x1003 := by decide

theorem test_blt_condition :
    (∀ p ∈ ([0x02, 0x08, 0x03, 0x09] : List Byte), branched 0xA9 p = some 0x1013)
      ∧ ∀ p ∈ ([0x0A, 0x00] : List Byte), branched 0xA9 p = some 0x1003 := by decide

theorem test_bgt_condition :
    (∀ p ∈ ([0x00, 0x0A] : List Byte), branched 0xAA p = some 0x1013)
      ∧ ∀ p ∈ ([0x01, 0x02, 0x08, 0x0B] : List Byte), branched 0xAA p = some 0x1003 := by decide

theorem test_ble_condition :
    (∀ p ∈ ([0x01, 0x02, 0x08, 0x0B, 0x03] : List Byte), branched 0xAB p = some 0x1013)
      ∧ ∀ p ∈ ([0x00, 0x0A] : List Byte), branched 0xAB p = some 0x1003 := by decide

theorem test_bge_condition :
    (∀ p ∈ ([0x00, 0x0A, 0x01] : List Byte), branched 0xAC p = some 0x1013)
      ∧ ∀ p ∈ ([0x02, 0x08] : List Byte), branched 0xAC p = some 0x1003 := by decide

theorem test_nop_keeps_flags : after (fun t => (t.p.toByte, t.pc)) (step (start [0x1F, 0x00] [] 0x1F [])) = some (0x1F, 0x1002) := by
  decide

theorem test_slp_sleeps : after (fun t => (t.sleeping, t.pc)) (step (start [0x2F, 0x00] [] 0 [])) = some (true, 0x1002) := by decide

theorem test_sys_is_refused : step (start [0xB2, 0x12, 0x01] [] 0 []) = .refused (.sysCall 1) := rfl

/-- A platform that answers the call: here by storing a byte and going on after the instruction. -/
theorem test_sys_answered :
    let s := start [0xB2, 0x12, 0x01] [] 0 []
    after (fun t => (t.pc, t.mem.readLE 0x2000 1, t.calls))
      (step (s.setCalls [⟨[], [(0x2000, 7)], s.regs.set .pc 0x1003, s.p, false⟩])) = some (0x1003, 7, []) := by decide

/-- A call that reads a byte that does not exist: IllegalAddress with the address of the next instruction, and none of its effect. -/
theorem test_sys_missing_byte :
    let s := gapped (start [0xB2, 0x12, 0x01] [] 3 [(0x0C, [0x0C, 0x30, 0, 0])])
    after (fun t => (t.pc, t.mem.readLE 0x7FFC 4, t.p.toByte, t.mem.readLE 0x2000 1))
      (step (s.setCalls [⟨[0x10000], [(0x2000, 7)], s.regs, s.p, false⟩])) = some (0x300C, 0x1003, 3, 0) := by decide

theorem test_pusha :
    after (fun t => (t.sp, t.mem.readLE 0x7FFC 4, t.mem.readLE 0x7FF8 4, t.mem.readLE 0x7FCC 4, t.mem.readLE 0x7FC8 4, t.pc))
      (step (start [0x18, 0x00] [(.r0, 1), (.r1, 2), (.r12, 13), (.r13, 14)] 0x1F [])) =
      some (0x7FC8, 1, 2, 13, 14, 0x1002) := by decide

theorem test_popa :
    after (fun t => (t.reg .r0, t.reg .r1, t.reg .r12, t.reg .r13, t.sp, t.pc))
      (step (start [0x19, 0x00] [(.r0, 0xDEAD), (.sp, 0x7FC8)] 0
        [(0x7FFC, [1]), (0x7FF8, [2]), (0x7FCC, [13]), (0x7FC8, [14])])) =
      some (1, 2, 13, 14, 0x8000, 0x1002) := by decide

/-! ### Traps and interrupts: `95_test_vectors.md` section 5 -/

/-- The vector table of that section, and `cells`. -/
def vectored (cells : List (Word × List Byte)) : List (Word × List Byte) :=
  (0x00, [0x00, 0x10, 0, 0]) :: (0x04, [0x00, 0x80, 0, 0]) :: (0x08, [0x08, 0x30, 0, 0]) :: (0x0C, [0x0C, 0x30, 0, 0])
    :: (0x10, [0x10, 0x30, 0, 0]) :: (0x14, [0x14, 0x30, 0, 0]) :: (0x18, [0x18, 0x30, 0, 0]) :: (0x1C, [0x1C, 0x30, 0, 0]) :: cells

/-- The start state of a row of that section. -/
def trapping (bytes : List Byte) (regs : List (Reg × Word)) (p : Byte) (cells : List (Word × List Byte)) : State :=
  gapped (start bytes regs p (vectored cells))

/-- What a row shows after trap entry: the pushed status byte and return PC, `pc`, `SP` and `P`. -/
def frame (t : State) : Nat × Nat × Word × Word × Byte :=
  (t.mem.readLE 0x7FFB 1, t.mem.readLE 0x7FFC 4, t.pc, t.sp, t.p.toByte)

theorem test_trap_illegal_instruction : after frame (step (trapping [0xFF, 0xFF] [] 3 [])) = some (3, 0x1002, 0x3008, 0x7FFB, 3) := by
  decide

theorem test_trap_reserved_size : after frame (step (trapping [0xC0, 0x21, 0x00, 0x05] [] 0 [])) = some (0, 0x1002, 0x3008, 0x7FFB, 0) := by
  decide

theorem test_trap_missing_destination :
    after (fun t => (t.reg .r1, frame t)) (step (trapping [0x00, 0xCB, 0x01] [(.r1, 0x10004), (.r0, 9)] 0 [])) =
      some (0x10004, 0, 0x1003, 0x300C, 0x7FFB, 0) := by decide

theorem test_trap_missing_operand_field :
    after frame (step (trapping [0x00, 0x21, 0x02, 0x22, 0x00, 0x00, 0x00] [(.pc, 0xFFFC)] 0 [])) =
      some (0, 0xFFFC, 0x300C, 0x7FFB, 0) := by decide

theorem test_trap_partly_missing_source :
    after (fun t => (t.reg .r0, frame t)) (step (trapping [0x00, 0x4A, 0x01] [(.r1, 0xFFFE), (.r0, 7)] 0 [])) =
      some (7, 0, 0x1003, 0x300C, 0x7FFB, 0) := by decide

theorem test_trap_division_by_zero_undoes_the_pointer :
    after (fun t => (t.reg .r1, frame t)) (step (trapping [0x09, 0xCA, 0x01] [(.r0, 0x64), (.r1, 0x2004)] 0 [])) =
      some (0x2004, 0, 0x1003, 0x3010, 0x7FFB, 0) := by decide

theorem test_trap_missing_dividend_before_zero_divisor :
    after frame (step (trapping [0x09, 0x4B, 0x01] [(.r0, 0), (.r1, 0x20000)] 0 [])) = some (0, 0x1003, 0x300C, 0x7FFB, 0) := by decide

theorem test_irq_taken :
    after frame (step (asked [⟨false, true, [], [], []⟩] (trapping [0x1F, 0x00] [] 1 []))) = some (1, 0x1000, 0x3014, 0x7FFB, 1) := by decide

theorem test_irq_masked :
    after (fun t => (t.pc, t.sp, t.p.toByte)) (step (asked [⟨false, true, [], [], []⟩] (trapping [0x1F, 0x00] [] 0x10 []))) =
      some (0x1002, 0x8000, 0x10) := by decide

theorem test_nmi_before_irq_not_masked :
    after frame (step (asked [⟨true, true, [], [], []⟩] (trapping [0x1F, 0x00] [] 0x10 []))) = some (0x10, 0x1000, 0x301C, 0x7FFB, 0x10) := by decide

theorem test_masked_irq_wakes :
    after (fun t => (t.sleeping, t.pc, t.sp)) (step ((asked [⟨false, true, [], [], []⟩] (trapping [0x1F, 0x00] [] 0x10 [])).setSleeping true)) =
      some (false, 0x1000, 0x8000) := by decide

/-- The state of a halted core is the one before the failed entry; for BRK `pc` is past it. -/
theorem test_double_fault_in_brk :
    after (fun t => (t.pc, t.sp, t.halted)) (step (trapping [0x1E, 0x00] [(.sp, 0x10003)] 0 [])) = some (0x1002, 0x10003, true) := by
  decide

theorem test_double_fault_at_illegal_word :
    after (fun t => (t.pc, t.sp, t.halted)) (step (trapping [0xFF, 0xFF] [(.sp, 2)] 0 [])) = some (0x1000, 2, true) := by decide

theorem test_reset_sequence :
    (resetSequence (trapping [] [(.pc, 9), (.sp, 7)] 0 [])).pc = 0x1000 ∧ (resetSequence (trapping [] [(.pc, 9), (.sp, 7)] 0 [])).sp = 0x8000 := by
  decide

/-- `95_test_vectors.md` section 5: a store is seen by the fetch of what it changed (here NOP becomes SEC). -/
theorem test_store_is_fetched :
    after fetchDecode (step (start [0x40, 0x08, 0x08, 0x10, 0x00, 0x00, 0x12, 0x00, 0x1F, 0x00] [] 0 [])) = some (.instr .sec) := by decide

/-- `withFetchWord` on the row `MOV Rx, Ry` of `opcode_table.json` (match `0x4400`; the selector byte zero). -/
theorem test_placed_word_runs_first :
    fetchDecode (State.reset.withFetchWord 16 0x4400) = .instr (.mov .long (.regReg .r0 .r0))
      ∧ after (fun t => t.pc) (step (State.reset.withFetchWord 16 0x4400)) = some 3 := by decide

/-! ### Devices: R63, R65 -/

/-- A state with a device at `base`, …, `base + 3`, and the draws of its coming step. -/
def withDevice (base : Nat) (fetch data vector : List (Word × Byte)) (s : State) : State :=
  { s with present := { base := base, size := 4, device := true } :: s.present, requests := [⟨false, false, fetch, data, vector⟩] }

/-- A device read gives the draw; a byte that is not a device's does not change. -/
theorem test_device_read :
    after (fun t => (t.reg .r0, t.mem.readLE 0x2004 1))
      (step (withDevice 0x2000 [] [(0x2000, 0x41), (0x2004, 0x42)] [] (start [0x80, 0x26, 0x00, 0x00, 0x20, 0x00, 0x00] [] 0 []))) =
      some (0x41, 0) := by decide

/-- Two reads of one device byte in a step are two draws: `MOV.B R0, [PC-5]` reads its own selector byte as `$0F` at the fetch and as `$41`
as data. -/
theorem test_device_draws_fetch_and_data :
    after (fun t => (t.reg .r0, t.pc))
      (step (withDevice 0x1000 [(0x1002, 0x0F)] [(0x1002, 0x41)] []
        (start [0x80, 0x4E, 0x00, 0xFB, 0xFF, 0xFF, 0xFF] [] 0 []))) = some (0x41, 0x1007) := by decide

/-- A vector read from a device is a draw of its own, whatever the trap entry has pushed there: BRK with the stack over its vector. -/
theorem test_device_draws_vector :
    after (fun t => (t.pc, t.mem.readLE 0x18 4))
      (step (withDevice 0x18 [] [] [(0x18, 0x78), (0x19, 0x56), (0x1A, 0x34), (0x1B, 0x12)] (start [0x1E, 0x00] [(.sp, 0x1C)] 0 []))) =
      some (0x12345678, 0x1002) := by decide

/-! ### Witnesses: states and operands that meet the hypotheses of each obligation -/

/-- A next state, from what `goesOn` says. -/
theorem next_of_goesOn {o : Host.Outcome State Fault Refusal} (h : goesOn o = true) : ∃ t, o = .next t := by
  cases o with
  | next t => exact ⟨t, rfl⟩
  | fault r => cases h
  | refused r => cases h

/-- A next state with a property, from what `after` says. -/
theorem next_of_after {o : Host.Outcome State Fault Refusal} {f : State → Bool} (h : after f o = some true) :
    ∃ t, o = .next t ∧ f t = true := by
  cases o with
  | next t => exact ⟨t, rfl, Option.some.inj h⟩
  | fault r => cases h
  | refused r => cases h

/-- A state in which everything exists: pointers at the ends of the address space, a stack that wraps. -/
def roomy : State :=
  start [0x1F, 0x00] [(.r0, 0x11223344), (.r1, 0xFFFFFFFE), (.r2, 3), (.sp, 2)] 0 []

/-- A state with `r1` and the stack pointer at the end of what exists. -/
def tight : State := trapping [0x1F, 0x00] [(.r0, 5), (.r1, 0xFFFD), (.sp, 0x10002)] 0 []

/-- Every two-operand form. -/
def twoForms : List TwoOp :=
  [.regConst .r0 1, .regReg .r0 .r2, .regAbs .r0 0xFFFFFFFD, .absReg 0xFFFFFFFD .r0, .absConst 0 1, .regInd .r0 .r1 .postInc,
   .indReg .r1 .r1 .preDec, .indConst .sp .plain 1, .regIdx .pc .r1 .preDec 4, .idxReg .r1 .pc .postInc 0xFFFFFFFC]

/-- Every one-operand form. -/
def oneForms : List OneOp := [.reg .r0, .abs 0xFFFFFFFF, .ind .r1 .postInc, .idx .sp .preDec 0xFFFFFFFE]

/-- The operand sizes. -/
def sizes : List Size := [.long, .word, .byte]

theorem witness_decode_of_encode : (Instr.mov .byte (.absConst 0xFFFFFFFF 0xFF)).wf = true := by decide

theorem witness_decoded_bytes : decode [0x80, 0x21, 0x0F, 0xFF, 0xAA] = .instr (.mov .byte (.regConst .pc 0xFF)) := by decide

/-- Each clause of R111 at its first reserved value, and the last assigned values beside them. -/
theorem witness_reserved_word :
    reservedWord 0x33 0x00 ∧ reservedWord 0xC0 0x00 ∧ reservedWord 0x00 0x13 ∧ reservedWord 0x00 0xE0 ∧ ¬ reservedWord 0xB2 0xD2 := by
  unfold reservedWord; decide

theorem witness_unadmitted_word : ¬ reservedWord 0xB2 0xD2 ∧ admitted (0xB2 % 64) (0xD2 % 32) (0xD2 / 32) (0xB2 / 64) = false := by
  unfold reservedWord; decide

/-- A state for StepRunsTheDecodedInstruction, without a request. -/
theorem witness_step_runs : roomy.halted = false ∧ runsInstruction roomy ∧ fetchDecode roomy.sampled = .instr .nop := by decide

/-- A state for StepRunsTheDecodedInstruction, with a masked request. -/
theorem witness_step_runs_masked :
    let s := asked [⟨false, true, [], [], []⟩] (start [0x15, 0x00] [] 0x10 [])
    s.halted = false ∧ runsInstruction s ∧ fetchDecode s.sampled = .instr .cli := by decide

/-- A state for StepRunsTheDecodedInstruction, whose instruction is fetched from a device. -/
theorem witness_step_runs_from_a_device :
    let s := withDevice 0x2000 [(0x2000, 0x1F)] [] [] (start [] [(.pc, 0x2000)] 0 [])
    s.halted = false ∧ runsInstruction s ∧ fetchDecode s.sampled = .instr .nop ∧ fetchDecode s ≠ .instr .nop := by decide

/-- A state for StepExecutesTheInstructionStoredAtPc: the longest instruction, across the end of the address space. -/
theorem witness_stored_instruction :
    let s := start [0x00, 0x08, 0x00, 0x20, 0x00, 0x00, 0x78, 0x56, 0x34, 0x12] [(.pc, 0xFFFFFFFB)] 0 []
    (Instr.mov .long (.absConst 0x2000 0x12345678)).wf = true ∧ s.halted = false ∧ runsInstruction s
      ∧ HoldsAtPc s.sampled (.mov .long (.absConst 0x2000 0x12345678)) := by decide

theorem witness_illegal_word :
    let s := trapping [0x33, 0x00] [(.pc, 0xFFFE)] 0 []
    s.halted = false ∧ runsInstruction s
      ∧ BytesExist s s.pc 2 ∧ reservedWord (byteAt s.sampled.fetchView s.pc) (byteAt s.sampled.fetchView (s.pc + 1)) := by unfold reservedWord; decide

theorem witness_missing_word :
    let s := trapping [] [(.pc, 0xFFFF)] 0 []
    s.halted = false ∧ runsInstruction s ∧ ¬ BytesExist s s.pc 2 := by decide

theorem witness_short_fetch :
    let s := trapping [0x00, 0x21, 0x02, 0x22] [(.pc, 0xFFFC)] 0 []
    s.halted = false ∧ runsInstruction s ∧ fetchDecode s.sampled = .short := by decide

theorem witness_word_without_meaning :
    let s := start [0x00, 0x00] [] 0 []
    s.halted = false ∧ runsInstruction s ∧ fetchDecode s.sampled = .unspecifiedWord := by decide

theorem witness_selector_without_meaning :
    let s := start [0x06, 0x23, 0x10] [] 0 []
    s.halted = false ∧ runsInstruction s ∧ fetchDecode s.sampled = .unspecifiedSelector := by decide

/-- A store of each size completes, the wider ones across the end of the address space. -/
theorem witness_store :
    (∃ t, memWrite roomy 0xFFFFFFFE .long 0x11223344 = .ok t) ∧ (∃ t, memWrite roomy 0xFFFFFFFF .word 0x1122 = .ok t)
      ∧ ∃ t, memWrite roomy 0xFFFFFFFF .byte 0x11 = .ok t := ⟨⟨_, rfl⟩, ⟨_, rfl⟩, ⟨_, rfl⟩⟩

/-- Both clauses of AccessCompletesExactlyWhenItsBytesExist where they meet, for each size. -/
theorem witness_access :
    BytesExist tight 0xFFFC 4 ∧ ¬ BytesExist tight 0xFFFD 4 ∧ BytesExist tight 0xFFFE 2 ∧ ¬ BytesExist tight 0xFFFF 2
      ∧ BytesExist tight 0xFFFF 1 ∧ ¬ BytesExist tight 0x10000 1 ∧ ¬ BytesExist tight 0xFFFFFFFF 2 := by decide

theorem witness_pointer_steps :
    ∀ sk ∈ ([(.long, 4), (.word, 2), (.byte, 1)] : List (Size × Word)), sizeStep sk.1 = sk.2 := by decide

/-- Every two-operand instruction has its operands in `roomy`: a form with no memory operand, and one with it at each end. -/
theorem witness_two_ready :
    ∀ make ∈ twoOperandInstrs, twoReady make .byte (.regConst .r0 1) roomy = true
      ∧ twoReady make .long (.regInd .r0 .r1 .postInc) roomy = true ∧ twoReady make .word (.idxReg .r1 .pc .postInc 1) roomy = true := by
  decide

/-- The operands of every two-operand form exist in `roomy`, at every size. -/
theorem witness_two_ready_forms : ∀ o ∈ twoForms, ∀ sz ∈ sizes, twoReady .cmp sz o roomy = true := by decide

/-- CLR, INC and DEC in every form and size have their operand in `roomy`. -/
theorem witness_one_ready : ∀ make ∈ oneOperandInstrs, ∀ o ∈ oneForms, ∀ sz ∈ sizes, oneReady make sz o roomy = true := by decide

/-- DIV with the smallest divisor that is not zero, and with a zero divisor below a word that is not zero. -/
theorem witness_div :
    let s := start [] [(.r0, 0x64), (.r1, 0x101), (.r2, 0x100)] 0 []
    twoReady .div .byte (.regReg .r0 .r1) s = true ∧ (twoSrc .div .byte (.regReg .r0 .r1) s).toNat ≠ 0
      ∧ twoReady .div .byte (.regReg .r0 .r2) s = true ∧ (twoSrc .div .byte (.regReg .r0 .r2) s).toNat = 0 := by decide

/-- The counts at which the clauses of ShiftsComplete and RotatesComplete meet: 0, 1, the width and one more. -/
theorem witness_shift_counts :
    ∀ make ∈ ([.shl, .shr, .rol, .ror] : List (Size → TwoOp → Instr)),
      (twoSrc make .byte (.regConst .r0 0) roomy).toNat = 0 ∧ (twoSrc make .byte (.regConst .r0 1) roomy).toNat = 1
        ∧ (twoSrc make .byte (.regConst .r0 8) roomy).toNat = 8 ∧ (twoSrc make .byte (.regConst .r0 9) roomy).toNat = 9 := by decide

/-- Steps that change `I`, `V` and `C`. -/
theorem witness_flags_change :
    after (fun t => t.p.i) (step (start [0x14, 0x00] [] 0 [])) = some true
      ∧ after (fun t => t.p.v) (step (start [0x02, 0x21, 0x00, 0x01, 0x00, 0x00, 0x00] [(.r0, 0x7FFFFFFF)] 0 [])) = some true
      ∧ after (fun t => t.p.c) (step (start [0x8E, 0x21, 0x00, 0x01] [(.r0, 1)] 0 [])) = some true := by decide

/-- The premises of FlagsChangeOnlyByTheirInstructions: a step that runs no instruction, with SEI at `pc`; one on an illegal word; one
that runs an instruction which writes some flags and not others. -/
theorem witness_flag_clauses :
    let n := asked [⟨true, false, [], [], []⟩] (start [0x14, 0x00] [] 0 [])
    let w := start [0xFF, 0xFF] [] 0 []
    let r := start [0x8E, 0x21, 0x00, 0x01] [(.r0, 1)] 0 []
    (goesOn (step n) = true ∧ ¬ runsInstruction n) ∧ (goesOn (step w) = true ∧ fetchDecode w.sampled = .illegal)
      ∧ goesOn (step r) = true ∧ runsInstruction r ∧ fetchDecode r.sampled = .instr (.shr .byte (.regConst .r0 1))
      ∧ (writtenFlags (.shr .byte (.regConst .r0 1))).i = false ∧ (writtenFlags (.shr .byte (.regConst .r0 1))).v = false
      ∧ (writtenFlags .sei).c = false ∧ (writtenFlags .sei).n = false ∧ (writtenFlags .sei).z = false := by decide

/-- A platform's answer: read `$10000`, store a byte at `$2000`, go on asleep. -/
def answer : SysAnswer := ⟨[0x10000], [(0x2000, 7)], roomy.regs, roomy.p, true⟩

/-- The bytes of its call exist in `roomy`, and one it reads does not in `tight`. -/
theorem witness_answer_ready :
    AnswerReady (roomy.setCalls [answer]) answer ∧ ¬ AnswerReady (tight.setCalls [answer]) answer := by
  refine ⟨?_, fun h => absurd (h.1 0x10000 List.mem_cons_self) (by decide)⟩
  simp only [AnswerReady, answer, List.forall_mem_singleton]
  decide

/-- An ADD that raises, and a SYS whose call reads a byte that does not exist. -/
theorem witness_flag_traps :
    exec (.add .long (.regInd .r0 .r1 .plain)) tight.sampled = raises .illegalAddress (.add .long (.regInd .r0 .r1 .plain)) tight.sampled
      ∧ (tight.setCalls [answer]).calls = answer :: [] ∧ ¬ AnswerReady (tight.setCalls [answer]) answer :=
  ⟨rfl, rfl, witness_answer_ready.2⟩

/-- Four registers for AddThenAdcAddsSixtyFourBits, the first pair added to itself crosswise where that is allowed. -/
theorem witness_sixty_four_bits :
    (Reg.r0 ≠ .r1 ∧ Reg.r0 ≠ .r3 ∧ Reg.pc ∉ [Reg.r0, .r1, .r2, .r3]) ∧ Reg.r0 ≠ .r1 ∧ Reg.r0 ≠ .r1 ∧ Reg.pc ∉ [Reg.r0, .r1, .r1, .r1] := by
  decide

/-- SYS without an answer, with its effect, and with a byte missing. -/
theorem witness_sys_answers :
    roomy.calls = [] ∧ ((roomy.setCalls [answer]).calls = answer :: [] ∧ AnswerReady (roomy.setCalls [answer]) answer)
      ∧ (tight.setCalls [answer]).calls = answer :: [] ∧ ¬ AnswerReady (tight.setCalls [answer]) answer :=
  ⟨rfl, ⟨rfl, witness_answer_ready.1⟩, rfl, witness_answer_ready.2⟩

/-- A device byte and a byte beside it. -/
theorem witness_device_bytes : (withDevice 0x2000 [] [] [] roomy).isDevice 0x2003 = true ∧ (withDevice 0x2000 [] [] [] roomy).isDevice 0x2004 = false := by
  decide

/-- A source and a destination with a missing last byte, for every two-operand and one-operand instruction. -/
theorem witness_missing_operand :
    (∀ make ∈ twoOperandInstrs, twoReady make .long (.regInd .r0 .r1 .postInc) tight = false
        ∧ twoReady make .long (.indReg .r1 .r0 .plain) tight = false)
      ∧ ∀ make ∈ oneOperandInstrs, oneReady make .word (.idx .r1 .plain 2) tight = false := by decide

/-- Each stack instruction with a missing stack byte. -/
theorem witness_missing_stack :
    (stackSpan tight (.jsr 0x2000) = some (0xFFFE, 4) ∧ ¬ BytesExist tight 0xFFFE 4)
      ∧ (stackSpan tight .rts = some (0x10002, 4) ∧ stackSpan tight .rti = some (0x10002, 5) ∧ ¬ BytesExist tight 0x10002 4
          ∧ ¬ BytesExist tight 0x10002 5)
      ∧ (stackSpan tight .pusha = some (0xFFCA, 56) ∧ ¬ BytesExist tight 0xFFCA 56)
      ∧ (stackSpan tight .popa = some (0x10002, 56) ∧ ¬ BytesExist tight 0x10002 56) := by decide

/-- PUSH with a missing stack byte and with a missing operand; POP likewise. -/
theorem witness_missing_push_and_pop :
    pushReady .long (.const 0) tight = false ∧ pushReady .long (.operand (.ind .r1 .plain)) (tight.setSp 0x8000) = false
      ∧ popReady .byte (.reg .r0) tight = false ∧ popReady .long (.ind .r1 .plain) (tight.setSp 0x8000) = false := by decide

/-- Every premise of PointerAndDestinationInOneRegister, at the wrap of the address space. -/
theorem witness_pointer_and_destination :
    Reg.r1 ≠ .pc ∧ BytesExist roomy (roomy.reg .r1) 4 ∧ BytesExist roomy (roomy.reg .r1) 1 ∧ BytesExist roomy (roomy.reg .r1 - 4) 4
      ∧ BytesExist roomy roomy.sp 4 ∧ BytesExist roomy (roomy.pc + 3) 4 := by decide

/-- There are thirteen branches to speak of. -/
theorem witness_branches : branchInstrs.length = 13 := by decide

/-- The stack bytes of JSR, RTS, RTI, PUSHA and POPA exist, across the end of the address space. -/
theorem witness_stack_exists :
    BytesExist roomy (roomy.sp - 4) 4 ∧ BytesExist roomy roomy.sp 4 ∧ BytesExist roomy roomy.sp 5 ∧ BytesExist roomy (roomy.sp - 56) 56
      ∧ BytesExist roomy roomy.sp 56 := by decide

/-- PUSH and POP are ready in every form and size. -/
theorem witness_push_and_pop_ready :
    ∀ sz ∈ sizes, pushReady sz (.const 1) roomy = true
      ∧ ∀ o ∈ oneForms, pushReady sz (.operand o) roomy = true ∧ popReady sz o roomy = true := by decide

/-- PUSHA completes, and a handler has changed `R0` and the flags since. -/
theorem witness_popa_restores :
    BytesExist roomy (roomy.sp - 56) 56
      ∧ ∃ t t', exec .pusha roomy = .next t ∧ t'.sp = t.sp ∧ t'.mem = t.mem ∧ t'.present = t.present ∧ t' ≠ t := by
  refine ⟨by decide, ?_⟩
  obtain ⟨t, ht⟩ := next_of_goesOn (o := exec .pusha roomy) (by decide)
  refine ⟨t, t.setReg .r0 (t.reg .r0 + 1), ht, rfl, rfl, rfl, fun h => ?_⟩
  have h0 : t.reg .r0 + 1 = t.reg .r0 := congrArg (fun u => u.reg .r0) h
  exact absurd h0 (by bv_omega)

/-- The premise of both halves of PushIsMovBelowTheStackPointer. -/
theorem witness_push_is_mov : Reg.pc ≠ .sp ∧ BytesExist roomy (roomy.sp - sizeStep .long) 4 ∧ BytesExist roomy roomy.sp 4 := by decide

theorem witness_status_byte : (∃ t, pushStatus roomy = .ok t) ∧ ∃ t, popStatus roomy = .ok t := ⟨⟨_, rfl⟩, ⟨_, rfl⟩⟩

/-- Every cause of a trap. -/
def causes : List Cause := [.illegalInstruction, .illegalAddress, .divisionByZero, .irq, .softwareIrq, .nmi]

/-- A trap entry of every cause can complete, and can fail at the stack and at the vector. -/
theorem witness_trap_ready :
    ∀ cause ∈ causes, TrapReady cause roomy ∧ ¬ TrapReady cause tight
      ∧ ¬ TrapReady cause { roomy with present := [{ base := 0x20, size := 0xFFFFFFE0, device := false }] } := by decide

theorem witness_halted : tight.halt.halted = true ∧ BytesExist tight.halt 0 8 := by decide

/-- The three clauses of RequestsAreTakenBetweenInstructions. -/
theorem witness_requests :
    let n := asked [⟨true, true, [], [], []⟩] roomy
    let q := asked [⟨false, true, [], [], []⟩] roomy
    let m := asked [⟨false, true, [], [], []⟩] (start [0x1F, 0x00] [] 0x10 [])
    (n.halted = false ∧ n.request.nmi = true)
      ∧ (q.halted = false ∧ q.request.nmi = false ∧ q.request.irq = true ∧ q.p.i = false)
      ∧ (m.halted = false ∧ m.request.nmi = false ∧ m.request.irq = true ∧ m.p.i = true ∧ m.sleeping = false) := by decide

/-- The two clauses of SleepingCoreWaitsForARequest. -/
theorem witness_sleeping :
    let s := roomy.setSleeping true
    let m := asked [⟨false, true, [], [], []⟩] ((start [] [] 0x10 []).setSleeping true)
    (s.halted = false ∧ s.sleeping = true ∧ s.request.nmi = false ∧ s.request.irq = false)
      ∧ (m.halted = false ∧ m.sleeping = true ∧ m.request.nmi = false ∧ m.request.irq = true ∧ m.p.i = true) := by decide

/-- Both clauses of ResetLoadsPcAndSpFromTheVectors, with one byte between them. -/
theorem witness_reset_vectors :
    BytesExist { roomy with present := [{ base := 0, size := 8, device := false }] } 0 8 ∧ ¬ BytesExist { roomy with present := [{ base := 0, size := 7, device := false }] } 0 8 := by
  decide

/-- A step from a state with the invariant, with something in memory. -/
theorem witness_invariant : MemInv tight = true ∧ tight.mem ≠ [] ∧ ∃ t, step tight = .next t :=
  ⟨by decide, by decide, next_of_goesOn (by decide)⟩

/-- A step in a state with an address that does not exist. -/
theorem witness_missing_bytes : (∃ t, step tight = .next t) ∧ tight.exists? 0x10000 = false := ⟨next_of_goesOn (by decide), by decide⟩

/-- A step with the stack frame and the vectors in place, and a step to a halted state. -/
theorem witness_core_halts :
    ((∃ t, step roomy = .next t) ∧ BytesExist roomy (roomy.sp - 5) 5 ∧ BytesExist roomy 0 32)
      ∧ ∃ t, step (trapping [0x1E, 0x00] [(.sp, 0x10003)] 0 []) = .next t ∧ t.halted = true :=
  ⟨⟨next_of_goesOn (by decide), by decide, by decide⟩, next_of_after (f := fun t => t.halted) (by decide)⟩

end Sys2Proof.Tests
end

namespace Sys2Proof.Proofs

open Sys2Proof.Machine

/-! ### The pointer of a form with a modifier (R133, R134, R135) -/

@[simp] theorem preDecrement_preDec (sz : Size) (i : Reg) (s : State) :
    preDecrement sz (some (i, .preDec)) s = s.setReg i (s.reg i - sizeStep sz) := rfl

@[simp] theorem postIncrement_postInc (sz : Size) (i : Reg) (s : State) :
    postIncrement sz (some (i, .postInc)) s = s.setReg i (s.reg i + sizeStep sz) := rfl

/-- The table of R135, a row for each size. -/
theorem sizeStep_of_mem_table {sk : Size × Word}
    (h : sk ∈ ([(.long, 4), (.word, 2), (.byte, 1)] : List (Size × Word))) : sizeStep sk.1 = sk.2 := by
  simp only [List.mem_cons, List.not_mem_nil, or_false] at h
  obtain rfl | rfl | rfl := h
  · rfl
  · rfl
  · rfl

/-- Settles O13: both modifiers move the pointer by `sizeStep`, which is R135's table. -/
theorem pointersStepByTheOperandSize : Obligations.PointersStepByTheOperandSize := by
  intro i s sk hsk
  have hstep : sizeStep sk.1 = sk.2 := sizeStep_of_mem_table hsk
  rw [← hstep]
  exact ⟨preDecrement_preDec sk.1 i s, postIncrement_postInc sk.1 i s⟩

end Sys2Proof.Proofs

namespace Sys2Proof.Proofs

open Sys2Proof.Machine

/-! ### Instructions of the implied shape (R89, R91, R98) -/

/-- No selector and no field follow the word of an implied instruction (R91). -/
theorem length_of_implied {i : Instr} (h : i.shape = .implied) : i.length = 2 := by
  rw [Instr.length, Instr.head, h]
  rfl

/-- An implied instruction is its code in a word that is zero elsewhere (R80, R89). -/
theorem encode_of_implied {i : Instr} (h : i.shape = .implied) : encode i = [(0 : BitVec 2) ++ i.code, 0x00] := by
  rw [encode, Instr.head, h]
  simp [Head.bytes, Shape.implied, Size.field]

theorem advance_length_of_implied {i : Instr} (h : i.shape = .implied) (s : State) :
    advance i.length s = s.setPc (s.pc + 2) := by
  rw [length_of_implied h]
  rfl

/-! ### The flag instructions (R211–R216) -/

/-- An implied instruction that rewrites `P` steps `pc` past its word and leaves the rest of the state as it was. -/
theorem execute_setStatus_of_implied {i : Instr} (h : i.shape = .implied) (f : Status → Status) (s : State) :
    execute i.length (fun s => .ok (s.setStatus (f s.p))) s = .next ((s.setPc (s.pc + 2)).setStatus (f s.p)) := by
  rw [execute_total i.length (fun s => s.setStatus (f s.p)), advance_length_of_implied h, State.setPc_p]

theorem exec_sec (s : State) : exec .sec s = .next ((s.setPc (s.pc + 2)).setStatus { s.p with c := true }) :=
  execute_setStatus_of_implied (i := .sec) rfl (fun p => { p with c := true }) s

theorem exec_clc (s : State) : exec .clc s = .next ((s.setPc (s.pc + 2)).setStatus { s.p with c := false }) :=
  execute_setStatus_of_implied (i := .clc) rfl (fun p => { p with c := false }) s

theorem exec_sev (s : State) : exec .sev s = .next ((s.setPc (s.pc + 2)).setStatus { s.p with v := true }) :=
  execute_setStatus_of_implied (i := .sev) rfl (fun p => { p with v := true }) s

theorem exec_clv (s : State) : exec .clv s = .next ((s.setPc (s.pc + 2)).setStatus { s.p with v := false }) :=
  execute_setStatus_of_implied (i := .clv) rfl (fun p => { p with v := false }) s

theorem exec_sei (s : State) : exec .sei s = .next ((s.setPc (s.pc + 2)).setStatus { s.p with i := true }) :=
  execute_setStatus_of_implied (i := .sei) rfl (fun p => { p with i := true }) s

theorem exec_cli (s : State) : exec .cli s = .next ((s.setPc (s.pc + 2)).setStatus { s.p with i := false }) :=
  execute_setStatus_of_implied (i := .cli) rfl (fun p => { p with i := false }) s

/-- Settles O30: all six have the implied shape, so each is its code in a two-byte word, and its execution is the step of `pc` with
its own flag write. -/
theorem flagInstructionsComplete : Obligations.FlagInstructionsComplete := by
  refine ⟨fun s => ⟨exec_sec s, exec_clc s, exec_sev s, exec_clv s, exec_sei s, exec_cli s⟩, ?_, ?_, ?_, ?_, ?_, ?_⟩
  · exact encode_of_implied (i := .sec) rfl
  · exact encode_of_implied (i := .clc) rfl
  · exact encode_of_implied (i := .sev) rfl
  · exact encode_of_implied (i := .clv) rfl
  · exact encode_of_implied (i := .sei) rfl
  · exact encode_of_implied (i := .cli) rfl

end Sys2Proof.Proofs

namespace Sys2Proof.Proofs

open Sys2Proof.Claims

/-! ### What each class of R98 makes -/

/-- The instructions that a class of R98 makes, each with the shape it is encoded in and the check its operands must pass. -/
inductive Makes : OpClass → Instr → Shape → Bool → Prop
  | two (make : Size → TwoOp → Instr) (sz : Size) (o : TwoOp) : Makes (.two make) (make sz o) (o.shape sz) (o.wf sz)
  | one (make : Size → OneOp → Instr) (sz : Size) (o : OneOp) : Makes (.one make) (make sz o) (o.shape sz) true
  | push (sz : Size) (o : PushOp) : Makes .push (.push sz o) (o.shape sz) (o.wf sz)
  | extend (make : Reg → Instr) (rx : Reg) : Makes (.extend make) (make rx) (.extend rx) true
  | implied (i : Instr) : Makes (.implied i) i .implied true
  | branch (make : Size → Word → Instr) (sz : Size) (d : Word) : Makes (.branch make) (make sz d) (.branch sz d) (fitsSize sz d)
  | jump (make : Word → Instr) (a : Word) : Makes (.jump make) (make a) (.jump a) true
  | sysCall (sz : Size) (k : Word) : Makes .sysCall (.sys sz k) ⟨sz, 18, 0, fieldBytes sz.bytes k⟩ (fitsSize sz k)

/-- The code table (R100) names, for every instruction, a class that makes it. -/
theorem opClass_code (i : Instr) : ∃ cl, opClass i.code.toNat = some cl ∧ Makes cl i i.shape i.wf := by
  cases i with
  | mov sz o | add sz o | sub sz o | adc sz o | sbc sz o | mul sz o | div sz o | and sz o | or sz o | xor sz o | shl sz o
  | shr sz o | rol sz o | ror sz o | cmp sz o => exact ⟨_, rfl, .two _ sz o⟩
  | clr sz o | inc sz o | dec sz o | pop sz o => exact ⟨_, rfl, .one _ sz o⟩
  | push sz o => exact ⟨_, rfl, .push sz o⟩
  | sxb rx | sxw rx => exact ⟨_, rfl, .extend _ rx⟩
  | jmp a | jsr a => exact ⟨_, rfl, .jump _ a⟩
  | bra sz d | beq sz d | bne sz d | bcc sz d | bcs sz d | bpl sz d | bmi sz d | bvc sz d | bvs sz d | blt sz d | bgt sz d
  | ble sz d | bge sz d => exact ⟨_, rfl, .branch _ sz d⟩
  | sys sz k => exact ⟨_, rfl, .sysCall sz k⟩
  | sec | clc | sei | cli | pusha | popa | rts | rti | brk | nop | sev | clv | slp => exact ⟨_, rfl, .implied _⟩

/-- What the class of a code makes has that code, and the class gives its shape and its check. -/
theorem makes_of_opClass {c : Nat} {cl : OpClass} {i : Instr} {sh : Shape} {ok : Bool} (hc : opClass c = some cl)
    (hm : Makes cl i sh ok) : i.code.toNat = c ∧ i.shape = sh ∧ i.wf = ok := by
  unfold opClass at hc
  split at hc <;> cases hc <;> cases hm <;> exact ⟨rfl, rfl, rfl⟩

theorem opClass_of_le {c : Nat} (h : c ≤ 0x32) : ∃ cl, opClass c = some cl := by
  interval_cases c <;> exact ⟨_, rfl⟩

theorem le_of_opClass {c : Nat} {cl : OpClass} (h : opClass c = some cl) : c ≤ 0x32 := by
  unfold opClass at h
  split at h
  case h_52 => cases h
  all_goals decide

/-! ### Reading back what is encoded -/

@[simp] theorem andThen_ok {α β : Type} (a : α) (bs : List Byte) (f : α → List Byte → Parsed β) :
    (Parsed.ok a bs).andThen f = f a bs := rfl

theorem takeTwoOp_bytes (sz : Size) (o : TwoOp) (rest : List Byte) (h : o.wf sz = true) :
    takeTwoOp sz o.mode.toNat o.config.toNat (o.bytes sz ++ rest) = .ok o rest := by
  cases o with
  | regConst rx c => simp [TwoOp.mode, TwoOp.config, TwoOp.bytes, takeTwoOp, takeReg_selector, takeField_size sz c rest h]
  | regReg rx ry => simp [TwoOp.mode, TwoOp.config, TwoOp.bytes, takeTwoOp, takeRegs_selectors]
  | regAbs rx a | absReg a rx => simp [TwoOp.mode, TwoOp.config, TwoOp.bytes, takeTwoOp, takeReg_selector, takeField_four]
  | absConst a c =>
    simp [TwoOp.mode, TwoOp.config, TwoOp.bytes, takeTwoOp, takeField_four, takeField_size sz c rest h]
  | regInd rx ry m | indReg rx ry m =>
    cases m <;>
      simp [TwoOp.mode, TwoOp.config, TwoOp.bytes, takeTwoOp, Modifier.config2, withModifier, Modifier.ofConfig2,
        takeRegs_selectors]
  | indConst rx m c =>
    cases m <;>
      simp [TwoOp.mode, TwoOp.config, TwoOp.bytes, takeTwoOp, Modifier.config1, withModifier, Modifier.ofConfig1,
        takeReg_selector, takeField_size sz c rest h]
  | regIdx rx ry m d | idxReg rx ry m d =>
    cases m <;>
      simp [TwoOp.mode, TwoOp.config, TwoOp.bytes, takeTwoOp, Modifier.config2, withModifier, Modifier.ofConfig2,
        takeRegs_selectors, takeField_four]

theorem takeOneOp_bytes (o : OneOp) (rest : List Byte) :
    takeOneOp o.mode.toNat o.config.toNat (o.bytes ++ rest) = .ok o rest := by
  cases o with
  | reg rx => simp [OneOp.mode, OneOp.config, OneOp.bytes, takeOneOp, takeReg_selector]
  | abs a => simp [OneOp.mode, OneOp.config, OneOp.bytes, takeOneOp, takeField_four]
  | ind rx m =>
    cases m <;>
      simp [OneOp.mode, OneOp.config, OneOp.bytes, takeOneOp, Modifier.config1, withModifier, Modifier.ofConfig1,
        takeReg_selector]
  | idx rx m d =>
    cases m <;>
      simp [OneOp.mode, OneOp.config, OneOp.bytes, takeOneOp, Modifier.config1, withModifier, Modifier.ofConfig1,
        takeReg_selector, takeField_four]

/-- No one-operand form has the mode of a pushed constant (R83). -/
theorem takePushOp_operand (sz : Size) (o : OneOp) (bs : List Byte) :
    takePushOp sz o.mode.toNat o.config.toNat bs
      = (takeOneOp o.mode.toNat o.config.toNat bs).andThen fun o bs => .ok (.operand o) bs := by
  cases o <;> rfl

theorem takePushOp_bytes (sz : Size) (o : PushOp) (rest : List Byte) (h : o.wf sz = true) :
    takePushOp sz o.mode.toNat o.config.toNat (o.bytes sz ++ rest) = .ok o rest := by
  cases o with
  | const c => simp [PushOp.mode, PushOp.config, PushOp.bytes, takePushOp, takeField_size sz c rest h]
  | operand o =>
    rw [PushOp.mode, PushOp.config, PushOp.bytes, takePushOp_operand, takeOneOp_bytes, andThen_ok]

/-- The decoder of a class reads an encoded instruction of that class back. -/
theorem take_of_makes {cl : OpClass} {i : Instr} {sh : Shape} (hm : Makes cl i sh true) (rest : List Byte) :
    cl.take sh.size sh.mode.toNat sh.config.toNat (sh.bytes ++ rest) = .ok i rest := by
  generalize hok : true = ok at hm
  cases hm with
  | two make sz o =>
    simp [OpClass.take, TwoOp.shape, takeTwoOp_bytes sz o rest hok.symm]
  | one make sz o => simp [OpClass.take, OneOp.shape, takeOneOp_bytes o rest]
  | push sz o => simp [OpClass.take, PushOp.shape, takePushOp_bytes sz o rest hok.symm]
  | extend make rx => simp [OpClass.take, Shape.extend, takeReg_selector]
  | implied i => simp [OpClass.take, Shape.implied]
  | branch make sz d => simp [OpClass.take, Shape.branch, takeField_size sz d rest hok.symm]
  | jump make a => simp [OpClass.take, Shape.jump, takeField_four]
  | sysCall sz k => simp [OpClass.take, takeField_size sz k rest hok.symm]

/-- No shape uses a reserved mode or configuration (R83, R84). -/
theorem fields_of_makes {cl : OpClass} {i : Instr} {sh : Shape} {ok : Bool} (hm : Makes cl i sh ok) :
    sh.mode.toNat ≤ 18 ∧ sh.config.toNat ≠ 7 := by
  cases hm with
  | two make sz o => exact ⟨Laws.AssignedFields.two_mode o, Laws.AssignedFields.two_config o⟩
  | one make sz o => exact ⟨Laws.AssignedFields.one_mode o, Laws.AssignedFields.one_config o⟩
  | push sz o => exact ⟨Laws.AssignedFields.push_mode o, Laws.AssignedFields.push_config o⟩
  | extend _ _ | implied _ | branch _ _ _ | jump _ _ | sysCall _ _ => simp [Shape.extend, Shape.implied, Shape.branch, Shape.jump]

/-- Every instruction's word has assigned field values alone (R111). -/
theorem head_assigned (i : Instr) : i.head.illegal = false := by
  obtain ⟨cl, hcl, hm⟩ := opClass_code i
  obtain ⟨hmode, hconfig⟩ := fields_of_makes hm
  refine Laws.AssignedFields.of_fields ?_ (Laws.AssignedFields.size_ne i.shape.size) hmode hconfig
  exact le_of_opClass hcl

theorem decode_head_bytes (h : Head) (bs : List Byte) : decode (h.bytes ++ bs) = h.decode bs := by
  show (Head.ofBytes (h.size ++ h.code) (h.config ++ h.mode)).decode bs = h.decode bs
  rw [ofBytes_bytes]

/-- Decoding under a word whose fields are assigned is reading by the class of its code (R110). -/
theorem decode_of_fields {h : Head} {cl : OpClass} {sz : Size} (hi : h.illegal = false) (hc : opClass h.code.toNat = some cl)
    (hs : Size.ofField h.size = some sz) (bs : List Byte) :
    h.decode bs = (cl.take sz h.mode.toNat h.config.toNat bs).toDecoded := by
  rw [Head.decode, hi, hc, hs]
  rfl

/-- Settles O1: the word names the class that makes the instruction, and that class reads its own encoding back. -/
theorem decodeOfEncodeIsTheInstruction : Obligations.DecodeOfEncodeIsTheInstruction := by
  intro i rest hwf
  obtain ⟨cl, hcl, hm⟩ := opClass_code i
  rw [hwf] at hm
  have htake := take_of_makes hm rest
  rw [encode, List.append_assoc, decode_head_bytes,
    decode_of_fields (head_assigned i) hcl (Size.ofField_field i.shape.size)]
  exact congrArg Parsed.toDecoded htake

end Sys2Proof.Proofs

namespace Sys2Proof.Proofs

open Sys2Proof.Claims

/-! ### What each part of the decoder accepts -/

theorem andThen_eq_ok {α β : Type} {p : Parsed α} {f : α → List Byte → Parsed β} {b : β} {rest : List Byte} :
    p.andThen f = .ok b rest ↔ ∃ a bs, p = .ok a bs ∧ f a bs = .ok b rest := by
  cases p <;> simp [Parsed.andThen]

theorem withModifier_eq_ok {α : Type} {m : Option Modifier} {f : Modifier → Parsed α} {a : α} {rest : List Byte} :
    withModifier m f = .ok a rest ↔ ∃ x, m = some x ∧ f x = .ok a rest := by
  cases m <;> simp [withModifier]

theorem ofConfig1_eq_some {r : Nat} {m : Modifier} : Modifier.ofConfig1 r = some m ↔ r = m.config1.toNat := by
  constructor
  · intro h
    unfold Modifier.ofConfig1 at h
    split at h <;> cases h <;> rfl
  · rintro rfl
    cases m <;> rfl

theorem ofConfig2_eq_some {r : Nat} {m : Modifier} : Modifier.ofConfig2 r = some m ↔ r = m.config2.toNat := by
  constructor
  · intro h
    unfold Modifier.ofConfig2 at h
    split at h <;> cases h <;> rfl
  · rintro rfl
    cases m <;> rfl

theorem selector_of_byte : ∀ b : Byte, b.extractLsb' 4 4 = 0#4 → selector (Reg.ofNibble (b.extractLsb' 0 4)) = b := by
  decide

theorem selectors_of_byte :
    ∀ b : Byte, selectors (Reg.ofNibble (b.extractLsb' 4 4)) (Reg.ofNibble (b.extractLsb' 0 4)) = b := by
  decide

theorem takeReg_eq_ok {bs rest : List Byte} {r : Reg} : takeReg bs = .ok r rest ↔ bs = selector r :: rest := by
  constructor
  · intro h
    cases bs with
    | nil => cases h
    | cons b bs =>
      rw [takeReg] at h
      split at h
      · rename_i hhigh
        cases h
        rw [selector_of_byte b hhigh]
      · cases h
  · rintro rfl
    exact takeReg_selector r rest

theorem takeRegs_eq_ok {bs rest : List Byte} {p : Reg × Reg} : takeRegs bs = .ok p rest ↔ bs = selectors p.1 p.2 :: rest := by
  constructor
  · intro h
    cases bs with
    | nil => cases h
    | cons b bs =>
      cases h
      rw [selectors_of_byte b]
  · rintro rfl
    exact takeRegs_selectors p.1 p.2 rest

theorem leValue_lt (bs : List Byte) : leValue bs < 2 ^ (8 * bs.length) := by
  induction bs with
  | nil => simp [leValue]
  | cons b bs ih =>
    have hb := b.isLt
    rw [leValue, List.length_cons, Nat.mul_succ, Nat.pow_add]
    omega

/-- The bytes of a field are those of the value they give, for a field that fits a word. -/
theorem fieldBytes_leValue (bs : List Byte) (v : Word) (h : v.toNat = leValue bs) : fieldBytes bs.length v = bs := by
  induction bs generalizing v with
  | nil => rfl
  | cons b bs ih =>
    rw [leValue] at h
    have hb := b.isLt
    have hlow : v.setWidth 8 = b := by
      apply BitVec.eq_of_toNat_eq
      rw [BitVec.toNat_setWidth, h]
      omega
    have hhigh : (v >>> 8).toNat = leValue bs := by
      rw [BitVec.toNat_ushiftRight, Nat.shiftRight_eq_div_pow, h]
      omega
    rw [List.length_cons, fieldBytes, hlow, ih _ hhigh]

theorem takeField_eq_ok {k : Nat} (hk : k ≤ 4) {bs rest : List Byte} {v : Word} :
    takeField k bs = .ok v rest ↔ bs = fieldBytes k v ++ rest ∧ v.toNat < 2 ^ (8 * k) := by
  constructor
  · intro h
    rw [takeField] at h
    split at h
    · cases h
    · rename_i hlen
      have htake : (bs.take k).length = k := by
        rw [List.length_take]
        omega
      have hlt := leValue_lt (bs.take k)
      rw [htake] at hlt
      have hle : 2 ^ (8 * k) ≤ 2 ^ 32 := Nat.pow_le_pow_right (by decide) (by omega)
      have hval : (BitVec.ofNat 32 (leValue (bs.take k))).toNat = leValue (bs.take k) := by
        rw [BitVec.toNat_ofNat]
        exact Nat.mod_eq_of_lt (by omega)
      cases h
      refine ⟨?_, by omega⟩
      have hbytes := fieldBytes_leValue (bs.take k) _ hval
      rw [htake] at hbytes
      rw [hbytes, List.take_append_drop]
  · rintro ⟨rfl, hv⟩
    exact takeField_fieldBytes k v rest hv

theorem takeField_four_eq_ok {bs rest : List Byte} {v : Word} : takeField 4 bs = .ok v rest ↔ bs = fieldBytes 4 v ++ rest := by
  rw [takeField_eq_ok (le_refl 4), and_iff_left v.isLt]

theorem takeField_size_eq_ok {sz : Size} {bs rest : List Byte} {v : Word} :
    takeField sz.bytes bs = .ok v rest ↔ bs = fieldBytes sz.bytes v ++ rest ∧ fitsSize sz v = true := by
  rw [takeField_eq_ok (by cases sz <;> decide), eight_mul_bytes, fitsSize, decide_eq_true_iff]

theorem takeTwoOp_ok {sz : Size} {mode config : Nat} {bs rest : List Byte} {o : TwoOp}
    (h : takeTwoOp sz mode config bs = .ok o rest) :
    o.mode.toNat = mode ∧ o.config.toNat = config ∧ o.wf sz = true ∧ bs = o.bytes sz ++ rest := by
  unfold takeTwoOp at h
  split at h <;>
    simp only [andThen_eq_ok, withModifier_eq_ok, ofConfig1_eq_some, ofConfig2_eq_some, takeReg_eq_ok, takeRegs_eq_ok,
      takeField_four_eq_ok, takeField_size_eq_ok, Parsed.ok.injEq, reduceCtorEq] at h
  case h_1 =>
    obtain ⟨rx, -, rfl, c, -, ⟨rfl, hfit⟩, rfl, rfl⟩ := h
    exact ⟨rfl, rfl, hfit, rfl⟩
  case h_2 =>
    obtain ⟨p, -, rfl, rfl, rfl⟩ := h
    exact ⟨rfl, rfl, rfl, rfl⟩
  case h_3 | h_4 =>
    obtain ⟨rx, -, rfl, a, -, rfl, rfl, rfl⟩ := h
    exact ⟨rfl, rfl, rfl, rfl⟩
  case h_5 =>
    obtain ⟨a, -, rfl, c, -, ⟨rfl, hfit⟩, rfl, rfl⟩ := h
    exact ⟨rfl, rfl, hfit, (List.append_assoc _ _ _).symm⟩
  case h_6 | h_7 =>
    obtain ⟨m, rfl, p, -, rfl, rfl, rfl⟩ := h
    exact ⟨rfl, rfl, rfl, rfl⟩
  case h_8 =>
    obtain ⟨m, rfl, rx, -, rfl, c, -, ⟨rfl, hfit⟩, rfl, rfl⟩ := h
    exact ⟨rfl, rfl, hfit, rfl⟩
  case h_9 | h_10 =>
    obtain ⟨m, rfl, p, -, rfl, d, -, rfl, rfl, rfl⟩ := h
    exact ⟨rfl, rfl, rfl, rfl⟩

theorem takeOneOp_ok {mode config : Nat} {bs rest : List Byte} {o : OneOp} (h : takeOneOp mode config bs = .ok o rest) :
    o.mode.toNat = mode ∧ o.config.toNat = config ∧ bs = o.bytes ++ rest := by
  unfold takeOneOp at h
  split at h <;>
    simp only [andThen_eq_ok, withModifier_eq_ok, ofConfig1_eq_some, takeReg_eq_ok, takeField_four_eq_ok, Parsed.ok.injEq,
      reduceCtorEq] at h
  case h_1 =>
    obtain ⟨rx, -, rfl, rfl, rfl⟩ := h
    exact ⟨rfl, rfl, rfl⟩
  case h_2 =>
    obtain ⟨a, -, rfl, rfl, rfl⟩ := h
    exact ⟨rfl, rfl, rfl⟩
  case h_3 =>
    obtain ⟨m, rfl, rx, -, rfl, rfl, rfl⟩ := h
    exact ⟨rfl, rfl, rfl⟩
  case h_4 =>
    obtain ⟨m, rfl, rx, -, rfl, d, -, rfl, rfl, rfl⟩ := h
    exact ⟨rfl, rfl, rfl⟩

theorem takePushOp_ok {sz : Size} {mode config : Nat} {bs rest : List Byte} {o : PushOp}
    (h : takePushOp sz mode config bs = .ok o rest) :
    o.mode.toNat = mode ∧ o.config.toNat = config ∧ o.wf sz = true ∧ bs = o.bytes sz ++ rest := by
  unfold takePushOp at h
  split at h <;> simp only [andThen_eq_ok, takeField_size_eq_ok, Parsed.ok.injEq] at h
  case h_1 =>
    obtain ⟨c, -, ⟨rfl, hfit⟩, rfl, rfl⟩ := h
    exact ⟨rfl, rfl, hfit, rfl⟩
  case h_2 =>
    obtain ⟨o, bs, ho, rfl, rfl⟩ := h
    obtain ⟨hmode, hconfig, hbytes⟩ := takeOneOp_ok ho
    exact ⟨hmode, hconfig, rfl, hbytes⟩

/-- What the decoder of a class reads, the class makes from the bytes read. -/
theorem makes_of_take {cl : OpClass} {sz : Size} {mode config : Nat} {bs rest : List Byte} {i : Instr}
    (h : cl.take sz mode config bs = .ok i rest) :
    ∃ sh, Makes cl i sh true ∧ sh.size = sz ∧ sh.mode.toNat = mode ∧ sh.config.toNat = config ∧ bs = sh.bytes ++ rest := by
  cases cl with
  | two make =>
    obtain ⟨o, bs', ho, hi⟩ := andThen_eq_ok.1 h
    cases hi
    obtain ⟨hmode, hconfig, hwf, hbytes⟩ := takeTwoOp_ok ho
    exact ⟨o.shape sz, hwf ▸ .two make sz o, rfl, hmode, hconfig, hbytes⟩
  | one make =>
    obtain ⟨o, bs', ho, hi⟩ := andThen_eq_ok.1 h
    cases hi
    obtain ⟨hmode, hconfig, hbytes⟩ := takeOneOp_ok ho
    exact ⟨o.shape sz, .one make sz o, rfl, hmode, hconfig, hbytes⟩
  | push =>
    obtain ⟨o, bs', ho, hi⟩ := andThen_eq_ok.1 h
    cases hi
    obtain ⟨hmode, hconfig, hwf, hbytes⟩ := takePushOp_ok ho
    exact ⟨o.shape sz, hwf ▸ .push sz o, rfl, hmode, hconfig, hbytes⟩
  | extend make =>
    rw [OpClass.take] at h
    split at h
    · rename_i hform
      obtain ⟨rfl, rfl, rfl⟩ := hform
      simp only [andThen_eq_ok, takeReg_eq_ok, Parsed.ok.injEq] at h
      obtain ⟨rx, -, rfl, rfl, rfl⟩ := h
      exact ⟨_, .extend make rx, rfl, rfl, rfl, rfl⟩
    · cases h
  | implied j =>
    rw [OpClass.take] at h
    split at h
    · rename_i hform
      obtain ⟨rfl, rfl, rfl⟩ := hform
      cases h
      exact ⟨_, .implied i, rfl, rfl, rfl, rfl⟩
    · cases h
  | branch make =>
    rw [OpClass.take] at h
    split at h
    · rename_i hform
      obtain ⟨rfl, rfl⟩ := hform
      simp only [andThen_eq_ok, takeField_size_eq_ok, Parsed.ok.injEq] at h
      obtain ⟨d, -, ⟨rfl, hfit⟩, rfl, rfl⟩ := h
      exact ⟨.branch sz d, hfit ▸ .branch make sz d, rfl, rfl, rfl, rfl⟩
    · cases h
  | jump make =>
    rw [OpClass.take] at h
    split at h
    · rename_i hform
      obtain ⟨rfl, rfl, rfl⟩ := hform
      simp only [andThen_eq_ok, takeField_four_eq_ok, Parsed.ok.injEq] at h
      obtain ⟨a, -, rfl, rfl, rfl⟩ := h
      exact ⟨_, .jump make a, rfl, rfl, rfl, rfl⟩
    · cases h
  | sysCall =>
    rw [OpClass.take] at h
    split at h
    · rename_i hform
      obtain ⟨rfl, rfl⟩ := hform
      simp only [andThen_eq_ok, takeField_size_eq_ok, Parsed.ok.injEq] at h
      obtain ⟨k, -, ⟨rfl, hfit⟩, rfl, rfl⟩ := h
      exact ⟨⟨sz, 18, 0, fieldBytes sz.bytes k⟩, hfit ▸ .sysCall sz k, rfl, rfl, rfl, rfl⟩
    · cases h

/-! ### The word -/

theorem toDecoded_eq_instr {p : Parsed Instr} {i : Instr} : p.toDecoded = .instr i ↔ ∃ rest, p = .ok i rest := by
  cases p <;> simp [Parsed.toDecoded]

theorem field_of_ofField {s : BitVec 2} {sz : Size} (h : Size.ofField s = some sz) : sz.field = s := by
  revert s sz
  decide +revert

/-- Every word whose fields are assigned has a class and an operand size (R82, R100). -/
theorem class_and_size_of_assigned {h : Head} (hi : h.illegal = false) :
    ∃ cl sz, opClass h.code.toNat = some cl ∧ Size.ofField h.size = some sz := by
  simp only [Head.illegal, Bool.or_eq_false_iff, decide_eq_false_iff_not] at hi
  obtain ⟨⟨⟨hcode, hsize⟩, -⟩, -⟩ := hi
  obtain ⟨cl, hcl⟩ := opClass_of_le (Nat.le_of_not_lt hcode)
  have hsome : ∀ s : BitVec 2, s.toNat ≠ 3 → ∃ sz, Size.ofField s = some sz := by
    intro s hs
    rcases s with ⟨⟨n, hn⟩⟩
    interval_cases n
    · exact ⟨.long, rfl⟩
    · exact ⟨.word, rfl⟩
    · exact ⟨.byte, rfl⟩
    · exact absurd rfl hs
  obtain ⟨sz, hsz⟩ := hsome h.size hsize
  exact ⟨cl, sz, hcl, hsz⟩

/-- Settles O2: the class of the word makes what its decoder reads, and its code and shape are the word's own. -/
theorem decodedBytesStartWithTheEncoding : Obligations.DecodedBytesStartWithTheEncoding := by
  intro bs i h
  match bs, h with
  | lo :: hi :: bs, h =>
    change (Head.ofBytes lo hi).decode bs = _ at h
    cases hill : (Head.ofBytes lo hi).illegal with
    | true =>
      rw [Head.decode, hill] at h
      cases h
    | false =>
      obtain ⟨cl, sz, hcl, hsz⟩ := class_and_size_of_assigned hill
      rw [decode_of_fields hill hcl hsz, toDecoded_eq_instr] at h
      obtain ⟨rest, htake⟩ := h
      obtain ⟨sh, hm, rfl, hmode, hconfig, rfl⟩ := makes_of_take htake
      obtain ⟨hcode, rfl, hwf⟩ := makes_of_opClass hcl hm
      have hhead : i.head = Head.ofBytes lo hi := by
        rw [Instr.head, Head.mk.injEq]
        exact ⟨BitVec.eq_of_toNat_eq hcode, field_of_ofField hsz, BitVec.eq_of_toNat_eq hmode, BitVec.eq_of_toNat_eq hconfig⟩
      refine ⟨hwf, rest, ?_⟩
      rw [encode, hhead, bytes_ofBytes]
      rfl

end Sys2Proof.Proofs

namespace Sys2Proof.Proofs

open Sys2Proof.Claims

/-! ### The word's bytes as numbers -/

theorem code_size_of_lo (lo hi : Byte) :
    (Head.ofBytes lo hi).code.toNat = lo.toNat % 64 ∧ (Head.ofBytes lo hi).size.toNat = lo.toNat / 64 := by
  simp only [Head.ofBytes, BitVec.extractLsb'_toNat, Nat.shiftRight_eq_div_pow]
  have := lo.isLt
  omega

theorem mode_config_of_hi (lo hi : Byte) :
    (Head.ofBytes lo hi).mode.toNat = hi.toNat % 32 ∧ (Head.ofBytes lo hi).config.toNat = hi.toNat / 32 := by
  simp only [Head.ofBytes, BitVec.extractLsb'_toNat, Nat.shiftRight_eq_div_pow]
  have := hi.isLt
  omega

theorem illegal_ofBytes_iff (lo hi : Byte) : (Head.ofBytes lo hi).illegal = true ↔ reservedWord lo hi := by
  obtain ⟨hcode, hsize⟩ := code_size_of_lo lo hi
  obtain ⟨hmode, hconfig⟩ := mode_config_of_hi lo hi
  simp only [Head.illegal, Bool.or_eq_true, decide_eq_true_iff, reservedWord, hcode, hsize, hmode, hconfig, or_assoc]

theorem toDecoded_ne_illegal (p : Parsed Instr) : p.toDecoded ≠ .illegal := by
  cases p <;> simp [Parsed.toDecoded]

/-- Settles O4: a reserved field is looked at first, and a word without one is left to the decoder of its class, which answers something
else. -/
theorem illegalExactlyOnReservedFields : Obligations.IllegalExactlyOnReservedFields := by
  intro lo hi bs
  rw [← illegal_ofBytes_iff]
  show (Head.ofBytes lo hi).decode bs = .illegal ↔ _
  cases hill : (Head.ofBytes lo hi).illegal with
  | true => simp [Head.decode, hill]
  | false =>
    obtain ⟨cl, sz, hcl, hsz⟩ := class_and_size_of_assigned hill
    rw [decode_of_fields hill hcl hsz]
    simp [toDecoded_ne_illegal]

/-! ### Lengths (R91) -/

/-- The selector and the fields of a shape, counted (R91). -/
def HasLength (sh : Shape) : Prop :=
  (∀ h : Head, h.mode = sh.mode → h.config = sh.config → h.length sh.size = 2 + sh.bytes.length) ∧ sh.bytes.length ≤ 8

theorem hasLength_two (sz : Size) (o : TwoOp) : HasLength (o.shape sz) := by
  have hsz : sz.bytes ≤ 4 := by cases sz <;> decide
  refine ⟨fun h hmode hconfig => ?_, ?_⟩
  · rw [Head.length, hmode, hconfig]
    cases o with
    | regConst _ _ | regReg _ _ | regAbs _ _ | absReg _ _ | absConst _ _ =>
      simp [TwoOp.shape, TwoOp.mode, TwoOp.config, TwoOp.bytes, fieldBytes_length] <;> omega
    | regInd _ _ m | indReg _ _ m | indConst _ m _ | regIdx _ _ m _ | idxReg _ _ m _ =>
      cases m <;>
        simp [TwoOp.shape, TwoOp.mode, TwoOp.config, TwoOp.bytes, fieldBytes_length, Modifier.config1, Modifier.config2] <;>
        omega
  · cases o <;> simp [TwoOp.shape, TwoOp.bytes, fieldBytes_length] <;> omega

theorem hasLength_one (sz : Size) (o : OneOp) : HasLength (o.shape sz) := by
  refine ⟨fun h hmode hconfig => ?_, ?_⟩
  · rw [Head.length, hmode, hconfig]
    cases o with
    | reg _ | abs _ => simp [OneOp.shape, OneOp.mode, OneOp.config, OneOp.bytes, fieldBytes_length]
    | ind _ m | idx _ m _ =>
      cases m <;> simp [OneOp.shape, OneOp.mode, OneOp.config, OneOp.bytes, fieldBytes_length, Modifier.config1]
  · cases o <;> simp [OneOp.shape, OneOp.bytes, fieldBytes_length]

/-- A shape with no selector and one field of the operand size. -/
theorem hasLength_field (sz : Size) (mode : BitVec 5) (v : Word) (h : mode = 2 ∨ mode = 16 ∨ mode = 18) :
    HasLength ⟨sz, mode, 0, fieldBytes sz.bytes v⟩ := by
  have hsz : sz.bytes ≤ 4 := by cases sz <;> decide
  refine ⟨fun g hmode hconfig => ?_, ?_⟩
  · rw [Head.length, hmode, hconfig]
    obtain rfl | rfl | rfl := h <;> simp [fieldBytes_length]
  · rw [fieldBytes_length]
    omega

theorem hasLength_of_makes {cl : OpClass} {i : Instr} {sh : Shape} {ok : Bool} (hm : Makes cl i sh ok) : HasLength sh := by
  cases hm with
  | two make sz o => exact hasLength_two sz o
  | one make sz o => exact hasLength_one sz o
  | push sz o =>
    cases o with
    | const c => exact hasLength_field sz 2 c (.inl rfl)
    | operand o => exact hasLength_one sz o
  | extend make rx => exact hasLength_one .long (.reg rx)
  | implied i => exact ⟨fun h hmode hconfig => by rw [Head.length, hmode, hconfig]; rfl, by decide⟩
  | branch make sz d => exact hasLength_field sz 16 d (.inr (.inl rfl))
  | jump make a =>
    exact ⟨fun h hmode hconfig => by rw [Head.length, hmode, hconfig]; rfl, (fieldBytes_length 4 a).trans_le (by decide)⟩
  | sysCall sz k => exact hasLength_field sz 18 k (.inr (.inr rfl))

theorem encode_length (i : Instr) : (encode i).length = i.length ∧ 2 ≤ i.length ∧ i.length ≤ 10 := by
  obtain ⟨cl, -, hm⟩ := opClass_code i
  obtain ⟨hlen, hle⟩ := hasLength_of_makes hm
  have hi : i.length = 2 + i.shape.bytes.length := hlen i.head rfl rfl
  have he : (encode i).length = 2 + i.shape.bytes.length := by
    rw [encode, List.length_append]
    rfl
  omega

theorem head_bytes_toNat (h : Head) :
    (h.size ++ h.code : Byte).toNat / 64 = h.size.toNat ∧ (h.config ++ h.mode : Byte).toNat / 32 = h.config.toNat
      ∧ (h.config ++ h.mode : Byte).toNat % 32 = h.mode.toNat := by
  have hof := ofBytes_bytes h
  obtain ⟨-, hsize⟩ := code_size_of_lo (h.size ++ h.code) (h.config ++ h.mode)
  obtain ⟨hmode, hconfig⟩ := mode_config_of_hi (h.size ++ h.code) (h.config ++ h.mode)
  rw [hof] at hsize hmode hconfig
  exact ⟨hsize.symm, hconfig.symm, hmode.symm⟩

theorem bytes_of_field (sz : Size) :
    (if sz.field.toNat = 0 then 4 else if sz.field.toNat = 1 then 2 else 1) = sz.bytes := by
  cases sz <;> rfl

/-- Settles O3: the model's length is R91's formula on the fields, and the fields are the digits of the word's two bytes. -/
theorem lengthIsTheFormulaOfTheWord : Obligations.LengthIsTheFormulaOfTheWord := by
  intro i
  obtain ⟨hsize, hconfig, hmode⟩ := head_bytes_toNat i.head
  obtain ⟨hlen, hge, hle⟩ := encode_length i
  refine ⟨hlen, hge, hle, ?_⟩
  show i.length = 2 + (if (i.head.config ++ i.head.mode : Byte).toNat / 32 ≠ 0 then 1 else 0) + _ + _
  have hlo : (encode i)[0]!.toNat = (i.head.size ++ i.head.code : Byte).toNat := rfl
  have hhi : (encode i)[1]!.toNat = (i.head.config ++ i.head.mode : Byte).toNat := rfl
  have hzero : i.head.config.toNat = 0 ↔ i.head.config = 0 := (BitVec.toNat_eq (y := 0)).symm
  rw [hlo, hhi, hsize, hconfig, hmode, show i.head.size = i.shape.size.field from rfl, bytes_of_field]
  simp only [Instr.length, Head.length, ne_eq, hzero, ite_not]

/-- Settles O6: the ten fixed words are encoded by evaluation, and then decoded by O1. -/
theorem workedEncodingsDecode : Obligations.WorkedEncodingsDecode := by
  intro e he
  simp only [List.mem_cons, List.not_mem_nil, or_false] at he
  have hcode : encode e.1 = e.2 ∧ e.1.wf = true := by
    obtain rfl | rfl | rfl | rfl | rfl | rfl | rfl | rfl | rfl | rfl := he <;> decide
  obtain ⟨hbytes, hwf⟩ := hcode
  have hdecode := decodeOfEncodeIsTheInstruction e.1 [] hwf
  rw [List.append_nil, hbytes] at hdecode
  exact ⟨hbytes, hdecode⟩

/-! ### Words that are not admitted (R112) -/

theorem andThen_eq_badWord {α β : Type} {p : Parsed α} {f : α → List Byte → Parsed β} :
    p.andThen f = .badWord ↔ p = .badWord ∨ ∃ a bs, p = .ok a bs ∧ f a bs = .badWord := by
  cases p <;> simp [Parsed.andThen]

theorem withModifier_eq_badWord {α : Type} {m : Option Modifier} {f : Modifier → Parsed α} :
    withModifier m f = .badWord ↔ m = none ∨ ∃ x, m = some x ∧ f x = .badWord := by
  cases m <;> simp [withModifier]

theorem takeReg_ne_badWord (bs : List Byte) : takeReg bs ≠ .badWord := by
  cases bs with
  | nil => simp [takeReg]
  | cons b bs =>
    rw [takeReg]
    split <;> simp

theorem takeRegs_ne_badWord (bs : List Byte) : takeRegs bs ≠ .badWord := by
  cases bs <;> simp [takeRegs]

theorem takeField_ne_badWord (k : Nat) (bs : List Byte) : takeField k bs ≠ .badWord := by
  rw [takeField]
  split <;> simp

theorem ofConfig1_eq_none (r : Nat) : Modifier.ofConfig1 r = none ↔ r ≠ 1 ∧ r ≠ 3 ∧ r ≠ 5 := by
  unfold Modifier.ofConfig1
  split <;> simp; tauto

theorem ofConfig2_eq_none (r : Nat) : Modifier.ofConfig2 r = none ↔ r ≠ 2 ∧ r ≠ 4 ∧ r ≠ 6 := by
  unfold Modifier.ofConfig2
  split <;> simp; tauto

theorem takeTwoOp_badWord (sz : Size) (mode config : Nat) (bs : List Byte) :
    takeTwoOp sz mode config bs = .badWord ↔ twoRows.contains (mode, config) = false := by
  unfold takeTwoOp
  split <;> simp [twoRows, andThen_eq_badWord, withModifier_eq_badWord, ofConfig1_eq_none, ofConfig2_eq_none,
    takeReg_ne_badWord, takeRegs_ne_badWord, takeField_ne_badWord]
  grind

theorem takeOneOp_badWord (mode config : Nat) (bs : List Byte) :
    takeOneOp mode config bs = .badWord ↔ oneRows.contains (mode, config) = false := by
  unfold takeOneOp
  split <;> simp [oneRows, andThen_eq_badWord, withModifier_eq_badWord, ofConfig1_eq_none, takeReg_ne_badWord,
    takeField_ne_badWord]
  grind

theorem takePushOp_badWord (sz : Size) (mode config : Nat) (bs : List Byte) :
    takePushOp sz mode config bs = .badWord
      ↔ ((mode, config) == ((2, 0) : Nat × Nat) || oneRows.contains (mode, config)) = false := by
  unfold takePushOp
  split
  · simp [andThen_eq_badWord, takeField_ne_badWord]
  · rename_i hconst
    have hne : ((mode, config) == ((2, 0) : Nat × Nat)) = false := by simpa using hconst
    simp [andThen_eq_badWord, takeOneOp_badWord, hne]

/-- The rows of R97 to R99 that admit a word of a class: mode, configuration and size field. -/
def classAdmits (mode config size : Nat) : OpClass → Bool
  | .two _ => twoRows.contains (mode, config)
  | .one _ => oneRows.contains (mode, config)
  | .push => (mode, config) == (2, 0) || oneRows.contains (mode, config)
  | .extend _ => (mode, config, size) == (3, 1, 0)
  | .implied _ => (mode, config, size) == (0, 0, 0)
  | .branch _ => (mode, config) == (16, 0)
  | .jump _ => (mode, config, size) == (17, 0, 0)
  | .sysCall => (mode, config) == (18, 0)

/-- The one table of the claims, sorted by code, is the rows of the class of the code. -/
theorem admitted_of_opClass {c : Nat} {cl : OpClass} (h : opClass c = some cl) (mode config size : Nat) :
    admitted c mode config size = classAdmits mode config size cl := by
  unfold opClass at h
  split at h <;> cases h <;> simp [admitted, twoCodes, oneCodes, impliedCodes, classAdmits]

theorem long_iff_field (sz : Size) : sz = .long ↔ sz.field.toNat = 0 := by
  cases sz <;> decide

theorem ite_eq_badWord {α : Type} {c : Prop} [Decidable c] {p : Parsed α} (hp : p ≠ .badWord) :
    (if c then p else .badWord) = .badWord ↔ ¬ c := by
  by_cases h : c <;> simp [h, hp]

/-- The decoder of a class reads a word without a meaning exactly where no row of the class admits it. -/
theorem take_badWord (cl : OpClass) (sz : Size) (mode config : Nat) (bs : List Byte) :
    cl.take sz mode config bs = .badWord ↔ classAdmits mode config sz.field.toNat cl = false := by
  cases cl with
  | two make => simp [OpClass.take, classAdmits, andThen_eq_badWord, takeTwoOp_badWord]
  | one make => simp [OpClass.take, classAdmits, andThen_eq_badWord, takeOneOp_badWord]
  | push => simp [OpClass.take, classAdmits, andThen_eq_badWord, takePushOp_badWord]
  | extend make =>
    rw [OpClass.take, ite_eq_badWord (by simp [andThen_eq_badWord, takeReg_ne_badWord])]
    simp [classAdmits, long_iff_field]
    tauto
  | implied i =>
    rw [OpClass.take, ite_eq_badWord (by simp)]
    simp [classAdmits, long_iff_field]
    tauto
  | branch make =>
    rw [OpClass.take, ite_eq_badWord (by simp [andThen_eq_badWord, takeField_ne_badWord])]
    simp [classAdmits]
  | jump make =>
    rw [OpClass.take, ite_eq_badWord (by simp [andThen_eq_badWord, takeField_ne_badWord])]
    simp [classAdmits, long_iff_field]
    tauto
  | sysCall =>
    rw [OpClass.take, ite_eq_badWord (by simp [andThen_eq_badWord, takeField_ne_badWord])]
    simp [classAdmits]

theorem toDecoded_eq_unspecifiedWord {p : Parsed Instr} : p.toDecoded = .unspecifiedWord ↔ p = .badWord := by
  cases p <;> simp [Parsed.toDecoded]

/-- Settles O5: an assigned word is read by the class of its code, which refuses it exactly where the class's rows do not admit it. -/
theorem unspecifiedExactlyOnUnadmittedWords : Obligations.UnspecifiedExactlyOnUnadmittedWords := by
  intro lo hi bs
  rw [← illegal_ofBytes_iff]
  show (Head.ofBytes lo hi).decode bs = .unspecifiedWord ↔ _
  cases hill : (Head.ofBytes lo hi).illegal with
  | true => simp [Head.decode, hill]
  | false =>
    obtain ⟨cl, sz, hcl, hsz⟩ := class_and_size_of_assigned hill
    obtain ⟨hcode, hsize⟩ := code_size_of_lo lo hi
    obtain ⟨hmode, hconfig⟩ := mode_config_of_hi lo hi
    rw [decode_of_fields hill hcl hsz, toDecoded_eq_unspecifiedWord, take_badWord, field_of_ofField hsz, hmode, hconfig, hsize]
    rw [hcode] at hcl
    rw [admitted_of_opClass hcl]
    simp

end Sys2Proof.Proofs

namespace Sys2Proof.Proofs

open Sys2Proof.Machine Sys2Proof.Claims

/-! ### What an instruction can do (R130, R144, R150) -/

/-- The flags that `w` does not mark are the same in `q` as in `p`. -/
structure KeepsFlagsBut (w p q : Status) : Prop where
  i : w.i = false → q.i = p.i
  v : w.v = false → q.v = p.v
  c : w.c = false → q.c = p.c
  n : w.n = false → q.n = p.n
  z : w.z = false → q.z = p.z

theorem keepsFlagsBut_of_eq {w p q : Status} (h : q = p) : KeepsFlagsBut w p q := by
  subst h
  exact ⟨fun _ => rfl, fun _ => rfl, fun _ => rfl, fun _ => rfl, fun _ => rfl⟩

/-- The state a trap is entered from inside a step: the registers but `pc`, the flags, memory and the existence map of before. -/
structure SameButPc (s u : State) : Prop where
  regs : KeepsRegsBut [.pc] s u
  p : u.p = s.p
  mem : u.mem = s.mem
  present : u.present = s.present
  halted : u.halted = s.halted
  requests : u.requests = s.requests

theorem SameButPc.refl (s : State) : SameButPc s s := ⟨fun _ _ => rfl, rfl, rfl, rfl, rfl, rfl⟩

theorem SameButPc.advance (len : Nat) (s : State) : SameButPc s (advance len s) := by
  refine ⟨fun i hi => ?_, rfl, rfl, rfl, rfl, rfl⟩
  rw [advance_reg, if_neg (by simpa using hi)]

theorem SameButPc.setCalls (s : State) (l : List SysAnswer) : SameButPc s (s.setCalls l) :=
  ⟨fun _ _ => rfl, rfl, rfl, rfl, rfl, rfl⟩

theorem SameButPc.evolves {s u : State} (h : SameButPc s u) : Evolves s u :=
  .of_same_mem h.present h.requests h.halted h.mem

/-- What executing an instruction that may write the flags `w` gives from `s`: its effect, a trap entered from a state with the
registers, flags and memory of before, or a refusal. -/
inductive Ran (w : Status) (s : State) : Host.Outcome State Fault Refusal → Prop
  | completed (t : State) : Evolves s t → KeepsFlagsBut w s.p t.p → Ran w s (.next t)
  | trapped (cause : Cause) (retpc : Word) (u : State) : SameButPc s u → Ran w s (.next (trapEntry cause retpc u))
  | refused (r : Refusal) : Ran w s (.refused r)

/-- An instruction with a body runs as its body does, or traps from the state it started in (R144). -/
theorem ran_execute {w : Status} {len : Nat} {body : State → Except Cause State} {s : State}
    (h : ∀ a t : State, body a = .ok t → Evolves a t ∧ KeepsFlagsBut w a.p t.p) : Ran w s (execute len body s) := by
  rcases execute_cases (rfl : execute len body s = _) with ⟨t, ht, e⟩ | ⟨c, -, e⟩
  · obtain ⟨hev, hp⟩ := h _ t ht
    rw [e]
    exact .completed t ((Evolves.advance len s).trans hev) hp
  · rw [e]
    exact .trapped c _ s (.refl s)

/-- An instruction whose body never raises. -/
theorem ran_total {w : Status} {len : Nat} {f : State → State} {s : State}
    (h : ∀ a : State, Evolves a (f a) ∧ KeepsFlagsBut w a.p (f a).p) : Ran w s (execute len (fun a => .ok (f a)) s) :=
  ran_execute fun a t ht => by
    cases ht
    exact h a

/-- An operation of step 5 of R140 that writes no flag but those of `w`. -/
def WritesOnly (w : Status) (alu : Alu) : Prop :=
  ∀ (n : Nat) (a b : BitVec n) (p : Status) (r : BitVec n × Status), alu n a b p = .ok r → KeepsFlagsBut w p r.2

theorem ran_places {w : Status} {len : Nat} {sz : Size} {ptr : Option (Reg × Modifier)} {src dst : State → Place} {use : DstUse}
    {alu : Alu} {s : State} (h : WritesOnly w alu) :
    Ran w s (execute len
      (fun a => runPlaces sz ptr (src (preDecrement sz ptr a)) (dst (preDecrement sz ptr a)) use alu (preDecrement sz ptr a)) s) :=
  ran_execute fun a t ht => by
    obtain ⟨hev, x, y, r, hr, hp⟩ := runPlaces_evolves ht
    refine ⟨(preDecrement_evolves sz ptr a).trans hev, ?_⟩
    rw [hp]
    rw [preDecrement_p] at hr
    exact h _ x y a.p r hr

theorem ran_two {w : Status} {len : Nat} {sz : Size} {o : TwoOp} {use : DstUse} {alu : Alu} {s : State} (h : WritesOnly w alu) :
    Ran w s (execute len (runTwo sz o use alu) s) :=
  ran_places (src := o.src.place) (dst := o.dst.place) h

theorem ran_one {w : Status} {len : Nat} {sz : Size} {o : OneOp} {use : DstUse} {alu : Alu} {s : State} (h : WritesOnly w alu) :
    Ran w s (execute len (runOne sz o use alu) s) :=
  ran_places (src := fun _ => .const 0) (dst := o.operand.place) h

/-! ### The rows of the flag policy (R150) -/

theorem keepsFlagsBut_nz {n : Nat} {w p : Status} {x : BitVec n} {r : BitVec n × Status} (h : nzResult p x = .ok r)
    (hn : w.n = true) (hz : w.z = true) : KeepsFlagsBut w p r.2 := by
  obtain ⟨-, -, hi, hv, hc⟩ := nzResult_ok h
  exact ⟨fun _ => hi, fun _ => hv, fun _ => hc, by simp [hn], by simp [hz]⟩

theorem keepsFlagsBut_sum {n : Nat} {w p : Status} {x : Sum n} {r : BitVec n × Status} (h : sumResult p x = .ok r)
    (hn : w.n = true) (hz : w.z = true) (hc : w.c = true) (hv : w.v = true) : KeepsFlagsBut w p r.2 := by
  obtain ⟨-, -, -, -, -, hi⟩ := sumResult_ok h
  exact ⟨fun _ => hi, by simp [hv], by simp [hc], by simp [hn], by simp [hz]⟩

theorem keepsFlagsBut_shift {n : Nat} {w p : Status} {x : Shifted n} {r : BitVec n × Status} (h : shiftResult p x = .ok r)
    (hn : w.n = true) (hz : w.z = true) (hc : w.c = true) : KeepsFlagsBut w p r.2 := by
  obtain ⟨-, -, hi, hv⟩ := shiftResult_ok h
  exact ⟨fun _ => hi, fun _ => hv, by simp [hc], by simp [hn], by simp [hz]⟩

theorem keepsFlagsBut_div {n : Nat} {w p : Status} {a b : BitVec n} {r : BitVec n × Status} (h : aluDiv n a b p = .ok r)
    (hn : w.n = true) (hz : w.z = true) : KeepsFlagsBut w p r.2 := by
  rcases aluDiv_cases a b p with ⟨-, e⟩ | ⟨-, e⟩
  · exact keepsFlagsBut_nz (x := divQuotient a b) (e.symm.trans h) hn hz
  · rw [e] at h
    cases h

theorem keepsFlagsBut_setI {w p : Status} {b : Bool} (h : w.i = true) : KeepsFlagsBut w p { p with i := b } :=
  ⟨by simp [h], fun _ => rfl, fun _ => rfl, fun _ => rfl, fun _ => rfl⟩

theorem keepsFlagsBut_setV {w p : Status} {b : Bool} (h : w.v = true) : KeepsFlagsBut w p { p with v := b } :=
  ⟨fun _ => rfl, by simp [h], fun _ => rfl, fun _ => rfl, fun _ => rfl⟩

theorem keepsFlagsBut_setC {w p : Status} {b : Bool} (h : w.c = true) : KeepsFlagsBut w p { p with c := b } :=
  ⟨fun _ => rfl, fun _ => rfl, by simp [h], fun _ => rfl, fun _ => rfl⟩

theorem ran_setStatus {w : Status} {len : Nat} {f : Status → Status} {s : State} (h : ∀ p, KeepsFlagsBut w p (f p)) :
    Ran w s (execute len (fun a => .ok (a.setStatus (f a.p))) s) :=
  ran_total (f := fun a => a.setStatus (f a.p)) fun a => ⟨.setStatus _ _, h a.p⟩

theorem ran_branch {w : Status} {len : Nat} {cond : Status → Bool} {sz : Size} {d : Word} {s : State} :
    Ran w s (execute len (fun a => .ok (branchIf cond sz d a)) s) :=
  ran_total fun a => (branchIf_evolves cond sz d a).imp id keepsFlagsBut_of_eq

theorem ran_extend {w : Status} {len n : Nat} {rx : Reg} {s : State} (hn : w.n = true) (hz : w.z = true) :
    Ran w s (execute len (fun a => .ok (extendReg n rx a)) s) :=
  ran_total fun a =>
    ⟨(Evolves.setReg _ _ _).trans (.setStatus _ _), keepsFlagsBut_nz (x := sextLow n (a.reg rx)) (p := a.p) rfl hn hz⟩

theorem ran_sys {sz : Size} {k : Word} {s : State} : Ran (writtenFlags (.sys sz k)) s (execSys sz k s) := by
  rw [execSys]
  cases s.calls with
  | nil => exact .refused _
  | cons a rest =>
    show Ran _ s (execute (Instr.sys sz k).length (answerCall a) (s.setCalls rest))
    rcases execute_cases (rfl : execute (Instr.sys sz k).length (answerCall a) (s.setCalls rest) = _) with ⟨t, ht, e⟩ | ⟨c, -, e⟩
    · rw [e]
      refine .completed t (((SameButPc.setCalls s rest).evolves.trans (.advance _ _)).trans (answerCall_evolves ht)) ?_
      exact ⟨by simp [writtenFlags], by simp [writtenFlags], by simp [writtenFlags], by simp [writtenFlags], by simp [writtenFlags]⟩
    · rw [e]
      exact .trapped c _ _ (.setCalls s rest)

/-- Every instruction completes, traps or is refused, and writes no flag but those its row of the flag policy gives (R150). -/
theorem exec_ran (i : Instr) (s : State) : Ran (writtenFlags i) s (exec i s) := by
  cases i with
  | mov sz o => exact ran_two fun _ _ _ _ _ h => keepsFlagsBut_nz h rfl rfl
  | mul sz o => exact ran_two fun _ _ _ _ _ h => keepsFlagsBut_nz h rfl rfl
  | and sz o => exact ran_two fun _ _ _ _ _ h => keepsFlagsBut_nz h rfl rfl
  | or sz o => exact ran_two fun _ _ _ _ _ h => keepsFlagsBut_nz h rfl rfl
  | xor sz o => exact ran_two fun _ _ _ _ _ h => keepsFlagsBut_nz h rfl rfl
  | div sz o => exact ran_two fun _ _ _ _ _ h => keepsFlagsBut_div h rfl rfl
  | add sz o => exact ran_two fun _ _ _ _ _ h => keepsFlagsBut_sum h rfl rfl rfl rfl
  | sub sz o => exact ran_two fun _ _ _ _ _ h => keepsFlagsBut_sum h rfl rfl rfl rfl
  | adc sz o => exact ran_two fun _ _ _ _ _ h => keepsFlagsBut_sum h rfl rfl rfl rfl
  | sbc sz o => exact ran_two fun _ _ _ _ _ h => keepsFlagsBut_sum h rfl rfl rfl rfl
  | cmp sz o => exact ran_two fun _ _ _ _ _ h => keepsFlagsBut_sum h rfl rfl rfl rfl
  | shl sz o => exact ran_two fun _ _ _ _ _ h => keepsFlagsBut_shift h rfl rfl rfl
  | shr sz o => exact ran_two fun _ _ _ _ _ h => keepsFlagsBut_shift h rfl rfl rfl
  | rol sz o => exact ran_two fun _ _ _ _ _ h => keepsFlagsBut_shift h rfl rfl rfl
  | ror sz o => exact ran_two fun _ _ _ _ _ h => keepsFlagsBut_shift h rfl rfl rfl
  | clr sz o => exact ran_one fun _ _ _ _ _ h => keepsFlagsBut_nz h rfl rfl
  | inc sz o => exact ran_one fun _ _ _ _ _ h => keepsFlagsBut_nz h rfl rfl
  | dec sz o => exact ran_one fun _ _ _ _ _ h => keepsFlagsBut_nz h rfl rfl
  | sxb rx => exact ran_extend rfl rfl
  | sxw rx => exact ran_extend rfl rfl
  | sec => exact ran_setStatus (f := fun p => { p with c := true }) fun _ => keepsFlagsBut_setC rfl
  | clc => exact ran_setStatus (f := fun p => { p with c := false }) fun _ => keepsFlagsBut_setC rfl
  | sei => exact ran_setStatus (f := fun p => { p with i := true }) fun _ => keepsFlagsBut_setI rfl
  | cli => exact ran_setStatus (f := fun p => { p with i := false }) fun _ => keepsFlagsBut_setI rfl
  | sev => exact ran_setStatus (f := fun p => { p with v := true }) fun _ => keepsFlagsBut_setV rfl
  | clv => exact ran_setStatus (f := fun p => { p with v := false }) fun _ => keepsFlagsBut_setV rfl
  | push sz o => exact ran_execute fun _ _ h => (pushOperand_evolves h).imp id keepsFlagsBut_of_eq
  | pop sz o =>
    refine ran_execute fun a t h => ?_
    obtain ⟨hev, hi, hv, hc⟩ := popOperand_evolves h
    exact ⟨hev, fun _ => hi, fun _ => hv, fun _ => hc, by simp [writtenFlags], by simp [writtenFlags]⟩
  | pusha => exact ran_execute fun a t h => (pushRegs_evolves _ a t h).imp id keepsFlagsBut_of_eq
  | popa => exact ran_execute fun a t h => (popRegs_evolves _ a t h).imp id keepsFlagsBut_of_eq
  | jmp addr => exact ran_total fun a => ⟨.setPc a addr, keepsFlagsBut_of_eq rfl⟩
  | jsr addr => exact ran_execute fun _ _ h => (callTo_evolves h).imp id keepsFlagsBut_of_eq
  | rts =>
    refine ran_execute fun a t h => ?_
    obtain ⟨-, rfl⟩ := returnFromCall_ok h
    exact ⟨(Evolves.setSp _ _).trans (.setPc _ _), keepsFlagsBut_of_eq rfl⟩
  | rti =>
    exact ran_execute fun _ _ h => ⟨returnFromTrap_evolves h, by simp [writtenFlags], by simp [writtenFlags],
      by simp [writtenFlags], by simp [writtenFlags], by simp [writtenFlags]⟩
  | brk => exact .trapped .softwareIrq _ _ (.advance _ s)
  | nop => exact ran_total (f := id) fun a => ⟨.refl a, keepsFlagsBut_of_eq rfl⟩
  | slp => exact ran_total fun a => ⟨.setSleeping a true, keepsFlagsBut_of_eq rfl⟩
  | bra sz d | beq sz d | bne sz d | bcc sz d | bcs sz d | bpl sz d | bmi sz d | bvc sz d | bvs sz d | blt sz d | bgt sz d
  | ble sz d | bge sz d => exact ran_branch
  | sys sz k => exact ran_sys

end Sys2Proof.Proofs

namespace Sys2Proof.Proofs

open Sys2Proof.Machine Sys2Proof.Claims

/-! ### Trap entry (R320, R322, R324) -/

theorem vector_eq (cause : Cause) : cause.vector = vectorAddress cause := by
  cases cause <;> rfl

theorem memRead_of_exists {s : State} {a : Word} {sz : Size} (h : BytesExist s a sz.bytes) :
    memRead s a sz = .ok (valueAt s sz.bits a) := by
  rw [valueAt_eq]
  exact memRead_ok.2 ⟨(allExist_eq_bytesExist s a _).trans (decide_eq_true h), rfl⟩

theorem memRead_missing {s : State} {a : Word} {sz : Size} (h : ¬ BytesExist s a sz.bytes) :
    memRead s a sz = .error .illegalAddress :=
  memRead_error.2 ⟨(allExist_eq_bytesExist s a _).trans (decide_eq_false h), rfl⟩

/-- The five bytes of a trap frame are the four of the return PC and, below them, the status byte (R320). -/
theorem frame_exists_iff (s : State) (a : Word) :
    BytesExist s (a - 5) 5 ↔ BytesExist s (a - 4) 4 ∧ BytesExist s (a - 5) 1 := by
  have hnext (j : Nat) : a - 5 + BitVec.ofNat 32 (j + 1) = a - 4 + BitVec.ofNat 32 j := by
    rw [BitVec.ofNat_add]
    bv_omega
  constructor
  · intro h
    exact ⟨fun j hj => hnext j ▸ h (j + 1) (by omega), fun j hj => h j (by omega)⟩
  · rintro ⟨hpc, hstatus⟩ j hj
    cases j with
    | zero => exact hstatus 0 (by decide)
    | succ j => exact (hnext j).symm ▸ hpc j (by omega)

/-- The status byte goes right below the return PC (R320). -/
theorem status_below_returnPc {s s1 : State} {retpc : Word} (h : push s .long retpc = .ok s1) :
    s1.sp - sizeStep .byte = s.sp - 5 := by
  obtain ⟨hreg, -⟩ := push_spec h
  have hsp : s1.sp = s.sp - 4 := hreg .sp
  show s1.sp - 1 = _
  rw [hsp]
  bv_omega

theorem status_not_within_returnPc (a : Word) : ¬ Within (a - 4) 4 (a - 5) := by
  rw [Within]
  bv_omega

/-- The two pushes of a trap entry, where the five bytes of the frame exist: what they leave in memory and the registers (R320). -/
theorem pushFrame_of_exists {s : State} (retpc : Word) (h : BytesExist s (s.sp - 5) 5) :
    ∃ s1 s2, push s .long retpc = .ok s1 ∧ pushStatus s1 = .ok s2
      ∧ (∀ i, s2.reg i = if i = .sp then s.sp - 5 else s.reg i) ∧ s2.p = s.p ∧ SameRest s s2
      ∧ ∀ x, byteAt s2 x =
          if Within (s.sp - 4) 4 x then retpc.extractLsb' (8 * (x - (s.sp - 4)).toNat) 8
          else if x = s.sp - 5 then s.p.toByte else byteAt s x := by
  obtain ⟨hpc, hstatus⟩ := (frame_exists_iff s s.sp).1 h
  obtain ⟨s1, h1⟩ := push_exists (sz := .long) retpc hpc
  obtain ⟨hreg1, hp1, hrest1, hmem1⟩ := push_spec h1
  have hdown := status_below_returnPc h1
  obtain ⟨hsleep, hhalt, hpresent, hrequests⟩ := hrest1
  have hstatus1 : BytesExist s1 (s1.sp - sizeStep .byte) 1 := by
    rw [hdown, bytesExist_congr hpresent]
    exact hstatus
  obtain ⟨s2, h2⟩ := push_exists (sz := .byte) s1.p.toByte hstatus1
  obtain ⟨hreg2, hp2, hrest2, hmem2⟩ := push_spec h2
  refine ⟨s1, s2, h1, h2, fun i => ?_, hp2.trans hp1, sameRest_trans ⟨hsleep, hhalt, hpresent, hrequests⟩ hrest2, fun x => ?_⟩
  · rw [hreg2, hreg1, hdown]
    split <;> rfl
  · rw [hmem2, hmem1, hdown, hp1]
    by_cases hx : x = s.sp - 5
    · subst hx
      rw [if_pos (by simp [Within])]
      rw [if_neg (status_not_within_returnPc s.sp), if_pos rfl]
      simp
    · have hout : ¬ Within (s.sp - 5) (Size.bytes .byte) x := by
        show ¬ (x - (s.sp - 5)).toNat < 1
        intro hlt
        exact hx (by bv_omega)
      rw [if_neg hout, if_neg hx]
      rfl

/-- Where the frame and the vector exist, a trap entry completes and leaves what R320 says. -/
theorem enterTrap_of_ready {cause : Cause} (retpc : Word) {s : State} (h : TrapReady cause s) :
    ∃ t, enterTrap cause retpc s = .ok t ∧ TrapEntered cause retpc s t := by
  obtain ⟨hframe, hvector⟩ := h
  obtain ⟨s1, s2, h1, h2, hreg, hp, ⟨hsleep, hhalt, hpresent, hrest⟩, hmem⟩ := pushFrame_of_exists retpc hframe
  have hread : memRead s2.vectorView cause.vector .long = .ok (valueAt s2.vectorView 32 (vectorAddress cause)) := by
    rw [vector_eq]
    exact memRead_of_exists (sz := .long) ((bytesExist_congr (t := s2.vectorView) hpresent _ _).2 hvector)
  refine ⟨(s2.setPc (valueAt s2.vectorView 32 (vectorAddress cause))).setSleeping false, ?_, hreg .sp, hmem, rfl,
    fun i hi => ?_, hp, rfl, hhalt, hpresent, hrest⟩
  · rw [enterTrap, h1]
    show (do
      let s2 ← pushStatus s1
      let target ← memRead s2.vectorView cause.vector .long
      .ok ((s2.setPc target).setSleeping false) : Except Cause State) = _
    rw [h2]
    show (do
      let target ← memRead s2.vectorView cause.vector .long
      .ok ((s2.setPc target).setSleeping false) : Except Cause State) = _
    rw [hread]
    rfl
  · simp only [List.mem_cons, List.not_mem_nil, or_false, not_or] at hi
    rw [State.setSleeping_reg, State.setPc_reg, if_neg hi.2, hreg, if_neg hi.1]

/-- A trap entry that completes has found its frame and its vector. -/
theorem trapReady_of_enterTrap {cause : Cause} {retpc : Word} {s t : State} (h : enterTrap cause retpc s = .ok t) :
    TrapReady cause s := by
  obtain ⟨s1, s2, h1, h2, hvector, -⟩ := enterTrap_ok h
  obtain ⟨-, -, ⟨-, -, hpresent1, -⟩, -⟩ := push_spec h1
  obtain ⟨-, -, ⟨-, -, hpresent2, -⟩, -⟩ := push_spec h2
  have hdown := status_below_returnPc h1
  have hpc : BytesExist s (s.sp - 4) 4 := (State.allExist_iff _ _ _).1 (push_ok.1 h1).1
  have hstatus : BytesExist s1 (s.sp - 5) 1 := hdown ▸ (State.allExist_iff _ _ _).1 (push_ok.1 h2).1
  rw [bytesExist_congr hpresent1] at hstatus
  have hvec : BytesExist s2 (vectorAddress cause) 4 := vector_eq cause ▸ (State.allExist_iff _ _ _).1 hvector
  rw [bytesExist_congr (hpresent2.trans hpresent1)] at hvec
  exact ⟨(frame_exists_iff s s.sp).2 ⟨hpc, hstatus⟩, hvec⟩

/-- Settles O47: the two pushes and the vector's read, each by its own lemma. -/
theorem trapEntryPushesTheFrame : Obligations.TrapEntryPushesTheFrame := by
  intro cause retpc s h
  obtain ⟨t, ht, hentered⟩ := enterTrap_of_ready retpc h
  rw [trapEntry, ht]
  exact hentered

theorem trapEntry_of_not_ready {cause : Cause} (retpc : Word) {s : State} (h : ¬ TrapReady cause s) :
    trapEntry cause retpc s = s.halt := by
  rcases trapEntry_cases cause retpc s with ⟨t, ht, -⟩ | ⟨-, e⟩
  · exact absurd (trapReady_of_enterTrap ht) h
  · exact e

/-- A trap entry halts the core exactly where a byte of its frame or its vector does not exist (R324). -/
theorem trapEntry_halted {cause : Cause} {retpc : Word} {s : State} (h : s.halted = false) :
    (trapEntry cause retpc s).halted = true ↔ ¬ TrapReady cause s := by
  constructor
  · intro hh hready
    obtain ⟨-, -, -, -, -, -, hhalt, -⟩ := trapEntryPushesTheFrame cause retpc s hready
    rw [hhalt, h] at hh
    cases hh
  · intro hready
    rw [trapEntry_of_not_ready retpc hready, State.halt_halted]

/-! ### Reset (R350) -/

/-- The eight bytes of the reset vectors are those of `pc` and those of `SP` (R33). -/
theorem resetVectors_exist_iff (s : State) : BytesExist s 0 8 ↔ BytesExist s 0 4 ∧ BytesExist s 4 4 := by
  have hnext (j : Nat) : (0 : Word) + BitVec.ofNat 32 (4 + j) = 4 + BitVec.ofNat 32 j := by
    rw [BitVec.ofNat_add]
    bv_omega
  constructor
  · intro h
    exact ⟨fun j hj => h j (by omega), fun j hj => hnext j ▸ h (4 + j) (by omega)⟩
  · rintro ⟨hpc, hsp⟩ j hj
    by_cases hlow : j < 4
    · exact hpc j hlow
    · obtain ⟨k, rfl⟩ := Nat.exists_eq_add_of_le (Nat.le_of_not_lt hlow)
      exact (hnext k).symm ▸ hsp k (by omega)

/-- What the reset sequence leaves where both vectors exist. -/
theorem resetSequence_of_exists {s : State} (h : BytesExist s 0 8) :
    resetSequence s = (({ s with sleeping := false, halted := false }).setPc (valueAt s 32 0)).setSp (valueAt s 32 4) := by
  obtain ⟨hpc, hsp⟩ := (resetVectors_exist_iff s).1 h
  have h0 : memRead { s with sleeping := false, halted := false } 0 .long = .ok (valueAt s 32 0) :=
    memRead_of_exists (sz := .long) hpc
  have h4 : memRead { s with sleeping := false, halted := false } 4 .long = .ok (valueAt s 32 4) :=
    memRead_of_exists (sz := .long) hsp
  simp only [resetSequence, h0, h4, bind, Except.bind]

/-- A missing vector byte halts the core in reset. -/
theorem resetSequence_of_missing {s : State} (h : ¬ BytesExist s 0 8) : (resetSequence s).halted = true := by
  rw [resetVectors_exist_iff] at h
  by_cases hpc : BytesExist s 0 4
  · have h0 : memRead { s with sleeping := false, halted := false } 0 .long = .ok (valueAt s 32 0) :=
      memRead_of_exists (sz := .long) hpc
    have h4 : memRead { s with sleeping := false, halted := false } 4 .long = .error .illegalAddress :=
      memRead_missing (sz := .long) fun hsp => h ⟨hpc, hsp⟩
    simp only [resetSequence, h0, h4, bind, Except.bind, State.halt_halted]
  · have h0 : memRead { s with sleeping := false, halted := false } 0 .long = .error .illegalAddress :=
      memRead_missing (sz := .long) hpc
    simp only [resetSequence, h0, bind, Except.bind, State.halt_halted]

/-- Settles O55: the sequence completes with both vectors, and its one other outcome halts. -/
theorem resetLoadsPcAndSpFromTheVectors : Obligations.ResetLoadsPcAndSpFromTheVectors := by
  intro s
  refine ⟨fun h => ?_, resetSequence_of_missing⟩
  rw [resetSequence_of_exists h]
  exact ⟨rfl, rfl, rfl, rfl, fun _ => rfl⟩

/-- Settles O48: a failed entry answers the state before it, halted; `step` looks at `halted` first; reset clears it. -/
theorem faultInTrapEntryHaltsForGood : Obligations.FaultInTrapEntryHaltsForGood := by
  refine ⟨fun cause retpc s h => trapEntry_of_not_ready retpc h, fun s h => ?_, fun s h => ?_⟩
  · rw [step, if_pos h]
  · rw [resetSequence_of_exists h]
    rfl

end Sys2Proof.Proofs

namespace Sys2Proof.Proofs

open Sys2Proof.Machine Sys2Proof.Claims

/-! ### The step by what its recognition point does -/

/-- A step that runs an instruction does what decoding at `pc` gives (R130). -/
theorem step_of_runs {s : State} (hh : s.halted = false) (h : runsInstruction s) :
    step s = runDecoded s.sampled (fetchDecode s.sampled) := by
  obtain ⟨hawake, hnmi, hirq⟩ := h
  rw [step, hh, recognise_run s hawake hnmi hirq]
  rfl

/-- A step that runs no instruction enters an interrupt, wakes, or sleeps on (R312, R315, R335). -/
theorem step_of_not_runs {s : State} (hh : s.halted = false) (h : ¬ runsInstruction s) :
    (∃ cause, step s = .next (trapEntry cause s.pc s.sampled)) ∨ ∃ b, step s = .next (s.sampled.setSleeping b) := by
  rw [step, hh]
  simp only [Bool.false_eq_true, if_false]
  rcases recognise_cases s with ⟨cause, e⟩ | ⟨b, e⟩ | e
  · exact .inl ⟨cause, by rw [e]; rfl⟩
  · exact .inr ⟨b, by rw [e]; rfl⟩
  · refine absurd ?_ h
    rw [recognise] at e
    split at e
    · cases e
    · split at e
      · cases e
      · split at e
        · cases e
        · rename_i hnmi hirq hawake
          simp only [State.sampled_p, State.sampled_sleeping] at hirq hawake
          refine ⟨by simpa using hawake, by simpa using hnmi, ?_⟩
          cases hreq : s.request.irq with
          | false => exact .inl rfl
          | true => exact .inr (by simpa [hreq] using hirq)

/-- Settles O7: the recognition point runs the instruction, and decoding gives it. -/
theorem stepRunsTheDecodedInstruction : Obligations.StepRunsTheDecodedInstruction := by
  intro s i hh h hdec
  rw [step_of_runs hh h, hdec]
  rfl

/-- Settles O8: the fetch gives the encoding first (R61), and decoding what starts with an encoding gives the instruction (O1). -/
theorem stepExecutesTheInstructionStoredAtPc : Obligations.StepExecutesTheInstructionStoredAtPc := by
  intro s i hwf hh h hholds
  obtain ⟨hlen, -, hle⟩ := encode_length i
  obtain ⟨rest, hbytes⟩ := fetchBytes_prefix s.sampled.fetchView (encode i) s.sampled.pc Config.longestInstruction
    (hlen.trans_le hle) hholds
  have hdec : fetchDecode s.sampled = .instr i := by
    show decode (fetchBytes s.sampled.fetchView s.sampled.pc Config.longestInstruction) = _
    rw [hbytes]
    exact decodeOfEncodeIsTheInstruction i rest hwf
  exact stepRunsTheDecodedInstruction s i hh h hdec

/-! ### Bytes that are no instruction (R301, R321) -/

theorem bytesExist_two_iff (s : State) (a : Word) :
    BytesExist s a 2 ↔ s.exists? a = true ∧ s.exists? (a + 1) = true := by
  constructor
  · intro h
    exact ⟨by simpa using h 0 (by decide), h 1 (by decide)⟩
  · rintro ⟨h0, h1⟩ j hj
    obtain rfl | rfl : j = 0 ∨ j = 1 := by omega
    · simpa using h0
    · exact h1

/-- The fetch reaches the bytes after the word exactly where both bytes of the word exist (R61). -/
theorem fetchDecode_of_word {s : State} (h : BytesExist s s.pc 2) :
    ∃ rest, fetchDecode s = decode (byteAt s.fetchView s.pc :: byteAt s.fetchView (s.pc + 1) :: rest) := by
  obtain ⟨h0, h1⟩ := (bytesExist_two_iff s s.pc).1 h
  refine ⟨fetchBytes s.fetchView (s.pc + 1 + 1) 8, ?_⟩
  show decode (fetchBytes s.fetchView s.pc (8 + 1 + 1)) = _
  rw [fetchBytes, fetchBytes, State.fetchView_exists?, State.fetchView_exists?, if_pos h0, if_pos h1]
  rfl

theorem fetchDecode_of_missing_word {s : State} (h : ¬ BytesExist s s.pc 2) : fetchDecode s = .short := by
  rw [bytesExist_two_iff] at h
  show decode (fetchBytes s.fetchView s.pc (8 + 1 + 1)) = _
  rw [fetchBytes, fetchBytes, State.fetchView_exists?, State.fetchView_exists?]
  by_cases h0 : s.exists? s.pc = true
  · rw [if_pos h0, if_neg fun h1 => h ⟨h0, h1⟩]
    rfl
  · rw [if_neg h0]
    rfl

/-- Settles O9: each clause is what decoding gives at `pc`, run. -/
theorem stepOnBytesThatAreNoInstruction : Obligations.StepOnBytesThatAreNoInstruction := by
  intro s hh h
  rw [step_of_runs hh h]
  have hshort : fetchDecode s.sampled = .short →
      runDecoded s.sampled (fetchDecode s.sampled) = .next (trapEntry .illegalAddress s.pc s.sampled) := by
    intro hdec
    rw [hdec]
    rfl
  refine ⟨fun hex hres => ?_, fun hmissing => hshort (fetchDecode_of_missing_word hmissing), hshort, fun hdec => ?_, fun hdec => ?_⟩
  · obtain ⟨rest, hdec⟩ := fetchDecode_of_word (s := s.sampled) hex
    rw [hdec, State.sampled_pc, (illegalExactlyOnReservedFields _ _ rest).2 hres]
    rfl
  · rw [hdec]
    rfl
  · rw [hdec]
    rfl

/-! ### Everything a step can do -/

/-- Every step ends in a trap entry from a state with the registers but `pc`, the flags and the memory of the recognition point, or
in a state it evolves to. -/
theorem step_inversion {s t : State} (h : step s = .next t) :
    s.halted = false ∧ ((∃ cause retpc u, SameButPc s.sampled u ∧ t = trapEntry cause retpc u) ∨ Evolves s.sampled t) := by
  cases hh : s.halted with
  | true =>
    rw [step, if_pos hh] at h
    cases h
  | false =>
    refine ⟨rfl, ?_⟩
    by_cases hrun : runsInstruction s
    · rw [step_of_runs hh hrun] at h
      cases hdec : fetchDecode s.sampled with
      | instr i =>
        rw [hdec] at h
        have hran := exec_ran i s.sampled
        rw [show exec i s.sampled = .next t from h] at hran
        cases hran with
        | completed _ hev _ => exact .inr hev
        | trapped cause retpc u hu => exact .inl ⟨cause, retpc, u, hu, rfl⟩
      | illegal | short =>
        rw [hdec] at h
        cases h
        exact .inl ⟨_, _, _, .refl s.sampled, rfl⟩
      | unspecifiedWord | unspecifiedSelector =>
        rw [hdec] at h
        cases h
    · rcases step_of_not_runs hh hrun with ⟨cause, e⟩ | ⟨b, e⟩
      · cases e.symm.trans h
        exact .inl ⟨cause, _, _, .refl s.sampled, rfl⟩
      · cases e.symm.trans h
        exact .inr (.setSleeping s.sampled b)

/-! ### Memory along a step (R57, R58; log 3, log 4) -/

/-- The part of `Evolves` that a recognition point and a halt keep as well. -/
structure KeepsMemory (s t : State) : Prop where
  present : t.present = s.present
  wf : s.mem.wf = true → t.mem.wf = true
  backed : (∀ c ∈ s.mem, s.exists? (BitVec.ofNat 32 c.1) = true) → ∀ c ∈ t.mem, s.exists? (BitVec.ofNat 32 c.1) = true
  missing : ∀ x : Word, s.exists? x = false → t.mem.read x.toNat = s.mem.read x.toNat

theorem KeepsMemory.of_evolves {s t : State} (h : Evolves s t) : KeepsMemory s t := ⟨h.present, h.wf, h.backed, h.missing⟩

theorem KeepsMemory.trans {s t u : State} (h : KeepsMemory s t) (g : KeepsMemory t u) : KeepsMemory s u where
  present := g.present.trans h.present
  wf := fun w => g.wf (h.wf w)
  backed := fun b c hc =>
    (State.exists?_congr h.present _).symm.trans (g.backed (fun d hd => (State.exists?_congr h.present _).trans (h.backed b d hd)) c hc)
  missing := fun x hx => (g.missing x ((State.exists?_congr h.present x).trans hx)).trans (h.missing x hx)

theorem KeepsMemory.sampled (s : State) : KeepsMemory s s.sampled :=
  have h := sampled_evolves s
  ⟨rfl, h.wf, h.backed, h.missing⟩

theorem KeepsMemory.halt (s : State) : KeepsMemory s s.halt := ⟨rfl, id, id, fun _ _ => rfl⟩

theorem KeepsMemory.trapEntry (cause : Cause) (retpc : Word) (s : State) : KeepsMemory s (trapEntry cause retpc s) := by
  rcases trapEntry_cases cause retpc s with ⟨t, ht, e⟩ | ⟨-, e⟩
  · exact e ▸ .of_evolves (enterTrap_evolves ht)
  · exact e ▸ .halt s

theorem step_keepsMemory {s t : State} (h : step s = .next t) : KeepsMemory s t := by
  obtain ⟨-, ⟨cause, retpc, u, hu, rfl⟩ | hev⟩ := step_inversion h
  · exact (KeepsMemory.sampled s).trans ((KeepsMemory.of_evolves hu.evolves).trans (.trapEntry cause retpc u))
  · exact (KeepsMemory.sampled s).trans (.of_evolves hev)

theorem memInv_iff (s : State) :
    MemInv s = true ↔ s.mem.wf = true ∧ ∀ c ∈ s.mem, s.exists? (BitVec.ofNat 32 c.1) = true := by
  rw [MemInv, Bool.and_eq_true, List.all_eq_true]

/-- Settles O57: memory along a step keeps the canonical form, and its entries lie where bytes exist, which no step changes. -/
theorem stepKeepsMemoryCanonicalAndBacked : Obligations.StepKeepsMemoryCanonicalAndBacked := by
  intro s t hinv h
  have hkeep := step_keepsMemory h
  rw [memInv_iff] at hinv ⊢
  obtain ⟨hwf, hbacked⟩ := hinv
  exact ⟨hkeep.wf hwf, fun c hc => (State.exists?_congr hkeep.present _).trans (hkeep.backed hbacked c hc)⟩

/-- Settles O59: memory along a step changes only at bytes that exist. -/
theorem stepNeverChangesMissingBytes : Obligations.StepNeverChangesMissingBytes := by
  intro s t h
  have hkeep := step_keepsMemory h
  exact ⟨hkeep.present, hkeep.missing⟩

/-- Settles O58: the reset state lists nothing in memory, in canonical form. -/
theorem resetHasTheInvariant : Obligations.ResetHasTheInvariant :=
  (memInv_iff State.reset).2 ⟨reset_wf, fun _ hc => absurd hc List.not_mem_nil⟩

/-! ### Halting (R324) -/

theorem trapReady_of_sameButPc {s u : State} (h : SameButPc s u) (cause : Cause) : TrapReady cause u ↔ TrapReady cause s := by
  have hsp : u.sp = s.sp := h.regs .sp (by decide)
  rw [TrapReady, TrapReady, hsp, bytesExist_congr h.present, bytesExist_congr h.present]

/-- Every vector lies in the table of the first 32 bytes (R59). -/
theorem vector_exists {s : State} (h : BytesExist s 0 32) (cause : Cause) : BytesExist s (vectorAddress cause) 4 := by
  have hpart (o : Nat) (ho : o + 4 ≤ 32) : BytesExist s (BitVec.ofNat 32 o) 4 := by
    simpa using bytesExist_mono h o 4 ho
  cases cause with
  | illegalInstruction => exact hpart 0x08 (by decide)
  | illegalAddress => exact hpart 0x0C (by decide)
  | divisionByZero => exact hpart 0x10 (by decide)
  | irq => exact hpart 0x14 (by decide)
  | softwareIrq => exact hpart 0x18 (by decide)
  | nmi => exact hpart 0x1C (by decide)

/-- Settles O60: a step that does not end in a trap entry keeps `halted`, and a trap entry sets it exactly where it is not ready. -/
theorem coreHaltsOnlyInAFailedTrapEntry : Obligations.CoreHaltsOnlyInAFailedTrapEntry := by
  intro s t h
  obtain ⟨hs, ⟨cause, retpc, u, hu, rfl⟩ | hev⟩ := step_inversion h
  · have hhalt : u.halted = false := hu.halted.trans hs
    refine ⟨fun ht => ⟨cause, retpc, u, rfl, (trapEntry_halted hhalt).1 ht, hu.regs, hu.p, hu.present⟩, fun hstack hvectors => ?_⟩
    have hready : TrapReady cause u := (trapReady_of_sameButPc hu cause).2 ⟨hstack, vector_exists hvectors cause⟩
    exact Bool.eq_false_iff.2 fun ht => (trapEntry_halted hhalt).1 ht hready
  · have ht : t.halted = false := hev.halted.trans hs
    exact ⟨fun ht' => absurd (ht.symm.trans ht') (by decide), fun _ _ => ht⟩

/-! ### Flags along a step (R26, R150, R312, R322) -/

/-- A step that runs no instruction, or meets bytes that are none, changes no flag. -/
theorem step_keeps_flags {s t : State} (h : step s = .next t)
    (hno : ¬ runsInstruction s ∨ ∀ i, fetchDecode s.sampled ≠ .instr i) : t.p = s.p := by
  obtain ⟨hh, -⟩ := step_inversion h
  by_cases hrun : runsInstruction s
  · have hno := hno.resolve_left fun hn => hn hrun
    rw [step_of_runs hh hrun] at h
    cases hdec : fetchDecode s.sampled with
    | instr i => exact absurd hdec (hno i)
    | illegal | short =>
      rw [hdec] at h
      cases h
      exact trapEntry_status _ _ _
    | unspecifiedWord | unspecifiedSelector =>
      rw [hdec] at h
      cases h
  · rcases step_of_not_runs hh hrun with ⟨cause, e⟩ | ⟨b, e⟩
    · cases e.symm.trans h
      exact trapEntry_status _ _ _
    · cases e.symm.trans h
      rfl

theorem Ran.keepsFlags {w : Status} {s t : State} (h : Ran w s (.next t)) : KeepsFlagsBut w s.p t.p := by
  cases h with
  | completed _ _ hp => exact hp
  | trapped cause retpc u hu => exact keepsFlagsBut_of_eq ((trapEntry_status cause retpc u).trans hu.p)

/-- Settles O31: `exec_ran` holds every instruction to its row, and no trap entry changes a flag. -/
theorem flagsChangeOnlyByTheirInstructions : Obligations.FlagsChangeOnlyByTheirInstructions := by
  intro s t h
  refine ⟨fun hno => step_keeps_flags h (.inl hno), fun hno => step_keeps_flags h (.inr hno), fun i hrun hdec => ?_⟩
  obtain ⟨hh, -⟩ := step_inversion h
  have hexec : exec i s.sampled = .next t := (stepRunsTheDecodedInstruction s i hh hrun hdec).symm.trans h
  have hkeep := (hexec ▸ exec_ran i s.sampled).keepsFlags
  refine ⟨hkeep.i, hkeep.v, hkeep.c, hkeep.n, hkeep.z, fun cause hraise => ?_, fun sz k a rest hi hcalls hmissing => ?_⟩
  · cases hraise.symm.trans hexec
    exact trapEntry_status _ _ _
  · subst hi
    rcases execSys_cases sz k s.sampled with ⟨hnil, -⟩ | ⟨b, tail, hcons, hready, -⟩ | ⟨b, tail, -, -, e⟩
    · cases hcalls.symm.trans hnil
    · cases hcalls.symm.trans hcons
      exact absurd hready hmissing
    · cases e.symm.trans hexec
      exact trapEntry_status _ _ _

end Sys2Proof.Proofs

namespace Sys2Proof.Proofs

open Sys2Proof.Machine Sys2Proof.Claims

/-! ### Requests (R312, R313, R315, R335) -/

theorem step_of_nmi {s : State} (hh : s.halted = false) (h : s.request.nmi = true) :
    step s = .next (trapEntry .nmi s.pc s.sampled) := by
  rw [step, hh, recognise, h]
  rfl

theorem step_of_irq {s : State} (hh : s.halted = false) (hnmi : s.request.nmi = false) (hirq : s.request.irq = true)
    (hi : s.p.i = false) : step s = .next (trapEntry .irq s.pc s.sampled) := by
  rw [step, hh, recognise, hnmi, hirq, State.sampled_p, hi]
  rfl

/-- Asleep, with no interrupt taken, the core wakes exactly where a masked IRQ is requested (R335). -/
theorem step_of_sleeping {s : State} (hh : s.halted = false) (hsleep : s.sleeping = true) (hnmi : s.request.nmi = false)
    (hirq : s.request.irq = false ∨ s.p.i = true) : step s = .next (s.sampled.setSleeping (!s.request.irq)) := by
  have hmasked : (s.request.irq && !s.p.i) = false := by
    obtain h | h := hirq <;> simp [h]
  rw [step, hh, recognise, hnmi, State.sampled_p, hmasked, State.sampled_sleeping, hsleep]
  rfl

/-- Settles O52: NMI first, then an IRQ that is not masked; a masked one leaves an awake core to the same instruction. -/
theorem requestsAreTakenBetweenInstructions : Obligations.RequestsAreTakenBetweenInstructions := by
  intro s hh
  refine ⟨step_of_nmi hh, step_of_irq hh, fun hnmi _ hi hawake => ?_⟩
  have hquiet : step { s with requests := { s.request with irq := false } :: s.requests.tail }
      = runDecoded s.sampled (fetchDecode s.sampled) :=
    step_of_runs (s := { s with requests := { s.request with irq := false } :: s.requests.tail }) hh ⟨hawake, hnmi, .inl rfl⟩
  rw [step_of_runs hh ⟨hawake, hnmi, .inr hi⟩, hquiet]

/-- Settles O53: the two answers of a sleeping core are one lemma; what a recognition point changes is said by the laws of
`State.sampled`. -/
theorem sleepingCoreWaitsForARequest : Obligations.SleepingCoreWaitsForARequest := by
  refine ⟨fun s hh hsleep hnmi => ⟨fun hirq => ?_, fun hirq hi => ?_⟩, fun s => ?_⟩
  · rw [step_of_sleeping hh hsleep hnmi (.inl hirq), hirq]
    show Host.Outcome.next { s.sampled with sleeping := true } = .next s.sampled
    rw [← hsleep]
    rfl
  · rw [step_of_sleeping hh hsleep hnmi (.inr hi), hirq]
    rfl
  · exact ⟨fun _ _ => rfl, rfl, rfl, rfl, rfl, rfl, rfl, rfl, rfl, fun x =>
      ⟨byteAt_sampled s x, byteAt_withDraws s s.fetchDraws x, byteAt_withDraws s s.vectorDraws x⟩⟩

/-! ### System calls (R284) -/

theorem length_sys (sz : Size) (k : Word) : (Instr.sys sz k).length = 2 + sz.bytes := by
  cases sz <;> rfl

/-- Settles O54: the three cases of SYS, and the bytes its stores leave. -/
theorem sysDoesWhatThePlatformAnswers : Obligations.SysDoesWhatThePlatformAnswers := by
  intro sz k s
  rcases execSys_cases sz k s with ⟨hcalls, e⟩ | ⟨b, tail, hcalls, hready, e⟩ | ⟨b, tail, hcalls, hmissing, e⟩ <;>
    simp only [hcalls, List.cons.injEq, reduceCtorEq, false_implies, implies_true, and_true, true_and]
  · exact fun _ => e
  · refine ⟨?_, ?_⟩
    · rintro a rest ⟨rfl, rfl⟩ -
      exact ⟨_, e, rfl, rfl, rfl, rfl, rfl, rfl, rfl, rfl, rfl, fun x => Memory.read_writeWhere (fun _ => true) s.mem b.stores x⟩
    · rintro a rest ⟨rfl, rfl⟩ hno
      exact absurd hready hno
  · refine ⟨?_, ?_⟩
    · rintro a rest ⟨rfl, rfl⟩ hyes
      exact absurd hyes hmissing
    · rintro a rest ⟨rfl, rfl⟩ -
      exact length_sys sz k ▸ e

/-! ### Control instructions -/

@[simp] theorem setPc_setPc (s : State) (v w : Word) : (s.setPc v).setPc w = s.setPc w := rfl

/-- Settles O35: JMP overwrites the `pc` it sees; NOP and SLP have the implied shape. -/
theorem jmpNopAndSlpComplete : Obligations.JmpNopAndSlpComplete := by
  intro s addr
  have hnop : advance Instr.nop.length s = s.setPc (s.pc + 2) := advance_length_of_implied (i := .nop) rfl s
  have hslp : advance Instr.slp.length s = s.setPc (s.pc + 2) := advance_length_of_implied (i := .slp) rfl s
  refine ⟨?_, ?_, ?_⟩
  · show Host.Outcome.next ((advance (Instr.jmp addr).length s).setPc addr) = _
    rw [advance, setPc_setPc]
  · show Host.Outcome.next (advance Instr.nop.length s) = _
    rw [hnop]
  · show Host.Outcome.next ((advance Instr.slp.length s).setSleeping true) = _
    rw [hslp]

/-- A branch is its word and one field of the operand size (R91, R94). -/
theorem length_of_branch {i : Instr} {sz : Size} {d : Word} (h : i.shape = .branch sz d) : i.length = 2 + sz.bytes := by
  rw [Instr.length, Instr.head, h]
  cases sz <;> rfl

/-- The common rule of the branches as a whole step of `pc` (R233), its condition in the claims' words. -/
theorem execute_branchIf {i : Instr} {sz : Size} {d : Word} (h : i.shape = .branch sz d) {cond holds : Status → Bool}
    (hcond : ∀ p, cond p = holds p) (s : State) :
    execute i.length (fun a => .ok (branchIf cond sz d a)) s = .next (s.setPc
      (if holds s.p then s.pc + BitVec.ofNat 32 (2 + sz.bytes) + BitVec.ofInt 32 (d.setWidth sz.bits).toInt
       else s.pc + BitVec.ofNat 32 (2 + sz.bytes))) := by
  rw [execute_total i.length (branchIf cond sz d), branchIf_pc, length_of_branch h, advance_p, advance_pc, advance, setPc_setPc,
    hcond]

theorem condLt_eq (p : Status) : condLt p = decide (p.n ≠ p.v) := by
  obtain ⟨i, v, c, n, z⟩ := p
  revert i v c n z
  decide

theorem condGt_eq (p : Status) : condGt p = decide (p.z = false ∧ p.n = p.v) := by
  obtain ⟨i, v, c, n, z⟩ := p
  revert i v c n z
  decide

theorem condLe_eq (p : Status) : condLe p = decide (p.z = true ∨ p.n ≠ p.v) := by
  obtain ⟨i, v, c, n, z⟩ := p
  revert i v c n z
  decide

theorem condGe_eq (p : Status) : condGe p = decide (p.n = p.v) := by
  obtain ⟨i, v, c, n, z⟩ := p
  revert i v c n z
  decide

/-- Settles O36: one rule for all thirteen; only the four signed conditions are written otherwise than in the claims. -/
theorem branchesComplete : Obligations.BranchesComplete := by
  intro bc hbc sz d s
  simp only [branchInstrs, List.mem_cons, List.not_mem_nil, or_false] at hbc
  obtain rfl | rfl | rfl | rfl | rfl | rfl | rfl | rfl | rfl | rfl | rfl | rfl | rfl := hbc
  · exact execute_branchIf (i := .bra sz d) rfl (cond := condAlways) (fun _ => rfl) s
  · exact execute_branchIf (i := .beq sz d) rfl (cond := condEq) (fun _ => rfl) s
  · exact execute_branchIf (i := .bne sz d) rfl (cond := condNe) (fun _ => rfl) s
  · exact execute_branchIf (i := .bcc sz d) rfl (cond := condCc) (fun _ => rfl) s
  · exact execute_branchIf (i := .bcs sz d) rfl (cond := condCs) (fun _ => rfl) s
  · exact execute_branchIf (i := .bpl sz d) rfl (cond := condPl) (fun _ => rfl) s
  · exact execute_branchIf (i := .bmi sz d) rfl (cond := condMi) (fun _ => rfl) s
  · exact execute_branchIf (i := .bvc sz d) rfl (cond := condVc) (fun _ => rfl) s
  · exact execute_branchIf (i := .bvs sz d) rfl (cond := condVs) (fun _ => rfl) s
  · exact execute_branchIf (i := .blt sz d) rfl condLt_eq s
  · exact execute_branchIf (i := .bgt sz d) rfl condGt_eq s
  · exact execute_branchIf (i := .ble sz d) rfl condLe_eq s
  · exact execute_branchIf (i := .bge sz d) rfl condGe_eq s

/-! ### BRK and the reset state -/

/-- Settles O49: BRK is the entry itself, from the state with `pc` past it, where the frame and the vector are the same. -/
theorem brkEntersTheSoftwareInterrupt : Obligations.BrkEntersTheSoftwareInterrupt := by
  intro s h
  have hadvance : advance Instr.brk.length s = s.setPc (s.pc + 2) := advance_length_of_implied (i := .brk) rfl s
  refine ⟨_, rfl, ?_⟩
  rw [hadvance]
  exact trapEntryPushesTheFrame .softwareIrq (s.pc + 2) (s.setPc (s.pc + 2))
    ((trapReady_of_sameButPc (hadvance ▸ SameButPc.advance Instr.brk.length s) .softwareIrq).2 h)

/-- Settles O56: both vectors exist and hold 0, the values the reset state names for `pc` and `SP`. -/
theorem resetStateIsWhatTheResetSequenceLeaves : Obligations.ResetStateIsWhatTheResetSequenceLeaves := by
  have hvectors : BytesExist State.reset 0 8 := by decide
  refine ⟨?_, rfl, rfl⟩
  rw [resetSequence_of_exists hvectors]
  rfl

end Sys2Proof.Proofs

namespace Sys2Proof.Proofs

open Sys2Proof.Machine Sys2Proof.Claims

/-! ### Data instructions in every form (R140, R142, R143) -/

/-- The instruction is the two-operand template with this use of the destination and this operation. -/
def RunsTwo (make : Size → TwoOp → Instr) (use : DstUse) (alu : Alu) : Prop :=
  ∀ (sz : Size) (o : TwoOp) (s : State), exec (make sz o) s = execute (make sz o).length (runTwo sz o use alu) s

/-- The instruction is the one-operand template with this use of the destination and this operation. -/
def RunsOne (make : Size → OneOp → Instr) (use : DstUse) (alu : Alu) : Prop :=
  ∀ (sz : Size) (o : OneOp) (s : State), exec (make sz o) s = execute (make sz o).length (runOne sz o use alu) s

@[simp] theorem operandState_p (len : Nat) (sz : Size) (ptr : Option (Reg × Modifier)) (s : State) :
    (operandState len sz ptr s).p = s.p := by
  rw [operandState, preDecrement_p, advance_p]

@[simp] theorem operandState_mem (len : Nat) (sz : Size) (ptr : Option (Reg × Modifier)) (s : State) :
    (operandState len sz ptr s).mem = s.mem := by
  rw [operandState, preDecrement_mem, advance_mem]

@[simp] theorem operandState_present (len : Nat) (sz : Size) (ptr : Option (Reg × Modifier)) (s : State) :
    (operandState len sz ptr s).present = s.present := by
  rw [operandState, preDecrement_present, advance_present]

theorem operandState_rest (len : Nat) (sz : Size) (ptr : Option (Reg × Modifier)) (s : State) :
    SameRest s (operandState len sz ptr s) :=
  preDecrement_rest sz ptr (advance len s)

section Two

variable {make : Size → TwoOp → Instr} {guard : (sz : Size) → BitVec sz.bits → Prop}
  {f : (sz : Size) → BitVec sz.bits → BitVec sz.bits → Status → BitVec sz.bits × Status} {alu : Alu}

/-- An instruction that reads and writes its destination leaves what its operation gives. -/
theorem twoComputes_of_modify (hrun : RunsTwo make .modify alu)
    (halu : ∀ (sz : Size) (a b : BitVec sz.bits) (p : Status), guard sz b → alu sz.bits a b p = .ok (f sz a b p)) :
    TwoComputes make guard f := by
  intro sz o s hready hguard
  obtain ⟨hsrc, hdst⟩ := (Bool.and_eq_true _ _).mp hready
  have hval := halu sz (twoDst make sz o s) (twoSrc make sz o s) (twoState make sz o s).p hguard
  obtain ⟨t, ht, hleft⟩ := runPlaces_modify (ptr := o.pointer) hsrc hdst hval
  rw [twoState, operandState_p] at hleft
  exact ⟨t, (hrun sz o s).trans (execute_of_ok ht), hleft⟩

/-- An instruction that writes its destination unread leaves what its operation gives, which does not look at the old value. -/
theorem twoComputes_of_write (hrun : RunsTwo make .write alu)
    (halu : ∀ (sz : Size) (a b : BitVec sz.bits) (p : Status), guard sz b → alu sz.bits 0 b p = .ok (f sz a b p)) :
    TwoComputes make guard f := by
  intro sz o s hready hguard
  obtain ⟨hsrc, hdst⟩ := (Bool.and_eq_true _ _).mp hready
  have hval := halu sz (twoDst make sz o s) (twoSrc make sz o s) (twoState make sz o s).p hguard
  obtain ⟨t, ht, hleft⟩ := runPlaces_write (ptr := o.pointer) hsrc hdst hval
  rw [twoState, operandState_p] at hleft
  exact ⟨t, (hrun sz o s).trans (execute_of_ok ht), hleft⟩

end Two

section One

variable {make : Size → OneOp → Instr} {f : (sz : Size) → BitVec sz.bits → BitVec sz.bits} {alu : Alu}

theorem oneComputes_of_modify (hrun : RunsOne make .modify alu)
    (halu : ∀ (sz : Size) (a b : BitVec sz.bits) (p : Status), alu sz.bits a b p = .ok (f sz a, nzFlags p (f sz a))) :
    OneComputes make f := by
  intro sz o s hready
  have hval := halu sz (oneValue make sz o s) (placeValue (oneState make sz o s) sz (.const 0)) (oneState make sz o s).p
  obtain ⟨t, ht, hleft⟩ := runPlaces_modify (ptr := o.pointer) (src := .const 0) rfl hready hval
  rw [oneState, operandState_p] at hleft
  exact ⟨t, (hrun sz o s).trans (execute_of_ok ht), hleft⟩

theorem oneComputes_of_write (hrun : RunsOne make .write alu)
    (halu : ∀ (sz : Size) (a b : BitVec sz.bits) (p : Status), alu sz.bits 0 b p = .ok (f sz a, nzFlags p (f sz a))) :
    OneComputes make f := by
  intro sz o s hready
  have hval := halu sz (oneValue make sz o s) (placeValue (oneState make sz o s) sz (.const 0)) (oneState make sz o s).p
  obtain ⟨t, ht, hleft⟩ := runPlaces_write (ptr := o.pointer) (src := .const 0) rfl hready hval
  rw [oneState, operandState_p] at hleft
  exact ⟨t, (hrun sz o s).trans (execute_of_ok ht), hleft⟩

end One

theorem nzResult_eq {n : Nat} (p : Status) (r : BitVec n) : nzResult p r = .ok (r, nzFlags p r) := by
  rw [nzResult, setNZ_eq]

/-- Settles O15: MOV writes its source unread. -/
theorem movCompletes : Obligations.MovCompletes :=
  twoComputes_of_write (alu := aluMov) (fun _ _ _ => rfl) fun _ _ b p _ => nzResult_eq p b

theorem ofInt_sub (n : Nat) (x y : Int) : BitVec.ofInt n (x - y) = BitVec.ofInt n x - BitVec.ofInt n y := by
  rw [Int.sub_eq_add_neg, BitVec.ofInt_add, BitVec.ofInt_neg, BitVec.sub_eq_add_neg]

/-- Settles O19: CLR writes 0 unread; INC and DEC are the additions modulo `2^n`. -/
theorem clrIncAndDecComplete : Obligations.ClrIncAndDecComplete := by
  refine ⟨oneComputes_of_write (alu := aluClr) (fun _ _ _ => rfl) fun sz _ _ p => nzResult_eq p 0#sz.bits,
    oneComputes_of_modify (alu := aluInc) (fun _ _ _ => rfl) fun sz a _ p => ?_,
    oneComputes_of_modify (alu := aluDec) (fun _ _ _ => rfl) fun sz a _ p => ?_⟩
  · have hinc : BitVec.ofNat sz.bits (a.toNat + 1) = a + 1 := by
      rw [BitVec.ofNat_add, BitVec.ofNat_toNat, BitVec.setWidth_eq]
      rfl
    rw [hinc]
    exact nzResult_eq p (a + 1)
  · have hdec : BitVec.ofInt sz.bits (a.toNat - 1) = a - 1 := by
      rw [ofInt_sub, BitVec.ofInt_natCast, BitVec.ofNat_toNat, BitVec.setWidth_eq]
      rfl
    rw [hdec]
    exact nzResult_eq p (a - 1)

/-! ### Multiplication, division and logic -/

theorem ofNat_mul_toNat {n : Nat} (a b : BitVec n) : BitVec.ofNat n (a.toNat * b.toNat) = a * b := by
  apply BitVec.eq_of_toNat_eq
  rw [BitVec.toNat_ofNat, BitVec.toNat_mul]

/-- Settles O20: both products are the one product of bit vectors. -/
theorem mulCompletes : Obligations.MulCompletes := by
  refine ⟨twoComputes_of_modify (alu := aluMul) (fun _ _ _ => rfl) fun sz a b p _ => ?_, fun n a b => ?_⟩
  · rw [ofNat_mul_toNat]
    exact nzResult_eq p (a * b)
  · rw [ofNat_mul_toNat, BitVec.ofInt_mul, BitVec.ofInt_toInt, BitVec.ofInt_toInt]

theorem toNat_eq_zero_iff {n : Nat} (b : BitVec n) : b.toNat = 0 ↔ b = 0 :=
  (BitVec.toNat_eq (y := 0)).symm

/-- Settles O21: a divisor that is not 0 takes the first case of `aluDiv_cases`. -/
theorem divCompletes : Obligations.DivCompletes := by
  refine twoComputes_of_modify (alu := aluDiv) (fun _ _ _ => rfl) fun sz a b p hb => ?_
  rcases aluDiv_cases a b p with ⟨-, e⟩ | ⟨hzero, -⟩
  · rw [e, setNZ_eq]
    rfl
  · exact absurd ((toNat_eq_zero_iff b).2 hzero) hb

theorem ofNat_and {n : Nat} (a b : BitVec n) : BitVec.ofNat n (a.toNat &&& b.toNat) = a &&& b := by
  rw [← BitVec.toNat_and, BitVec.ofNat_toNat, BitVec.setWidth_eq]

theorem ofNat_or {n : Nat} (a b : BitVec n) : BitVec.ofNat n (a.toNat ||| b.toNat) = a ||| b := by
  rw [← BitVec.toNat_or, BitVec.ofNat_toNat, BitVec.setWidth_eq]

theorem ofNat_xor {n : Nat} (a b : BitVec n) : BitVec.ofNat n (a.toNat ^^^ b.toNat) = a ^^^ b := by
  rw [← BitVec.toNat_xor, BitVec.ofNat_toNat, BitVec.setWidth_eq]

/-- Settles O25: each operation on the values is the one on the bits. -/
theorem logicCompletes : Obligations.LogicCompletes := by
  refine ⟨twoComputes_of_modify (alu := aluAnd) (fun _ _ _ => rfl) fun sz a b p _ => ?_,
    twoComputes_of_modify (alu := aluOr) (fun _ _ _ => rfl) fun sz a b p _ => ?_,
    twoComputes_of_modify (alu := aluXor) (fun _ _ _ => rfl) fun sz a b p _ => ?_⟩
  · rw [ofNat_and]
    exact nzResult_eq p (a &&& b)
  · rw [ofNat_or]
    exact nzResult_eq p (a ||| b)
  · rw [ofNat_xor]
    exact nzResult_eq p (a ^^^ b)

/-! ### Exceptions of a data instruction (R144, R304, R316) -/

/-- An operation that raises, with both operands existing. -/
theorem runPlaces_raises {sz : Size} {ptr : Option (Reg × Modifier)} {src dst : Place} {alu : Alu} {s : State} {cause : Cause}
    (hs : placeReady s sz src = true) (hd : placeReady s sz dst = true)
    (ha : alu sz.bits (placeValue s sz dst) (placeValue s sz src) s.p = .error cause) :
    runPlaces sz ptr src dst .modify alu s = .error cause := by
  rw [runPlaces, readPlace_eq, readDst_eq, hs, hd]
  simp only [if_true, bind, Except.bind, reduceCtorEq, if_false, ha]

/-- Settles O22: both operands are read, and the operation raises. -/
theorem divByZeroTraps : Obligations.DivByZeroTraps := by
  intro sz o s hready hzero
  obtain ⟨hsrc, hdst⟩ := (Bool.and_eq_true _ _).mp hready
  have halu : aluDiv sz.bits (twoDst .div sz o s) (twoSrc .div sz o s) (twoState .div sz o s).p = .error .divisionByZero := by
    rw [aluDiv, if_pos ((toNat_eq_zero_iff _).1 hzero)]
  exact execute_of_error (runPlaces_raises (ptr := o.pointer) hsrc hdst halu)

/-- Every two-operand instruction is the template; the one that writes its destination unread has an operation that never raises. -/
theorem runsTwo_of_mem {make : Size → TwoOp → Instr} (h : make ∈ twoOperandInstrs) :
    ∃ use alu, RunsTwo make use alu ∧ (use = .write → ∀ n b p, ∃ r, alu n 0 b p = .ok r) := by
  simp only [twoOperandInstrs, List.mem_cons, List.not_mem_nil, or_false] at h
  obtain rfl | rfl | rfl | rfl | rfl | rfl | rfl | rfl | rfl | rfl | rfl | rfl | rfl | rfl | rfl := h
  · exact ⟨_, aluMov, fun _ _ _ => rfl, fun _ _ b p => ⟨_, nzResult_eq p b⟩⟩
  · exact ⟨_, aluAdd, fun _ _ _ => rfl, nofun⟩
  · exact ⟨_, aluSub, fun _ _ _ => rfl, nofun⟩
  · exact ⟨_, aluAdc, fun _ _ _ => rfl, nofun⟩
  · exact ⟨_, aluSbc, fun _ _ _ => rfl, nofun⟩
  · exact ⟨_, aluMul, fun _ _ _ => rfl, nofun⟩
  · exact ⟨_, aluDiv, fun _ _ _ => rfl, nofun⟩
  · exact ⟨_, aluAnd, fun _ _ _ => rfl, nofun⟩
  · exact ⟨_, aluOr, fun _ _ _ => rfl, nofun⟩
  · exact ⟨_, aluXor, fun _ _ _ => rfl, nofun⟩
  · exact ⟨_, aluShl, fun _ _ _ => rfl, nofun⟩
  · exact ⟨_, aluShr, fun _ _ _ => rfl, nofun⟩
  · exact ⟨_, aluRol, fun _ _ _ => rfl, nofun⟩
  · exact ⟨_, aluRor, fun _ _ _ => rfl, nofun⟩
  · exact ⟨_, aluCmp, fun _ _ _ => rfl, nofun⟩

theorem runsOne_of_mem {make : Size → OneOp → Instr} (h : make ∈ oneOperandInstrs) :
    ∃ use alu, RunsOne make use alu ∧ (use = .write → ∀ n b p, ∃ r, alu n 0 b p = .ok r) := by
  simp only [oneOperandInstrs, List.mem_cons, List.not_mem_nil, or_false] at h
  obtain rfl | rfl | rfl := h
  · exact ⟨_, aluClr, fun _ _ _ => rfl, fun _ n _ p => ⟨_, nzResult_eq p 0⟩⟩
  · exact ⟨_, aluInc, fun _ _ _ => rfl, nofun⟩
  · exact ⟨_, aluDec, fun _ _ _ => rfl, nofun⟩

/-- Settles O32: in the one template, a missing byte is met before any effect, whatever the operation would have raised. -/
theorem missingOperandRaisesIllegalAddress : Obligations.MissingOperandRaisesIllegalAddress := by
  refine ⟨fun make hmake sz o s hmissing => ?_, fun make hmake sz o s hmissing => ?_⟩
  · obtain ⟨use, alu, hrun, hwrite⟩ := runsTwo_of_mem hmake
    exact (hrun sz o s).trans (execute_of_error (runPlaces_missing (ptr := o.pointer) hmissing fun hu => hwrite hu _ _ _))
  · obtain ⟨use, alu, hrun, hwrite⟩ := runsOne_of_mem hmake
    exact (hrun sz o s).trans
      (execute_of_error (runPlaces_missing (ptr := o.pointer) (src := .const 0) hmissing fun hu => hwrite hu _ _ _))

end Sys2Proof.Proofs

namespace Sys2Proof.Proofs

open Sys2Proof.Machine Sys2Proof.Claims

/-! ### Sums and differences (R146, R147) -/

/-- The signed value of an `m + 1`-bit number from its unsigned value, with the sign at `2^m`. -/
theorem toInt_of_half {m N : Nat} (hN : 2 ^ m = N) (x : BitVec (m + 1)) :
    x.toInt = if x.toNat < N then (x.toNat : Int) else x.toNat - 2 * N := by
  rw [BitVec.toInt_eq_toNat_cond, pow_succ', hN]
  split <;> split <;> omega

theorem msb_of_half {m N : Nat} (hN : 2 ^ m = N) (x : BitVec (m + 1)) : x.msb = decide (N ≤ x.toNat) := by
  rw [BitVec.msb_eq_decide, Nat.add_sub_cancel, hN]

theorem toNat_lt_of_half {m N : Nat} (hN : 2 ^ m = N) (x : BitVec (m + 1)) : x.toNat < 2 * N := by
  have := x.isLt
  rwa [pow_succ', hN] at this

theorem outOfRange_of_half {m N : Nat} (hN : 2 ^ m = N) (v : Int) :
    outOfRange (m + 1) v = true ↔ v < -(N : Int) ∨ (N : Int) ≤ v := by
  have hcast : (2 : Int) ^ m = N := by
    rw [← hN]
    push_cast
    rfl
  rw [outOfRange, Nat.add_sub_cancel, hcast, Bool.or_eq_true, decide_eq_true_iff, decide_eq_true_iff]

/-- A sum of two `m + 1`-bit numbers and a carry, cut to its width. -/
theorem ofNat_toNat_of_half {m N k : Nat} (hN : 2 ^ m = N) (hk : k < 4 * N) :
    (BitVec.ofNat (m + 1) k).toNat = if k < 2 * N then k else k - 2 * N := by
  rw [BitVec.toNat_ofNat, pow_succ', hN]
  split
  · rename_i h
    exact Nat.mod_eq_of_lt h
  · rw [Nat.mod_eq_sub_mod (by omega), Nat.mod_eq_of_lt (by omega)]

/-- `V` of an addition: equal signs and a result of the other sign are the signed sum out of range (R146). -/
theorem addC_overflow {n : Nat} (hn : 0 < n) (a b : BitVec n) (cin : Bool) :
    (addC a b cin).overflow = outOfRange n (a.toInt + b.toInt + cin.toNat) := by
  obtain ⟨m, rfl⟩ := Nat.exists_eq_succ_of_ne_zero hn.ne'
  obtain ⟨N, hN⟩ : ∃ N, 2 ^ m = N := ⟨_, rfl⟩
  have ha := toNat_lt_of_half hN a
  have hb := toNat_lt_of_half hN b
  have hc := cin.toNat_le
  have hr := ofNat_toNat_of_half hN (k := a.toNat + b.toNat + cin.toNat) (by omega)
  rw [Bool.eq_iff_iff, outOfRange_of_half hN, toInt_of_half hN a, toInt_of_half hN b]
  simp only [addC, msb_of_half hN, hr, Bool.and_eq_true, decide_eq_true_iff, ne_eq, decide_eq_decide]
  split_ifs <;> omega

theorem addC_result {n : Nat} (a b : BitVec n) (cin : Bool) :
    (addC a b cin).result = BitVec.ofNat n (a.toNat + b.toNat + cin.toNat) := rfl

theorem addC_carry {n : Nat} (a b : BitVec n) (cin : Bool) :
    (addC a b cin).carry = decide (2 ^ n ≤ a.toNat + b.toNat + cin.toNat) := rfl

theorem subB_result {n : Nat} (a b : BitVec n) (bin : Bool) :
    (subB a b bin).result = BitVec.ofInt n (a.toNat - b.toNat - bin.toNat) := rfl

/-- `C` of a subtraction says that no borrow occurs (R147). -/
theorem subB_carry {n : Nat} (a b : BitVec n) (bin : Bool) :
    (subB a b bin).carry = decide (b.toNat + bin.toNat ≤ a.toNat) := by
  show decide ((0 : Int) ≤ a.toNat - b.toNat - bin.toNat) = _
  rw [decide_eq_decide]
  omega

theorem not_toNat_add {n : Nat} (b : BitVec n) : (~~~b).toNat + b.toNat + 1 = 2 ^ n := by
  have := b.isLt
  rw [BitVec.toNat_not]
  omega

/-- The sum with the complement is the difference and one turn of `2^n` more. -/
theorem complement_sum {n : Nat} (a b : BitVec n) (bin : Bool) :
    ((a.toNat + (~~~b).toNat + (!bin).toNat : Nat) : Int) = (a.toNat - b.toNat - bin.toNat : Int) + (2 ^ n : Nat) := by
  have hnot := not_toNat_add b
  cases bin <;> simp only [Bool.toNat_true, Bool.toNat_false, Bool.not_true, Bool.not_false] <;> omega

theorem ofNat_two_pow (n : Nat) : BitVec.ofNat n (2 ^ n) = 0#n := by
  apply BitVec.eq_of_toNat_eq
  rw [BitVec.toNat_ofNat, Nat.mod_self, BitVec.toNat_zero]

theorem subB_eq_addC {n : Nat} (hn : 0 < n) (a b : BitVec n) (bin : Bool) : subB a b bin = addC a (~~~b) (!bin) := by
  have hsum := complement_sum a b bin
  have hresult : (subB a b bin).result = (addC a (~~~b) (!bin)).result := by
    rw [subB_result, addC_result, ← BitVec.ofInt_natCast, hsum, BitVec.ofInt_add, BitVec.ofInt_natCast n (2 ^ n), ofNat_two_pow,
      BitVec.add_zero]
  have hcarry : (subB a b bin).carry = (addC a (~~~b) (!bin)).carry := by
    rw [subB_carry, addC_carry, decide_eq_decide]
    omega
  have hoverflow : (subB a b bin).overflow = (addC a (~~~b) (!bin)).overflow := by
    show (decide (a.msb ≠ b.msb) && decide ((subB a b bin).result.msb ≠ a.msb))
      = (decide (a.msb = (~~~b).msb) && decide ((addC a (~~~b) (!bin)).result.msb ≠ a.msb))
    rw [hresult, BitVec.msb_not, decide_eq_true hn, Bool.true_and]
    congr 2
    cases a.msb <;> cases b.msb <;> simp
  cases hs : subB a b bin
  cases ht : addC a (~~~b) (!bin)
  rw [hs, ht] at hresult hcarry hoverflow
  subst hresult hcarry hoverflow
  rfl

/-- The complement of a number is one less than its negative. -/
theorem not_toInt {n : Nat} (hn : 0 < n) (b : BitVec n) : (~~~b).toInt = -b.toInt - 1 := by
  obtain ⟨m, rfl⟩ := Nat.exists_eq_succ_of_ne_zero hn.ne'
  obtain ⟨N, hN⟩ : ∃ N, 2 ^ m = N := ⟨_, rfl⟩
  have hnot := not_toNat_add b
  rw [pow_succ', hN] at hnot
  rw [toInt_of_half hN, toInt_of_half hN]
  split_ifs <;> omega

/-- `V` of a subtraction: the signed difference is out of range (R147). -/
theorem subB_overflow {n : Nat} (hn : 0 < n) (a b : BitVec n) (bin : Bool) :
    (subB a b bin).overflow = outOfRange n (a.toInt - b.toInt - bin.toNat) := by
  rw [subB_eq_addC hn, addC_overflow hn, not_toInt hn]
  congr 1
  cases bin <;> simp only [Bool.toNat_true, Bool.toNat_false, Bool.not_true, Bool.not_false] <;> omega

/-- Settles O24: result and carry by their definitions, overflow through the complement. -/
theorem subtractionIsAdditionOfTheComplement : Obligations.SubtractionIsAdditionOfTheComplement := by
  intro sz a b bin
  refine ⟨?_, ?_, subB_overflow (Size.bits_pos sz) a b bin, subB_eq_addC (Size.bits_pos sz) a b bin⟩
  · rw [subB_result, BitVec.toNat_ofInt]
    have hpos : (0 : Int) < 2 ^ sz.bits := by positivity
    have hcast : ((2 ^ sz.bits : Nat) : Int) = 2 ^ sz.bits := by push_cast; rfl
    rw [hcast, Int.toNat_of_nonneg (Int.emod_nonneg _ hpos.ne')]
  · rw [subB_carry, decide_eq_true_iff]

theorem sumResult_addC {n : Nat} (hn : 0 < n) (p : Status) (a b : BitVec n) (cin : Bool) :
    sumResult p (addC a b cin) = .ok (sumOf a b cin p) := by
  rw [sumResult, sumFlags, setNZ_eq, addC_overflow hn]
  rfl

theorem sumResult_subB {n : Nat} (hn : 0 < n) (p : Status) (a b : BitVec n) (bin : Bool) :
    sumResult p (subB a b bin) = .ok (differenceOf a b bin p) := by
  rw [sumResult, sumFlags, setNZ_eq, subB_overflow hn, subB_carry]
  rfl

/-- Settles O17: both operations are `addC`, with carry in 0 and `C`. -/
theorem addAndAdcComplete : Obligations.AddAndAdcComplete :=
  ⟨twoComputes_of_modify (alu := aluAdd) (fun _ _ _ => rfl) fun sz a b p _ => sumResult_addC (Size.bits_pos sz) p a b false,
    twoComputes_of_modify (alu := aluAdc) (fun _ _ _ => rfl) fun sz a b p _ => sumResult_addC (Size.bits_pos sz) p a b p.c⟩

/-- Settles O18: both operations are `subB`, with borrow in 0 and the complement of `C`. -/
theorem subAndSbcComplete : Obligations.SubAndSbcComplete :=
  ⟨twoComputes_of_modify (alu := aluSub) (fun _ _ _ => rfl) fun sz a b p _ => sumResult_subB (Size.bits_pos sz) p a b false,
    twoComputes_of_modify (alu := aluSbc) (fun _ _ _ => rfl) fun sz a b p _ => sumResult_subB (Size.bits_pos sz) p a b (!p.c)⟩

/-! ### CMP (R210) -/

/-- Settles O28: the template reads both operands and writes none. -/
theorem cmpCompletes : Obligations.CmpCompletes := by
  intro sz o s hready
  obtain ⟨hsrc, hdst⟩ := (Bool.and_eq_true _ _).mp hready
  have hval := sumResult_subB (Size.bits_pos sz) (twoState .cmp sz o s).p (twoDst .cmp sz o s) (twoSrc .cmp sz o s) false
  obtain ⟨t, ht, hleft⟩ := runPlaces_examine (ptr := o.pointer) (alu := aluCmp) hsrc hdst hval
  rw [twoState, operandState_p] at hleft
  exact ⟨t, execute_of_ok ht, hleft⟩

theorem differenceOf_z {n : Nat} (a b : BitVec n) (p : Status) : (differenceOf a b false p).2.z = decide (a = b) := by
  show decide ((BitVec.ofInt n (a.toNat - b.toNat - (false.toNat : Int))).toNat = 0) = _
  rw [decide_eq_decide, toNat_eq_zero_iff, Bool.toNat_false, Int.natCast_zero, Int.sub_zero, ofInt_sub, BitVec.ofInt_natCast,
    BitVec.ofInt_natCast, BitVec.ofNat_toNat, BitVec.ofNat_toNat, BitVec.setWidth_eq, BitVec.setWidth_eq]
  exact sub_eq_zero

theorem differenceOf_c {n : Nat} (a b : BitVec n) (p : Status) :
    (differenceOf a b false p).2.c = decide (b.toNat ≤ a.toNat) := rfl

/-- The sign of the difference is wrong exactly where it overflows, so `N` and `V` differ exactly where it is negative (R243). -/
theorem differenceOf_lt {n : Nat} (hn : 0 < n) (a b : BitVec n) (p : Status) :
    ((differenceOf a b false p).2.n != (differenceOf a b false p).2.v) = decide (a.toInt < b.toInt) := by
  show ((subB a b false).result.getLsbD (n - 1) != outOfRange n (a.toInt - b.toInt - (false.toNat : Int))) = _
  rw [← BitVec.msb_eq_getLsbD_last, subB_eq_addC hn, addC_result]
  obtain ⟨m, rfl⟩ := Nat.exists_eq_succ_of_ne_zero hn.ne'
  obtain ⟨N, hN⟩ : ∃ N, 2 ^ m = N := ⟨_, rfl⟩
  have ha := toNat_lt_of_half hN a
  have hb := toNat_lt_of_half hN b
  have hnot := not_toNat_add b
  rw [pow_succ', hN] at hnot
  have hr := ofNat_toNat_of_half hN (k := a.toNat + (~~~b).toNat + (!false).toNat) (by simp; omega)
  rw [Bool.eq_iff_iff, bne_iff_ne, ne_eq, Bool.eq_iff_iff, outOfRange_of_half hN, toInt_of_half hN a, toInt_of_half hN b,
    msb_of_half hN, hr, decide_eq_true_iff, decide_eq_true_iff]
  simp only [Bool.not_false, Bool.toNat_true, Bool.toNat_false]
  split_ifs <;> omega

/-- Settles O29: the flags are those of the difference (O28), each read by its own lemma. -/
theorem cmpFlagsOrderTheOperands : Obligations.CmpFlagsOrderTheOperands := by
  intro sz o s hready
  obtain ⟨t, ht, hp, -⟩ := cmpCompletes sz o s hready
  refine ⟨t, ht, ?_⟩
  rw [hp]
  exact ⟨differenceOf_z _ _ s.p, differenceOf_c _ _ s.p, differenceOf_lt (Size.bits_pos sz) _ _ s.p⟩

/-! ### Shifts and rotates (R193–R196) -/

/-- A shift or rotate whose carry is unchanged for count 0 and `x` else. -/
theorem shiftResult_eq {n : Nat} (p : Status) (r : BitVec n) (count : Nat) (x : Bool) :
    shiftResult p ⟨r, if count = 0 then none else some x⟩
      = .ok (r, { nzFlags p r with c := if count = 0 then p.c else x }) := by
  rw [shiftResult, shiftFlags, setNZ_eq]
  split <;> rfl

theorem shiftLeft_eq {n : Nat} (a b : BitVec n) :
    shiftLeft a b = ⟨BitVec.ofNat n (a.toNat * 2 ^ b.toNat),
      if b.toNat = 0 then none else some (if b.toNat ≤ n then a.getLsbD (n - b.toNat) else false)⟩ := by
  have hresult : BitVec.ofNat n (a.toNat * 2 ^ b.toNat) = a <<< b.toNat := by
    apply BitVec.eq_of_toNat_eq
    rw [BitVec.toNat_ofNat, BitVec.toNat_shiftLeft, Nat.shiftLeft_eq]
  rw [hresult]
  simp only [shiftLeft]
  split
  · rename_i hzero
    simp [hzero]
  · split
    · rfl
    · rename_i hpast
      rw [BitVec.shiftLeft_eq_zero (by omega)]
      rfl

theorem shiftRight_eq {n : Nat} (a b : BitVec n) :
    shiftRight a b = ⟨BitVec.ofNat n (a.toNat / 2 ^ b.toNat),
      if b.toNat = 0 then none else some (if b.toNat ≤ n then a.getLsbD (b.toNat - 1) else false)⟩ := by
  have hresult : BitVec.ofNat n (a.toNat / 2 ^ b.toNat) = a >>> b.toNat := by
    rw [← Nat.shiftRight_eq_div_pow, ← BitVec.toNat_ushiftRight, BitVec.ofNat_toNat, BitVec.setWidth_eq]
  rw [hresult]
  simp only [shiftRight]
  split
  · rename_i hzero
    simp [hzero]
  · split
    · rfl
    · rename_i hpast
      rw [BitVec.ushiftRight_eq_zero (by omega)]
      rfl

/-- Settles O26: the value is the arithmetic shift for every count, and the carry is shared. -/
theorem shiftsComplete : Obligations.ShiftsComplete := by
  refine ⟨twoComputes_of_modify (alu := aluShl) (fun _ _ _ => rfl) fun sz a b p _ => ?_,
    twoComputes_of_modify (alu := aluShr) (fun _ _ _ => rfl) fun sz a b p _ => ?_⟩
  · rw [aluShl, shiftLeft_eq, shiftResult_eq]
  · rw [aluShr, shiftRight_eq, shiftResult_eq]

theorem rotateLeft_eq {n : Nat} (a b : BitVec n) :
    rotateLeft a b = ⟨a.rotateLeft (b.toNat % n),
      if b.toNat = 0 then none else some ((a.rotateLeft (b.toNat % n)).getLsbD 0)⟩ := by
  have hresult : a.rotateLeft (b.toNat % n) = (a <<< (b.toNat % n)) ||| (a >>> (n - b.toNat % n)) := by
    rw [BitVec.rotateLeft, Nat.mod_mod]
    rfl
  simp only [rotateLeft, ← hresult]
  split
  · rename_i hzero
    rw [hresult, hzero, Nat.zero_mod, Nat.sub_zero, BitVec.ushiftRight_eq_zero (Nat.le_refl n)]
    simp
  · rfl

theorem rotateRight_eq {n : Nat} (a b : BitVec n) :
    rotateRight a b = ⟨a.rotateRight (b.toNat % n),
      if b.toNat = 0 then none else some ((a.rotateRight (b.toNat % n)).getLsbD (n - 1))⟩ := by
  have hresult : a.rotateRight (b.toNat % n) = (a >>> (b.toNat % n)) ||| (a <<< (n - b.toNat % n)) := by
    rw [BitVec.rotateRight, Nat.mod_mod]
    rfl
  simp only [rotateRight, ← hresult]
  split
  · rename_i hzero
    rw [hresult, hzero, Nat.zero_mod, Nat.sub_zero, BitVec.shiftLeft_eq_zero (Nat.le_refl n)]
    simp
  · rfl

/-- Settles O27: the model's rotation is the library's, count 0 included, and the carry is shared with the shifts. -/
theorem rotatesComplete : Obligations.RotatesComplete := by
  refine ⟨twoComputes_of_modify (alu := aluRol) (fun _ _ _ => rfl) fun sz a b p _ => ?_,
    twoComputes_of_modify (alu := aluRor) (fun _ _ _ => rfl) fun sz a b p _ => ?_⟩
  · rw [aluRol, rotateLeft_eq, shiftResult_eq]
  · rw [aluRor, rotateRight_eq, shiftResult_eq]

end Sys2Proof.Proofs

namespace Sys2Proof.Proofs

open Sys2Proof.Machine Sys2Proof.Claims

/-! ### Accesses and register writes (R53, R56, R57, R138) -/

/-- The bytes of `v` from byte `j` on, one byte of them. -/
theorem extractLsb'_extractLsb' {n : Nat} (v : BitVec n) (j k len : Nat) (h : 8 * k + 8 ≤ len) :
    (v.extractLsb' (8 * j) len).extractLsb' (8 * k) 8 = v.extractLsb' (8 * (j + k)) 8 := by
  apply BitVec.eq_of_getLsbD_eq
  intro i hi
  simp only [BitVec.getLsbD_extractLsb', hi, decide_true, Bool.true_and, show 8 * k + i < len by omega]
  congr 1
  omega

/-- A read inside a stored value gives the bytes at its own addresses (R53). -/
theorem memRead_inside_memWrite {s t : State} {a : Word} {sz sz' : Size} {v : BitVec sz.bits} (h : memWrite s a sz v = .ok t)
    {j : Nat} (hj : j + sz'.bytes ≤ sz.bytes) :
    memRead t (a + BitVec.ofNat 32 j) sz' = .ok (v.extractLsb' (8 * j) sz'.bits) := by
  have hstored : Stored s t a sz.bytes v := fun x => memWrite_read h x
  obtain ⟨hexist, rfl⟩ := memWrite_ok.1 h
  have hbytes : BytesExist s a sz.bytes := (State.allExist_iff s a _).1 hexist
  have hinside : BytesExist (s.setMem (s.mem.writeLE a sz.bytes v.toNat)) (a + BitVec.ofNat 32 j) sz'.bytes :=
    bytesExist_mono hbytes j sz'.bytes hj
  rw [memRead_of_exists hinside]
  refine congrArg _ (valueAt_of_bytes fun k hk => ?_)
  have hlast : 8 * k + 8 ≤ sz'.bits := by
    rw [← eight_mul_bytes]
    omega
  rw [BitVec.add_assoc, ← BitVec.ofNat_add, byteAt_of_stored hstored (by omega), extractLsb'_extractLsb' v j k sz'.bits hlast]

/-- Settles O10: the whole is the law of `memRead` after `memWrite`, and one byte or two are a read inside it. -/
theorem storedValueIsReadLittleEndian : Obligations.StoredValueIsReadLittleEndian := by
  intro s t a sz v h
  refine ⟨memRead_memWrite h, fun j hj => memRead_inside_memWrite (sz' := .byte) h (by exact hj),
    fun j hj => memRead_inside_memWrite (sz' := .word) h hj, fun x hx => ?_⟩
  rw [byteAt, memWrite_read h, if_neg hx]
  rfl

/-- Settles O11: a store is the write of a memory place. -/
theorem accessCompletesExactlyWhenItsBytesExist : Obligations.AccessCompletesExactlyWhenItsBytesExist := by
  intro s a sz v
  refine ⟨fun h => ⟨memRead_of_exists h, ?_⟩, fun h => ⟨memRead_missing h, ?_⟩⟩
  · obtain ⟨t, ht, hp, hrest, hreg, hmem⟩ := writePlace_of_ready v (pl := .mem a) (decide_eq_true h)
    exact ⟨t, ht, hmem, fun i _ => hreg i, hp, hrest⟩
  · exact writePlace_of_not_ready v (pl := .mem a) (decide_eq_false h)

/-- Settles O12: the bits of `mergeLow`, below and above the width. -/
theorem sizedRegisterWriteKeepsTheUpperBits : Obligations.SizedRegisterWriteKeepsTheUpperBits := by
  intro s sz i v
  have hreg : (regWrite s sz i v).reg i = mergeLow (s.reg i) v := by
    rw [regWrite, State.reg_setReg, if_pos rfl]
  refine ⟨fun j hj => ?_, fun j hj => ?_, fun k hk => ?_⟩
  · rw [hreg, mergeLow_getLsbD (Size.bits_le sz), if_pos hj]
  · rw [hreg, mergeLow_getLsbD (Size.bits_le sz), if_neg (by omega)]
  · rw [regWrite, State.reg_setReg, if_neg (by simpa using hk)]

/-! ### Operands (R23, R90, R133, R136) -/

theorem operandState_reg (len : Nat) (sz : Size) (ptr : Option (Reg × Modifier)) (s : State) (i : Reg) :
    (operandState len sz ptr s).reg i =
      (if i = .pc then s.pc + BitVec.ofNat 32 len else s.reg i) - (if ptr = some (i, .preDec) then sizeStep sz else 0) := by
  rw [← advance_reg, operandState]
  match ptr with
  | none | some (_, .plain) | some (_, .postInc) =>
    rw [if_neg (by simp)]
    exact (BitVec.sub_zero _).symm
  | some (j, .preDec) =>
    rw [preDecrement_preDec, State.reg_setReg]
    by_cases h : i = j
    · simp [h]
    · simp [h, Ne.symm h]

/-- Settles O14: the registers of the operand state, and the tables of the forms, which evaluate. -/
theorem operandsOfEveryFormAndTheStateTheySee : Obligations.OperandsOfEveryFormAndTheStateTheySee := by
  refine ⟨fun len sz ptr s i => ⟨?_, fun x => ?_, operandState_p len sz ptr s, operandState_rest len sz ptr s⟩, ?_, ?_, ?_⟩
  · rw [operandState_reg, Size.bits_div]
    rfl
  · rw [byteAt, operandState_mem]
    rfl
  · intros
    exact ⟨rfl, rfl, rfl, rfl, rfl, rfl, rfl, rfl, rfl, rfl⟩
  · intros
    exact ⟨rfl, rfl, rfl, rfl⟩
  · intros
    exact ⟨rfl, rfl⟩

/-- Settles O16: `extendReg` from the state past three bytes. -/
theorem signExtensionsComplete : Obligations.SignExtensionsComplete := by
  intro rx s
  have hextend (n : Nat) : extendReg n rx (advance 3 s) =
      ((s.setPc (s.pc + 3)).setReg rx (BitVec.ofInt 32 (((s.setPc (s.pc + 3)).reg rx).setWidth n).toInt)).setStatus
        (nzFlags s.p (BitVec.ofInt 32 (((s.setPc (s.pc + 3)).reg rx).setWidth n).toInt)) := by
    rw [extendReg, setNZ_eq]
    rfl
  exact ⟨congrArg _ (hextend 8), congrArg _ (hextend 16)⟩

/-! ### Register to register (R172) -/

/-- A 32-bit instruction on two registers, neither of them `PC`: what the registers and flags hold after it. -/
theorem exec_regReg_long {make : Size → TwoOp → Instr}
    {f : (sz : Size) → BitVec sz.bits → BitVec sz.bits → Status → BitVec sz.bits × Status} (h : TwoComputes make anySource f)
    {x y : Reg} (hx : x ≠ .pc) (hy : y ≠ .pc) (s : State) :
    ∃ t, exec (make .long (.regReg x y)) s = .next t ∧ t.reg x = (f .long (s.reg x) (s.reg y) s.p).1
      ∧ t.p = (f .long (s.reg x) (s.reg y) s.p).2 ∧ ∀ i, i ≠ x → i ≠ .pc → t.reg i = s.reg i := by
  have hstate (i : Reg) (hi : i ≠ .pc) : (twoState make .long (.regReg x y) s).reg i = s.reg i := by
    show (advance _ s).reg i = s.reg i
    rw [advance_reg, if_neg hi]
  have hsrc : twoSrc make .long (.regReg x y) s = s.reg y := by
    show ((twoState make .long (.regReg x y) s).reg y).setWidth 32 = _
    rw [hstate y hy, BitVec.setWidth_eq]
  have hdst : twoDst make .long (.regReg x y) s = s.reg x := by
    show ((twoState make .long (.regReg x y) s).reg x).setWidth 32 = _
    rw [hstate x hx, BitVec.setWidth_eq]
  obtain ⟨t, ht, hp, -, hreg, -⟩ := h .long (.regReg x y) s rfl trivial
  rw [hsrc, hdst] at hp hreg
  refine ⟨t, ht, ?_, hp, fun i hi hpc => ?_⟩
  · rw [hreg x]
    show (if x = x then mergeLow _ _ else _) = _
    rw [if_pos rfl, mergeLow_word]
  · rw [hreg i]
    show (if i = x then mergeLow _ _ else _) = _
    rw [if_neg hi, hstate i hpc]

/-- Settles O23: the carry out of the low words is the `C` that ADC adds, and nothing else of the high words has changed. -/
theorem addThenAdcAddsSixtyFourBits : Obligations.AddThenAdcAddsSixtyFourBits := by
  intro lo hi lo' hi' s hlohi hlohi' hpc
  have hne : lo ≠ .pc ∧ hi ≠ .pc ∧ lo' ≠ .pc ∧ hi' ≠ .pc := by
    simpa only [List.mem_cons, List.not_mem_nil, or_false, not_or, ne_eq, eq_comm] using hpc
  obtain ⟨hlopc, hhipc, hlopc', hhipc'⟩ := hne
  obtain ⟨hadd, hadc⟩ := addAndAdcComplete
  obtain ⟨t, ht, htlo, htp, htrest⟩ := exec_regReg_long hadd hlopc hlopc' s
  obtain ⟨u, hu, huhi, hup, hurest⟩ := exec_regReg_long hadc hhipc hhipc' t
  refine ⟨t, u, ht, hu, ?_⟩
  have hcarry : t.p.c = decide (2 ^ 32 ≤ (s.reg lo).toNat + (s.reg lo').toNat) := by
    rw [htp]
    rfl
  rw [htrest hi hlohi.symm hhipc, htrest hi' hlohi'.symm hhipc'] at huhi hup
  have hlo : (u.reg lo).toNat = ((s.reg lo).toNat + (s.reg lo').toNat) % 2 ^ 32 := by
    rw [hurest lo hlohi hlopc, htlo]
    rfl
  have hhi : (u.reg hi).toNat = ((s.reg hi).toNat + (s.reg hi').toNat + t.p.c.toNat) % 2 ^ 32 := by
    rw [huhi]
    rfl
  have hc : u.p.c = decide (2 ^ 32 ≤ (s.reg hi).toNat + (s.reg hi').toNat + t.p.c.toNat) := by
    rw [hup]
    rfl
  have hb (i : Reg) : (s.reg i).toNat < 2 ^ 32 := (s.reg i).isLt
  have := hb lo
  have := hb hi
  have := hb lo'
  have := hb hi'
  rw [hlo, hhi, hc, hcarry]
  simp only [decide_eq_true_iff]
  by_cases hlow : 2 ^ 32 ≤ (s.reg lo).toNat + (s.reg lo').toNat
  · simp only [hlow, decide_true, Bool.toNat_true]
    split <;> omega
  · simp only [hlow, decide_false, Bool.toNat_false]
    split <;> omega

/-! ### One register in two parts (R141) -/

theorem setWidth_mergeLow {n : Nat} (hn : n ≤ 32) (old : Word) (v : BitVec n) : (mergeLow old v).setWidth n = v := by
  apply BitVec.eq_of_getLsbD_eq
  intro j hj
  rw [BitVec.getLsbD_setWidth, mergeLow_getLsbD hn, if_pos hj]
  simp [hj]

theorem mergeLow_byte (old : Word) (v : Byte) : mergeLow old v = old.extractLsb' 8 24 ++ v := by
  apply BitVec.eq_of_getLsbD_eq
  intro j hj
  rw [mergeLow_getLsbD (by decide), BitVec.getLsbD_append, BitVec.getLsbD_extractLsb']
  by_cases h : j < 8
  · simp [h]
  · rw [if_neg h, if_neg h, Nat.add_sub_cancel' (by omega)]
    simp [show j - 8 < 24 by omega]

theorem valueAt_byte (s : State) (a : Word) : valueAt s 8 a = byteAt s a := by
  simp [valueAt, Memory.readLE, byteAt]

/-- The state in which a MOV of a form `[Ry]` looks at its operands: three bytes past its start, `[..]-` done. -/
def movPointerState (sz : Size) (ptr : Reg) (m : Modifier) (s : State) : State := operandState 3 sz (some (ptr, m)) s

theorem movPointerState_reg {sz : Size} {ptr : Reg} (m : Modifier) (s : State) (h : ptr ≠ .pc) :
    (movPointerState sz ptr m s).reg ptr = if m = .preDec then s.reg ptr - sizeStep sz else s.reg ptr := by
  rw [movPointerState, operandState_reg, if_neg h]
  cases m <;> simp

/-- MOV from memory at a pointer, as a whole (O15). -/
theorem exec_mov_regInd {sz : Size} {rx ry : Reg} {m : Modifier} {s : State}
    (h : BytesExist s ((movPointerState sz ry m s).reg ry) sz.bytes) :
    ∃ t, exec (.mov sz (.regInd rx ry m)) s = .next t ∧ ∀ i, t.reg i =
      bumped sz (some (ry, m)) i (if i = rx then mergeLow ((movPointerState sz ry m s).reg i)
        (valueAt s sz.bits ((movPointerState sz ry m s).reg ry)) else (movPointerState sz ry m s).reg i) := by
  have hlen : twoState .mov sz (.regInd rx ry m) s = movPointerState sz ry m s := by
    cases m <;> rfl
  have hready : twoReady .mov sz (.regInd rx ry m) s = true := by
    rw [twoReady, hlen]
    show (decide (BytesExist (movPointerState sz ry m s) _ _) && true) = true
    rw [Bool.and_true, decide_eq_true_iff]
    exact (bytesExist_congr (operandState_present _ _ _ s) _ _).2 h
  have hsrc : twoSrc .mov sz (.regInd rx ry m) s = valueAt s sz.bits ((movPointerState sz ry m s).reg ry) := by
    rw [twoSrc, hlen]
    show valueAt (movPointerState sz ry m s) _ _ = _
    rw [valueAt, movPointerState, operandState_mem, valueAt]
  obtain ⟨t, ht, -, -, hreg, -⟩ := movCompletes sz (.regInd rx ry m) s hready trivial
  rw [hlen, hsrc] at hreg
  exact ⟨t, ht, hreg⟩

/-- MOV to memory at a pointer, as a whole (O15). -/
theorem exec_mov_indReg {sz : Size} {rx ry : Reg} {m : Modifier} {s : State}
    (h : BytesExist s ((movPointerState sz rx m s).reg rx) sz.bytes) :
    ∃ t, exec (.mov sz (.indReg rx ry m)) s = .next t
      ∧ (∀ i, t.reg i = bumped sz (some (rx, m)) i ((movPointerState sz rx m s).reg i))
      ∧ Stored s t ((movPointerState sz rx m s).reg rx) sz.bytes (((movPointerState sz rx m s).reg ry).setWidth sz.bits) := by
  have hlen : twoState .mov sz (.indReg rx ry m) s = movPointerState sz rx m s := by
    cases m <;> rfl
  have hready : twoReady .mov sz (.indReg rx ry m) s = true := by
    rw [twoReady, hlen]
    show (true && decide (BytesExist (movPointerState sz rx m s) _ _)) = true
    rw [Bool.true_and, decide_eq_true_iff]
    exact (bytesExist_congr (operandState_present _ _ _ s) _ _).2 h
  obtain ⟨t, ht, -, -, hreg, hmem⟩ := movCompletes sz (.indReg rx ry m) s hready trivial
  rw [twoSrc, hlen] at hreg hmem
  refine ⟨t, ht, hreg, fun x => ?_⟩
  have hx := hmem x
  rwa [show byteAt (movPointerState sz rx m s) x = byteAt s x by
    rw [byteAt, movPointerState, operandState_mem, byteAt]] at hx

/-- Settles O34: the first five cases and the last two are MOV at a pointer, the sixth is ADD of a register to itself. -/
theorem pointerAndDestinationInOneRegister : Obligations.PointerAndDestinationInOneRegister := by
  refine ⟨fun s r hr => ⟨fun h => ?_, fun h => ?_, fun h => ?_, fun h => ?_, fun h => ?_, fun sz => ?_⟩,
    fun s => ⟨fun h => ?_, fun h => ?_⟩⟩
  · have hptr : (movPointerState .long r .postInc s).reg r = s.reg r := movPointerState_reg .postInc s hr
    obtain ⟨t, ht, hreg⟩ := exec_mov_regInd (sz := .long) (rx := r) (ry := r) (m := .postInc) (s := s) (hptr.symm ▸ h)
    refine ⟨t, ht, ?_⟩
    rw [hreg, hptr]
    simp only [bumped, if_true, mergeLow_word]
    rfl
  · have hptr : (movPointerState .byte r .postInc s).reg r = s.reg r := movPointerState_reg .postInc s hr
    obtain ⟨t, ht, hreg⟩ := exec_mov_regInd (sz := .byte) (rx := r) (ry := r) (m := .postInc) (s := s) (hptr.symm ▸ h)
    refine ⟨t, ht, ?_⟩
    rw [hreg, hptr]
    simp only [bumped, if_true]
    rw [valueAt_byte, mergeLow_byte]
    rfl
  · have hptr : (movPointerState .long r .preDec s).reg r = s.reg r - 4 := movPointerState_reg .preDec s hr
    obtain ⟨t, ht, hreg⟩ := exec_mov_regInd (sz := .long) (rx := r) (ry := r) (m := .preDec) (s := s) (hptr.symm ▸ h)
    refine ⟨t, ht, ?_⟩
    rw [hreg, hptr]
    simp only [bumped, if_true, mergeLow_word]
  · have hptr : (movPointerState .long r .preDec s).reg r = s.reg r - 4 := movPointerState_reg .preDec s hr
    obtain ⟨t, ht, hreg, hmem⟩ := exec_mov_indReg (sz := .long) (rx := r) (ry := r) (m := .preDec) (s := s) (hptr.symm ▸ h)
    rw [hptr, BitVec.setWidth_eq] at hmem
    exact ⟨t, ht, (hreg r).trans hptr, hmem⟩
  · have hptr : (movPointerState .long r .postInc s).reg r = s.reg r := movPointerState_reg .postInc s hr
    obtain ⟨t, ht, hreg, hmem⟩ := exec_mov_indReg (sz := .long) (rx := r) (ry := r) (m := .postInc) (s := s) (hptr.symm ▸ h)
    rw [hptr, BitVec.setWidth_eq] at hmem
    refine ⟨t, ht, ?_, hmem⟩
    rw [hreg, hptr]
    simp only [bumped, if_true]
    rfl
  · obtain ⟨t, ht, -, -, hreg, -⟩ := addAndAdcComplete.1 sz (.regReg r r) s rfl trivial
    refine ⟨t, ht, ?_⟩
    have hval : twoDst .add sz (.regReg r r) s = (s.reg r).setWidth sz.bits := by
      show ((advance _ s).reg r).setWidth sz.bits = _
      rw [advance_reg, if_neg hr]
    rw [hreg r]
    show (if r = r then mergeLow _ _ else _ : Word).setWidth sz.bits = _
    rw [if_pos rfl, setWidth_mergeLow (Size.bits_le sz), hval, show twoSrc .add sz (.regReg r r) s = _ from hval]
    apply BitVec.eq_of_toNat_eq
    simp only [sumOf, BitVec.toNat_ofNat, BitVec.toNat_setWidth, Bool.toNat_false]
    rw [Nat.add_zero, ← Nat.add_mod, ← two_mul]
  · have hptr : (movPointerState .long .sp .postInc s).reg .sp = s.sp := movPointerState_reg .postInc s (by decide)
    obtain ⟨t, ht, hreg⟩ := exec_mov_regInd (sz := .long) (rx := .pc) (ry := .sp) (m := .postInc) (s := s) (hptr.symm ▸ h)
    refine ⟨t, ht, ?_, ?_⟩
    · rw [← State.reg_pc, hreg, hptr]
      simp [bumped]
    · rw [← State.reg_sp, hreg, hptr]
      simp only [bumped, if_true, reduceCtorEq, if_false]
      rfl
  · have hptr : (movPointerState .long .pc .postInc s).reg .pc = s.pc + 3 := rfl
    obtain ⟨t, ht, hreg⟩ := exec_mov_regInd (sz := .long) (rx := .r0) (ry := .pc) (m := .postInc) (s := s) (hptr.symm ▸ h)
    refine ⟨t, ht, ?_, ?_⟩
    · rw [hreg, hptr]
      simp [bumped]
    · rw [← State.reg_pc, hreg, hptr]
      simp only [bumped, if_true, reduceCtorEq, if_false]
      show s.pc + 3 + 4 = s.pc + 7
      bv_omega

end Sys2Proof.Proofs

namespace Sys2Proof.Proofs

open Sys2Proof.Machine Sys2Proof.Claims

/-! ### Calls and returns (R231, R232) -/

theorem exec_jsr {s : State} (addr : Word) (h : BytesExist s (s.sp - 4) 4) :
    ∃ u, push (advance 6 s) .long (s.pc + 6) = .ok u ∧ exec (.jsr addr) s = .next (u.setPc addr) := by
  obtain ⟨u, hu⟩ := push_exists (s := advance 6 s) (sz := .long) (s.pc + 6) h
  refine ⟨u, hu, execute_of_ok ?_⟩
  show (push (advance 6 s) .long (s.pc + 6) >>= fun t => .ok (t.setPc addr)) = _
  rw [hu]
  rfl

/-- Settles O37: one push from the state with `pc` past the instruction, then the jump. -/
theorem jsrCompletes : Obligations.JsrCompletes := by
  intro s addr h
  obtain ⟨u, hu, hexec⟩ := exec_jsr addr h
  obtain ⟨hreg, hp, hrest, hstored⟩ := push_spec hu
  refine ⟨u.setPc addr, hexec, rfl, hreg .sp, fun i hi => ?_, hstored, hp, hrest⟩
  simp only [List.mem_cons, List.not_mem_nil, or_false, not_or] at hi
  rw [State.setPc_reg, if_neg hi.2, hreg, if_neg hi.1, advance_reg, if_neg hi.2]

/-- Settles O38: one pop, whose value overwrites the `pc` past the instruction. -/
theorem rtsCompletes : Obligations.RtsCompletes := by
  intro s h
  have hpop : pop (advance 2 s) .long = .ok (valueAt s 32 s.sp, (advance 2 s).setSp (s.sp + 4)) :=
    pop_of_exists (s := advance 2 s) (sz := .long) h
  refine execute_of_ok ?_
  show (pop (advance 2 s) .long >>= fun r => .ok (r.2.setPc r.1)) = _
  rw [hpop]
  rfl

/-- Settles O39: RTS pops the value that JSR stored, from the address it stored it at. -/
theorem rtsReturnsFromJsr : Obligations.RtsReturnsFromJsr := by
  intro s addr h
  obtain ⟨t, ht, -, hsp, hregs, hstored, hp, -, -, hpresent, -⟩ := jsrCompletes s addr h
  have hexist : BytesExist t t.sp 4 := by
    rw [hsp]
    exact (bytesExist_congr hpresent _ _).2 h
  refine ⟨t, _, ht, rtsCompletes t hexist, ?_, fun i hi => ?_, hp⟩
  · rw [State.setPc_pc, hsp]
    exact valueAt_of_stored (sz := .long) hstored
  · have hpc : i ≠ .pc := by simpa using hi
    rw [State.setPc_reg, if_neg hpc, State.setSp_reg]
    split
    · rename_i hisp
      rw [hisp, hsp, State.reg_sp, BitVec.sub_add_cancel]
    · rename_i hisp
      exact hregs i (by simp [hisp, hpc])

/-! ### PUSH and POP (R260, R261) -/

/-- PUSH with its operand and its stack bytes in place: one push of the operand's value. -/
theorem exec_push {sz : Size} {o : PushOp} {s : State} (h : pushReady sz o s = true) :
    ∃ u, push (pushState sz o s) sz (pushValue sz o s) = .ok u
      ∧ exec (.push sz o) s = .next (postIncrement sz o.pointer u) := by
  obtain ⟨hplace, hstack⟩ := (Bool.and_eq_true _ _).mp h
  have hexist : BytesExist (pushState sz o s) ((pushState sz o s).sp - sizeStep sz) sz.bytes :=
    (bytesExist_congr (operandState_present _ _ _ s) _ _).2 (of_decide_eq_true hstack)
  obtain ⟨u, hu⟩ := push_exists (pushValue sz o s) hexist
  have hread : readPlace (pushState sz o s) sz (o.source.place (pushState sz o s)) = .ok (pushValue sz o s) := by
    rw [readPlace_eq, hplace]
    rfl
  refine ⟨u, hu, execute_of_ok ?_⟩
  show (readPlace (pushState sz o s) sz (o.source.place (pushState sz o s)) >>= fun v =>
    push (pushState sz o s) sz v >>= fun t => .ok (postIncrement sz o.pointer t)) = _
  rw [hread]
  show (push (pushState sz o s) sz (pushValue sz o s) >>= fun t => .ok (postIncrement sz o.pointer t)) = _
  rw [hu]
  rfl

theorem operandState_byteAt (len : Nat) (sz : Size) (ptr : Option (Reg × Modifier)) (s : State) (x : Word) :
    byteAt (operandState len sz ptr s) x = byteAt s x := by
  rw [byteAt, operandState_mem, byteAt]

/-- Settles O40: what the push changes, then the post-increment. -/
theorem pushCompletes : Obligations.PushCompletes := by
  intro sz o s h
  obtain ⟨u, hu, hexec⟩ := exec_push h
  obtain ⟨hreg, hp, hrest, hstored⟩ := push_spec hu
  refine ⟨_, hexec, ?_, ?_, fun i => ?_, fun x => ?_⟩
  · rw [postIncrement_p, hp, pushState, operandState_p]
  · exact sameRest_trans (sameRest_trans (operandState_rest _ _ _ s) hrest) (postIncrement_rest _ _ u)
  · rw [postIncrement_reg, hreg]
    rfl
  · have hx := hstored x
    rw [show byteAt (pushState sz o s) x = byteAt s x from operandState_byteAt _ _ _ s x] at hx
    rw [byteAt, postIncrement_mem]
    exact hx

theorem memoryAfter_congr {n : Nat} {dst : Place} {k : Nat} {v : BitVec n} {s s' t t' : State} (hs : s'.mem = s.mem)
    (ht : t'.mem = t.mem) (h : MemoryAfter dst k v s t) : MemoryAfter dst k v s' t' := by
  have hbs (x : Word) : byteAt s' x = byteAt s x := by rw [byteAt, hs, byteAt]
  have hbt (x : Word) : byteAt t' x = byteAt t x := by rw [byteAt, ht, byteAt]
  cases dst with
  | mem ea => exact fun x => by rw [hbt, hbs]; exact h x
  | reg r => exact fun x => by rw [hbt, hbs]; exact h x
  | const c => exact fun x => by rw [hbt, hbs]; exact h x

/-- The state in which POP writes its operand: the value is popped (R261). -/
def poppedState (sz : Size) (o : OneOp) (s : State) : State :=
  (oneState .pop sz o s).setSp ((oneState .pop sz o s).sp + sizeStep sz)

theorem exec_pop_of_stack {sz : Size} {o : OneOp} {s : State} (h : BytesExist s (oneState .pop sz o s).sp sz.bytes) :
    exec (.pop sz o) s = execute (Instr.pop sz o).length (fun _ => do
      let t ← writePlace (poppedState sz o s) sz (popValue sz o s) (onePlace .pop sz o s)
      .ok (postIncrement sz o.pointer (t.setStatus (setNZ t.p (popValue sz o s))))) s := by
  have hexist : BytesExist (oneState .pop sz o s) (oneState .pop sz o s).sp sz.bytes :=
    (bytesExist_congr (operandState_present _ _ _ s) _ _).2 h
  have hpop : pop (oneState .pop sz o s) sz = .ok (popValue sz o s, poppedState sz o s) := pop_of_exists hexist
  have hbody : popOperand sz o (advance (Instr.pop sz o).length s) = (do
      let t ← writePlace (poppedState sz o s) sz (popValue sz o s) (onePlace .pop sz o s)
      .ok (postIncrement sz o.pointer (t.setStatus (setNZ t.p (popValue sz o s))))) := by
    show (pop (oneState .pop sz o s) sz >>= fun r => writePlace r.2 sz r.1 (onePlace .pop sz o s) >>= fun t =>
      .ok (postIncrement sz o.pointer (t.setStatus (setNZ t.p r.1)))) = _
    rw [hpop]
    rfl
  show execute (Instr.pop sz o).length (popOperand sz o) s = _
  rw [execute, hbody, execute]

/-- Settles O41: the pop, the write of the place formed before it, the flags and the post-increment. -/
theorem popCompletes : Obligations.PopCompletes := by
  intro sz o s h
  obtain ⟨hplace, hstack⟩ := (Bool.and_eq_true _ _).mp h
  have hready : placeReady (poppedState sz o s) sz (onePlace .pop sz o s) = true := hplace
  obtain ⟨u, hu, hp, hrest, hreg, hmem⟩ := writePlace_of_ready (popValue sz o s) hready
  have hflags : u.p = s.p := hp.trans (operandState_p _ _ _ s)
  refine ⟨postIncrement sz o.pointer (u.setStatus (setNZ u.p (popValue sz o s))), ?_, ?_, ?_, fun i => ?_, ?_⟩
  · rw [exec_pop_of_stack (of_decide_eq_true hstack)]
    refine execute_of_ok ?_
    simp only [hu, bind, Except.bind]
  · rw [postIncrement_p, State.setStatus_p, setNZ_eq, hflags]
  · exact sameRest_trans (sameRest_trans (operandState_rest _ _ _ s) hrest)
      (postIncrement_rest sz o.pointer (u.setStatus (setNZ u.p (popValue sz o s))))
  · rw [postIncrement_reg, State.setStatus_reg, hreg, poppedState, State.setSp_reg]
    rfl
  · refine memoryAfter_congr ?_ ?_ hmem
    · rw [poppedState, State.setSp_mem, oneState, operandState_mem]
    · rw [postIncrement_mem, State.setStatus_mem]

/-! ### PUSHA and POPA (R262, R263) -/

/-- PUSHA, each register by its number (R262). -/
theorem exec_pusha {s : State} (h : BytesExist s (s.sp - 56) 56) :
    ∃ t, exec .pusha s = .next t ∧ (∀ i, t.reg i = if i = .sp then s.sp - 56 else (advance 2 s).reg i) ∧ t.p = s.p
      ∧ SameRest s t ∧ (∀ k i, generalRegs[k]? = some i → valueAt t 32 (s.sp - BitVec.ofNat 32 (4 * (k + 1))) = s.reg i)
      ∧ ∀ x, ¬ Within (s.sp - 56) 56 x → byteAt t x = byteAt s x := by
  obtain ⟨t, ht, hreg, hp, hrest, hval, hmem⟩ := pushRegs_full generalRegs (by decide) (by decide) (advance 2 s) h
  refine ⟨t, execute_of_ok ht, hreg, hp, hrest, fun k i hk => ?_, hmem⟩
  have hpc : i ≠ .pc := fun e => absurd (e ▸ List.mem_of_getElem? hk) (by decide)
  have hk := hval k i hk
  rwa [advance_reg, if_neg hpc] at hk

/-- POPA, each register by its number (R263). -/
theorem exec_popa {s : State} (h : BytesExist s s.sp 56) :
    ∃ t, exec .popa s = .next t ∧ t.sp = s.sp + 56 ∧ t.pc = s.pc + 2 ∧ t.p = s.p ∧ SameRest s t ∧ t.mem = s.mem
      ∧ ∀ k i, generalRegs.reverse[k]? = some i → t.reg i = valueAt s 32 (s.sp + BitVec.ofNat 32 (4 * k)) := by
  obtain ⟨t, ht, hsp, hreg, hp, hrest, hmem, hval⟩ :=
    popRegs_full generalRegs.reverse (by decide) (by decide) (by decide) (advance 2 s) h
  exact ⟨t, execute_of_ok ht, hsp, hreg .pc (by decide) (by decide), hp, hrest, hmem, hval⟩

/-- Settles O42: the table of R262 is the list of the registers in ascending order. -/
theorem pushaCompletes : Obligations.PushaCompletes := by
  intro s h
  obtain ⟨t, ht, hreg, hp, hrest, hval, hmem⟩ := exec_pusha h
  refine ⟨t, ht, hreg .sp, hreg .pc, fun i hi => ?_, hp, hrest, fun e he => ?_, hmem⟩
  · simp only [List.mem_cons, List.not_mem_nil, or_false, not_or] at hi
    rw [hreg, if_neg hi.1, advance_reg, if_neg hi.2]
  · obtain ⟨k, -, hk, hoffset⟩ : ∃ k < 14, generalRegs[k]? = some e.1 ∧ e.2 = BitVec.ofNat 32 (4 * (k + 1)) := by
      revert e
      decide
    rw [hoffset]
    exact hval k e.1 hk

/-- Settles O43: the table of R263 is the list of the registers in descending order. -/
theorem popaCompletes : Obligations.PopaCompletes := by
  intro s h
  obtain ⟨t, ht, hsp, hpc, hp, hrest, hmem, hval⟩ := exec_popa h
  refine ⟨t, ht, hsp, hpc, fun x => by rw [byteAt, hmem, byteAt], hp, hrest, fun e he => ?_⟩
  obtain ⟨k, -, hk, hoffset⟩ : ∃ k < 14, generalRegs.reverse[k]? = some e.1 ∧ e.2 = BitVec.ofNat 32 (4 * k) := by
    revert e
    decide
  rw [hoffset]
  exact hval k e.1 hk

/-- Every register but `SP` and `PC` has a number among those of PUSHA, and its place from the end among those of POPA. -/
theorem generalRegs_index (i : Reg) (hsp : i ≠ .sp) (hpc : i ≠ .pc) :
    ∃ k < 14, generalRegs[k]? = some i ∧ generalRegs.reverse[13 - k]? = some i := by
  revert hsp hpc
  cases i <;> decide

/-- Settles O44: POPA reads each register at the address PUSHA stored it at. -/
theorem popaRestoresWhatPushaSaved : Obligations.PopaRestoresWhatPushaSaved := by
  intro s t t' h hpusha hsp' hmem' hpresent'
  obtain ⟨t₁, ht₁, hreg, -, hrest, hval, -⟩ := exec_pusha h
  cases hpusha.symm.trans ht₁
  have hsp : t'.sp = s.sp - 56 := hsp'.trans (hreg .sp)
  have hpresent : t'.present = s.present := hpresent'.trans hrest.2.2.1
  have hexist : BytesExist t' t'.sp 56 := by
    rw [hsp]
    exact (bytesExist_congr hpresent _ _).2 h
  obtain ⟨u, hu, husp, -, -, -, -, huval⟩ := exec_popa hexist
  refine ⟨u, hu, fun i hi => ?_⟩
  have hpc : i ≠ .pc := by simpa using hi
  by_cases hisp : i = .sp
  · rw [hisp, State.reg_sp, husp, hsp, BitVec.sub_add_cancel, State.reg_sp]
  · obtain ⟨k, hk, hup, hdown⟩ := generalRegs_index i hisp hpc
    have hplace : t'.sp + BitVec.ofNat 32 (4 * (13 - k)) = s.sp - BitVec.ofNat 32 (4 * (k + 1)) := by
      rw [hsp]
      bv_omega
    rw [huval _ i hdown, hplace, ← hval k i hup, valueAt, hmem', valueAt]

/-! ### PUSH as a MOV, POP as a return (R260, R261) -/

/-- MOV of a register other than `SP` to `[SP]-` stores as a push does, and then sets `N` and `Z`. -/
theorem exec_mov_to_stack {s u : State} {sz : Size} {rx : Reg} (hrx : rx ≠ .sp)
    (h : push (advance 3 s) sz (regRead (advance 3 s) sz rx) = .ok u) :
    exec (.mov sz (.indReg .sp rx .preDec)) s
      = .next (u.setStatus (setNZ s.p (regRead (advance 3 s) sz rx))) := by
  have hread : regRead ((advance 3 s).setSp (s.sp - sizeStep sz)) sz rx = regRead (advance 3 s) sz rx := by
    rw [regRead, State.setSp_reg, if_neg hrx, regRead]
  have hbody : runTwo sz (.indReg .sp rx .preDec) .write aluMov (advance 3 s) =
      (memWrite ((advance 3 s).setSp (s.sp - sizeStep sz)) (s.sp - sizeStep sz) sz
        (regRead ((advance 3 s).setSp (s.sp - sizeStep sz)) sz rx) >>= fun t =>
          .ok (t.setStatus (setNZ s.p (regRead ((advance 3 s).setSp (s.sp - sizeStep sz)) sz rx)))) := rfl
  refine execute_of_ok (hbody.trans ?_)
  rw [hread]
  show (push (advance 3 s) sz (regRead (advance 3 s) sz rx) >>= _) = _
  rw [h]
  rfl

/-- Settles O45: both sides are one push, or one pop, and differ in the flags set after it. -/
theorem pushIsMovBelowTheStackPointer : Obligations.PushIsMovBelowTheStackPointer := by
  refine ⟨fun s sz rx hrx h => ?_, fun s h => ⟨_, rtsCompletes s h, ?_⟩⟩
  · have hready : pushReady sz (.operand (.reg rx)) s = true := by
      rw [pushReady]
      exact decide_eq_true h
    obtain ⟨u, hu, hexec⟩ := exec_push hready
    refine ⟨u, hexec, ?_⟩
    rw [← setNZ_eq]
    exact exec_mov_to_stack hrx hu
  · have hval : popValue .long (.reg .pc) s = valueAt s 32 s.sp := rfl
    rw [exec_pop_of_stack (sz := .long) (o := .reg .pc) h]
    refine execute_of_ok ?_
    show Except.ok ((regWrite (poppedState .long (.reg .pc) s) .long .pc (popValue .long (.reg .pc) s)).setStatus _) = _
    rw [regWrite, mergeLow_word, setNZ_eq, hval]
    rfl

/-! ### The status byte (R25, R27, R264, R265) -/

theorem toByte_toNat (p : Status) :
    p.toByte.toNat = 16 * p.i.toNat + 8 * p.v.toNat + 4 * p.c.toNat + 2 * p.n.toNat + p.z.toNat := by
  obtain ⟨i, v, c, n, z⟩ := p
  revert i v c n z
  decide

theorem ofByte_toNat : ∀ b : Byte,
    16 * (Status.ofByte b).i.toNat + 8 * (Status.ofByte b).v.toNat + 4 * (Status.ofByte b).c.toNat
      + 2 * (Status.ofByte b).n.toNat + (Status.ofByte b).z.toNat = b.toNat % 32 := by
  decide

/-- Settles O46: the byte pushed is read back, and gives the flags it was made of. -/
theorem statusByteIsPushedAndPopped : Obligations.StatusByteIsPushedAndPopped := by
  refine ⟨fun s t h => ?_, fun s t h => ?_⟩
  · obtain ⟨hreg, hp, ⟨-, -, hpresent, -⟩, hstored⟩ := push_spec (sz := .byte) h
    have hsp : t.sp = s.sp - 1 := hreg .sp
    have hbyte : byteAt t (s.sp - 1) = s.p.toByte := by
      rw [← valueAt_byte]
      exact valueAt_of_stored (sz := .byte) hstored
    have hexist : t.exists? t.sp = true := by
      have hstack := (State.allExist_iff s _ _).1 (push_ok.1 h).1 0 (by decide)
      rw [State.exists?_congr hpresent, hsp]
      show s.exists? (s.sp - sizeStep .byte) = true
      simpa using hstack
    refine ⟨hsp, (congrArg BitVec.toNat hbyte).trans (toByte_toNat s.p), popStatus_ok.2 ⟨hexist, ?_⟩⟩
    have hread : t.mem.read t.sp.toNat = s.p.toByte := by
      rw [hsp]
      exact hbyte
    rw [hread, Status.ofByte_toByte, hsp, BitVec.sub_add_cancel, ← hp]
    rfl
  · obtain ⟨-, rfl⟩ := popStatus_ok.1 h
    exact ⟨rfl, ofByte_toNat (byteAt s s.sp)⟩

/-! ### Return from a trap (R282, R325) -/

/-- The five bytes a return pops are the status byte and, above it, the four of the return PC (R282). -/
theorem returnFrame_exists_iff (s : State) (a : Word) :
    BytesExist s a 5 ↔ s.exists? a = true ∧ BytesExist s (a + 1) 4 := by
  constructor
  · intro h
    exact ⟨by simpa using h 0 (by decide), fun j hj => add_ofNat_succ a j ▸ h (j + 1) (by omega)⟩
  · rintro ⟨hstatus, hpc⟩ j hj
    cases j with
    | zero => simpa using hstatus
    | succ j => exact (add_ofNat_succ a j).symm ▸ hpc j (by omega)

/-- What a return from a trap leaves of the state `s` it pops the frame of. -/
def returnedState (s : State) : State :=
  (((s.setSp (s.sp + 1)).setStatus (Status.ofByte (byteAt s s.sp))).setSp (s.sp + 1 + 4)).setPc (valueAt s 32 (s.sp + 1))

theorem returnedState_reg (s : State) (i : Reg) :
    (returnedState s).reg i = if i = .pc then valueAt s 32 (s.sp + 1) else if i = .sp then s.sp + 5 else s.reg i := by
  have hsp : s.sp + 1 + 4 = s.sp + 5 := by bv_omega
  rw [returnedState, State.setPc_reg, State.setSp_reg, State.setStatus_reg, State.setSp_reg, hsp]
  split
  · rfl
  · split <;> rfl

theorem returnedState_mem (s : State) : (returnedState s).mem = s.mem := by
  simp [returnedState]

theorem returnedState_p (s : State) : (returnedState s).p = Status.ofByte (byteAt s s.sp) := by
  simp [returnedState]

theorem returnedState_rest (s : State) : SameRest s (returnedState s) := by
  simp [SameRest, returnedState]

theorem returnFromTrap_of_exists {s : State} (h : BytesExist s s.sp 5) : returnFromTrap s = .ok (returnedState s) := by
  obtain ⟨hstatus, hpc⟩ := (returnFrame_exists_iff s s.sp).1 h
  have h1 : popStatus s = .ok ((s.setSp (s.sp + 1)).setStatus (Status.ofByte (byteAt s s.sp))) :=
    popStatus_ok.2 ⟨hstatus, rfl⟩
  have h2 : pop ((s.setSp (s.sp + 1)).setStatus (Status.ofByte (byteAt s s.sp))) .long
      = .ok (valueAt s 32 (s.sp + 1), ((s.setSp (s.sp + 1)).setStatus (Status.ofByte (byteAt s s.sp))).setSp (s.sp + 1 + 4)) :=
    pop_of_exists (s := (s.setSp (s.sp + 1)).setStatus (Status.ofByte (byteAt s s.sp))) (sz := .long) hpc
  simp only [returnFromTrap, h1, bind, Except.bind]
  rw [h2]
  rfl

/-- Settles O50: the return from a trap, from the state with `pc` past the instruction. -/
theorem rtiCompletes : Obligations.RtiCompletes := by
  intro s h
  have hreturn : returnFromTrap (advance 2 s) = .ok (returnedState (advance 2 s)) :=
    returnFromTrap_of_exists (s := advance 2 s) h
  have hreg := returnedState_reg (advance 2 s)
  have hpc : (returnedState (advance 2 s)).pc = valueAt s 32 (s.sp + 1) := by
    rw [← State.reg_pc, hreg, if_pos rfl, valueAt, advance_mem, advance_sp, valueAt]
  have hrest : SameRest s (returnedState (advance 2 s)) :=
    sameRest_trans (t := advance 2 s) ⟨rfl, rfl, rfl, rfl, rfl, rfl, rfl⟩ (returnedState_rest _)
  refine ⟨returnedState (advance 2 s), execute_of_ok hreturn, hreg .sp, hpc, fun i hi => ?_, returnedState_p (advance 2 s),
    fun x => ?_, hrest⟩
  · simp only [List.mem_cons, List.not_mem_nil, or_false, not_or] at hi
    rw [hreg, if_neg hi.2, if_neg hi.1, advance_reg, if_neg hi.2]
  · rw [byteAt, returnedState_mem, advance_mem, byteAt]

/-- Settles O51: RTI pops the frame that the entry pushed, at the address it left in `SP`. -/
theorem rtiReturnsFromAnyTrap : Obligations.RtiReturnsFromAnyTrap := by
  intro cause retpc s h
  obtain ⟨hsp, hmem, -, hregs, hp, -, -, hpresent, -⟩ := trapEntryPushesTheFrame cause retpc s h
  generalize trapEntry cause retpc s = t at *
  have hexist : BytesExist t t.sp 5 := by
    rw [hsp]
    exact (bytesExist_congr hpresent _ _).2 h.1
  obtain ⟨u, hu, husp, hupc, huregs, hup, -, -⟩ := rtiCompletes t hexist
  have hstatus : byteAt t t.sp = s.p.toByte := by
    rw [hsp, hmem, if_neg (status_not_within_returnPc s.sp), if_pos rfl]
  have hpcval : valueAt t 32 (s.sp - 4) = retpc := by
    refine valueAt_of_bytes (sz := .long) fun j hj => ?_
    have hj : j < 4 := hj
    have hoffset := offset_add (s.sp - 4) j (by omega)
    rw [hmem, if_pos (by rw [Within, hoffset]; exact hj), hoffset]
  refine ⟨u, hu, ?_, fun i hi => ?_, ?_⟩
  · rw [hupc, hsp, show s.sp - 5 + 1 = s.sp - 4 by bv_omega, hpcval]
  · have hpc : i ≠ .pc := by simpa using hi
    by_cases hisp : i = .sp
    · rw [hisp, State.reg_sp, husp, hsp, BitVec.sub_add_cancel, State.reg_sp]
    · exact (huregs i (by simp [hisp, hpc])).trans (hregs i (by simp [hisp, hpc]))
  · rw [hup, hstatus]
    exact Status.ofByte_toByte s.p

end Sys2Proof.Proofs

namespace Sys2Proof.Proofs

open Sys2Proof.Machine Sys2Proof.Claims

/-! ### Stack instructions that meet a missing byte (R144) -/

/-- A body that never completes, and whose one exception is IllegalAddress. -/
theorem execute_illegalAddress {i : Instr} {body : State → Except Cause State} {s : State}
    (hno : ∀ t, body (advance i.length s) ≠ .ok t) (hcause : ∀ c, body (advance i.length s) = .error c → c = .illegalAddress) :
    execute i.length body s = raises .illegalAddress i s := by
  cases h : body (advance i.length s) with
  | ok t => exact absurd h (hno t)
  | error c =>
    rw [hcause c h] at h
    exact execute_of_error h

/-- A chain of pops that completes has found all its bytes (R263). -/
theorem popRegs_exist (is : List Reg) (hsp : Reg.sp ∉ is) (s t : State) (h : popRegs is s = .ok t) :
    BytesExist s s.sp (4 * is.length) := by
  induction is generalizing s with
  | nil => exact fun j hj => absurd hj (by simp)
  | cons r is ih =>
    rw [List.mem_cons, not_or] at hsp
    obtain ⟨p, hp, hrest⟩ := bind_ok h
    obtain ⟨hfirst, hval⟩ := pop_ok.1 hp
    have hstate : p.2 = s.setSp (s.sp + 4) := by
      rw [hval]
      rfl
    have hup : (p.2.setReg r p.1).sp = s.sp + 4 := by
      rw [← State.reg_sp, State.reg_setReg, if_neg hsp.1, hstate]
      rfl
    have hbytes := ih hsp.2 _ hrest
    rw [hup, bytesExist_congr (t := p.2.setReg r p.1) (s := s) (by rw [hstate]; rfl)] at hbytes
    intro j hj
    by_cases hlow : j < 4
    · exact (State.allExist_iff _ _ _).1 hfirst j hlow
    · obtain ⟨k, rfl⟩ := Nat.exists_eq_add_of_le (Nat.le_of_not_lt hlow)
      rw [List.length_cons] at hj
      have hk := hbytes k (by omega)
      rwa [BitVec.ofNat_add, ← BitVec.add_assoc]

theorem callTo_missing {addr : Word} {s : State} (h : ¬ BytesExist s (s.sp - 4) 4) :
    callTo addr s = .error .illegalAddress := by
  have hpush : push s .long s.pc = .error .illegalAddress := push_missing (sz := .long) s.pc h
  rw [callTo, hpush]
  rfl

theorem returnFromCall_missing {s : State} (h : ¬ BytesExist s s.sp 4) : returnFromCall s = .error .illegalAddress := by
  have hpop : pop s .long = .error .illegalAddress := pop_missing (sz := .long) h
  rw [returnFromCall, hpop]
  rfl

/-- PUSH with a missing byte of its operand or of the stack. -/
theorem pushOperand_missing {sz : Size} {o : PushOp} {s : State} (h : pushReady sz o s = false) :
    pushOperand sz o (advance (Instr.push sz o).length s) = .error .illegalAddress := by
  show (readPlace (pushState sz o s) sz (o.source.place (pushState sz o s)) >>= fun v =>
    push (pushState sz o s) sz v >>= fun t => .ok (postIncrement sz o.pointer t)) = _
  rw [readPlace_eq]
  cases hplace : placeReady (pushState sz o s) sz (o.source.place (pushState sz o s)) with
  | false => rfl
  | true =>
    rw [pushReady, hplace, Bool.true_and, decide_eq_false_iff_not] at h
    have hstack : ¬ BytesExist (pushState sz o s) ((pushState sz o s).sp - sizeStep sz) sz.bytes := fun hex =>
      h ((bytesExist_congr (operandState_present _ _ _ s) _ _).1 hex)
    have hpush := push_missing (pushValue sz o s) hstack
    show (push (pushState sz o s) sz (pushValue sz o s) >>= _) = _
    rw [hpush]
    rfl

/-- POP with a missing byte of the stack or of its operand. -/
theorem exec_pop_missing {sz : Size} {o : OneOp} {s : State} (h : popReady sz o s = false) :
    exec (.pop sz o) s = raises .illegalAddress (.pop sz o) s := by
  by_cases hstack : BytesExist s (oneState .pop sz o s).sp sz.bytes
  · rw [popReady, decide_eq_true hstack, Bool.and_true] at h
    have hplace : placeReady (poppedState sz o s) sz (onePlace .pop sz o s) = false := h
    rw [exec_pop_of_stack hstack]
    refine execute_of_error ?_
    rw [writePlace_of_not_ready (popValue sz o s) hplace]
    rfl
  · have hmissing : ¬ BytesExist (oneState .pop sz o s) (oneState .pop sz o s).sp sz.bytes := fun hex =>
      hstack ((bytesExist_congr (operandState_present _ _ _ s) _ _).1 hex)
    refine execute_of_error ?_
    show (pop (oneState .pop sz o s) sz >>= fun r => writePlace r.2 sz r.1 (onePlace .pop sz o s) >>= fun t =>
      .ok (postIncrement sz o.pointer (t.setStatus (setNZ t.p r.1)))) = _
    rw [pop_missing hmissing]
    rfl

/-- Settles O33: each stack operation completes only where its bytes exist, and raises nothing but IllegalAddress. -/
theorem missingStackRaisesIllegalAddress : Obligations.MissingStackRaisesIllegalAddress := by
  refine ⟨fun i s a k hspan hmissing => ?_, fun sz o s h => execute_of_error (pushOperand_missing h),
    fun sz o s h => exec_pop_missing h⟩
  cases i with
  | jsr addr =>
    cases hspan
    exact execute_of_error (callTo_missing (s := advance (Instr.jsr addr).length s) hmissing)
  | rts =>
    cases hspan
    exact execute_of_error (returnFromCall_missing (s := advance Instr.rts.length s) hmissing)
  | rti =>
    cases hspan
    refine execute_illegalAddress (i := .rti) (fun t ht => ?_) fun c hc => returnFromTrap_missing hc
    obtain ⟨hstatus, hpc, -⟩ := returnFromTrap_ok ht
    exact hmissing ((returnFrame_exists_iff s s.sp).2 ⟨hstatus, (State.allExist_iff _ _ _).1 hpc⟩)
  | pusha =>
    cases hspan
    refine execute_illegalAddress (i := .pusha) (fun t ht => ?_) fun c hc => pushRegs_missing generalRegs _ c hc
    have hbytes := pushRegs_exist generalRegs _ t ht
    exact hmissing hbytes
  | popa =>
    cases hspan
    refine execute_illegalAddress (i := .popa) (fun t ht => ?_) fun c hc => popRegs_missing generalRegs.reverse _ c hc
    have hbytes := popRegs_exist generalRegs.reverse (by decide) _ t ht
    exact hmissing hbytes
  | _ => cases hspan

end Sys2Proof.Proofs
